-- ==== Sys2Proof/Word.lean ====
section
/-! DEFINITION. The word type of the block: every value it moves to or from the device is one byte
(spec 00_scope.md R23, 20_memory.md R68). Bit 0 is the least significant bit. -/

namespace Sys2Proof

/-- `u8`, an unsigned 8-bit value (R23). -/
abbrev Byte := BitVec 8

end Sys2Proof
end

