-- ==== Sys2Proof/Syntax.lean ====
section
/-! DEFINITION. The value types the operations take (10_state.md section 1, 43_protocol.md R181,
45_diff_updater.md R230), the raw words a host hands to the block, and `Instr`: one constructor per
row of spec/opcode_table.json, 19 host operations and 11 wire operations. -/

namespace Sys2Proof

/-- A glyph: 8 rows of one byte each, row 0 first (R30). Bits 4..0 of a row are the visible columns,
bit 5 is the hidden gap pixel. -/
abbrev Glyph := Vector Byte 8

/-- The 16 cells of the canvas, cells 0..7 the top row (R38). -/
abbrev Cells := Vector Glyph 16

/-- A DDRAM image: one character code per cell (R63). -/
abbrev Image := Vector Byte 16

/-- The all-blank glyph (R15). -/
def Glyph.blank : Glyph := Vector.replicate 8 0

/-- The gap policy (R33). -/
inductive Gap where
  | skip
  | hide
deriving DecidableEq, Repr, Inhabited

/-- `Dir` of R181: the direction operand of EntryMode and of Shift. -/
inductive Dir where
  | left
  | right
deriving DecidableEq, Repr

/-- The target operand of Shift (R181). -/
inductive ShiftTarget where
  | cursor
  | display
deriving DecidableEq, Repr

/-- The `lines` operand of FunctionSet (R181). -/
inductive LineCount where
  | one
  | two
deriving DecidableEq, Repr

/-- The `font` operand of FunctionSet: 5x8 or 5x11 (R181, R98). -/
inductive FontSize where
  | f5x8
  | f5x11
deriving DecidableEq, Repr

/-- The command type (R181). An address operand is a `u8`; one wider than its field is R188's case. -/
inductive Command where
  | clear
  | returnHome
  | entryMode (direction : Dir) (displayShift : Bool)
  | onOff (display cursor blink : Bool)
  | shift (target : ShiftTarget) (direction : Dir)
  | functionSet (lines : LineCount) (font : FontSize)
  | setGlyphRamAddress (a : Byte)
  | setDisplayRamAddress (a : Byte)
deriving DecidableEq, Repr

/-- An item of an operation list (R230): an address-set into glyph RAM, one into display RAM, or a
data write. -/
inductive DiffOp where
  | setCG (a : Byte)
  | setDD (a : Byte)
  | write (b : Byte)
deriving DecidableEq, Repr

/-- One instruction: a row of spec/opcode_table.json. The first 19 are the host operations of R104
with their typed operands. The last 11 are the wire operations of R90 and R91: as an instruction,
each stands for the driver operation that places it on the lines (R193 to R207; log entry 2). -/
inductive Instr where
  | glyphRender (c : Char)
  | glyphEq (g1 g2 : Glyph)
  | glyphDistance (g1 g2 : Glyph)
  | romSearch (g : Glyph)
  | cacheFlush
  | cacheResolve (g : Glyph)
  | cacheImage
  | canvasInit (gap : Gap)
  | canvasWrite (text : List Char) (ovr : Option Gap)
  | canvasShiftLeft (ovr : Option Gap)
  | canvasRender
  | drvExec (cmd : Command)
  | drvWrite (b : Byte)
  | drvReadAc
  | drvRead
  | busWrite (b : Byte)
  | busRead
  | diffCompute (prevDD : Option Image) (prevCG : Option (List Byte)) (newDD : Image) (newCG : List Byte)
  | diffApply (ops : List DiffOp)
  | clear
  | returnHome
  | entryMode (direction : Dir) (displayShift : Bool)
  | onOff (display cursor blink : Bool)
  | shift (target : ShiftTarget) (direction : Dir)
  | functionSet (lines : LineCount) (font : FontSize)
  | setCgramAddr (a : BitVec 6)
  | setDdramAddr (a : BitVec 7)
  | readBfAc
  | writeData (b : Byte)
  | readData
deriving DecidableEq, Repr

/-- What stands, undecoded, at the block's host port: a host operation's 5-bit selector with the bytes
of its operands (R104; the bytes are the model's, log entry 3), or a 10-bit wire word (R90). -/
inductive Request where
  | host (op : BitVec 5) (operands : List Byte)
  | wire (w : BitVec 10)
deriving DecidableEq, Repr

/-- Why a request does not decode. -/
inductive DecodeRefusal where
  /-- the selector is one of `0x13..0x1F` (R105) -/
  | reservedSelector (op : BitVec 5)
  /-- the operand bytes are not those of the selector's typed operands (log entry 3) -/
  | badOperands (op : BitVec 5)
  /-- the command byte is `0x00`, which selects no command (R92, R103) -/
  | noCommand
  /-- the operands break a bound the spec states (`Instr.wellFormed`) -/
  | illFormed
deriving DecidableEq, Repr

end Sys2Proof
end

