-- ==== Sys2Proof/Config.lean ====
section
/-! DEFINITION. What is fixed for one instance of the block and what the spec leaves open:
the sizes (00_scope.md R12), the parameters FONT, ROM, INITIAL_GAP, the settle times and the readings
(R13 to R20, 10_state.md R51), the configuration check that refuses a table the spec forbids
(R13, R14, 92_eei_decisions.md D36), and the free values, opaque constants with no body. A `Config` is
plain data that State carries and no step writes; the value it has at reset uses the spec's defaults
where there are any and opaque constants where there are none. -/

namespace Sys2Proof

/-! ### Fixed sizes (R12) -/

/-- `CACHE_SLOTS`. -/
def cacheSlots : Nat := 8

/-- `CELLS`. -/
def cellCount : Nat := 16

/-- `ROW_CELLS`. -/
def rowCells : Nat := 8

/-! ### The readings the source leaves open -/

/-- `SHIFT_CARRY_READING` (R18). -/
inductive CarryReading where
  | fixedHiddenBit
  | widthBit
deriving DecidableEq, Repr

/-- `RAC_DUMMY_POSITION` (R19). -/
inductive DummyPosition where
  | beforeEnable
  | afterEnable
deriving DecidableEq, Repr

/-- `ADDR_ENCODE_POLICY` (R20). -/
inductive AddrPolicy where
  | refuse
  | mask
deriving DecidableEq, Repr

/-! ### The font and the ROM (R13, R14) and the configuration check -/

/-- Why a font or a ROM table is refused (R250, D36). Refusing is safe: no claim is made of such a
configuration. -/
inductive ConfigRefusal where
  /-- a font entry has a row above `0x1F` (R13) -/
  | fontRowTooWide
  /-- the list gives one character two glyphs, so it is no partial function (R13) -/
  | fontNotAFunction
  /-- the list gives one glyph two addresses, so it is no partial function (R14) -/
  | romNotAFunction
  /-- two glyphs share an address (R14: injective) -/
  | romNotInjective
  /-- the blank glyph has no address (R14) -/
  | romLacksBlank
  /-- an address lies in `0x00..0x0F` (R14) -/
  | romAddressReserved
deriving DecidableEq, Repr

/-- What the check finds wrong with a font table: the first of the reasons that applies. -/
def fontProblem (entries : List (Char × Glyph)) : Option ConfigRefusal :=
  if (entries.map Prod.fst).Nodup then
    if entries.all (fun e => e.2.toList.all (fun row => row ≤ 0x1F#8)) then none
    else some .fontRowTooWide
  else some .fontNotAFunction

/-- What the check finds wrong with a ROM table: the first of the reasons that applies. R14 names no bound on the
rows of a ROM glyph, so a glyph with a hidden bit may stand in the table and is then found, where R30 and the
corner cases of R125 speak of tables without one: DESIGN CHOICE (log entry 31). -/
def romProblem (entries : List (Glyph × Byte)) : Option ConfigRefusal :=
  if (entries.map Prod.fst).Nodup then
    if (entries.map Prod.snd).Nodup then
      if entries.any (fun e => e.1 = Glyph.blank) then
        if entries.all (fun e => 0x0F#8 < e.2) then none
        else some .romAddressReserved
      else some .romLacksBlank
    else some .romNotInjective
  else some .romNotAFunction

/-- `FONT`: a table that passed the check, as a finite list of its pairs (log entry 25). -/
structure FontTable where
  entries : List (Char × Glyph)
  legal : fontProblem entries = none
deriving DecidableEq, Repr

/-- `ROM`: a table that passed the check, as a finite list of its pairs (log entry 25). -/
structure RomTable where
  entries : List (Glyph × Byte)
  legal : romProblem entries = none
deriving DecidableEq, Repr

/-- The configuration check on a font (R13, D36). -/
def FontTable.check (entries : List (Char × Glyph)) : Except ConfigRefusal FontTable :=
  match h : fontProblem entries with
  | some r => .error r
  | none => .ok ⟨entries, h⟩

/-- The configuration check on a ROM (R14, D7). -/
def RomTable.check (entries : List (Glyph × Byte)) : Except ConfigRefusal RomTable :=
  match h : romProblem entries with
  | some r => .error r
  | none => .ok ⟨entries, h⟩

/-- The configuration of one instance of the block (R12 to R20, R51): parameters of the step, not
block state (R43; log entry 1). -/
structure Config where
  /-- `FONT` (R13) -/
  font : FontTable
  /-- `ROM` (R14) -/
  rom : RomTable
  /-- `INITIAL_GAP` (10_state.md R51) -/
  initialGap : Gap
  /-- `SHIFT_CARRY_READING` (R18) -/
  carry : CarryReading := .fixedHiddenBit
  /-- `RAC_DUMMY_POSITION` (R19) -/
  dummy : DummyPosition := .beforeEnable
  /-- `ADDR_ENCODE_POLICY` (R20) -/
  addrPolicy : AddrPolicy := .refuse
  /-- `T_CLEAR` (R16) -/
  tClear : Nat := 1600
  /-- `T_CMD` (R16) -/
  tCmd : Nat := 40
  /-- `T_DATA` (R16) -/
  tData : Nat := 37
  /-- `T_AC` (R16) -/
  tAc : Nat := 1
  /-- `TIME_UNIT` (R17): the length of one time-unit, in a unit the reader of a claim chooses. It
  gives a delay no duration in the model (R297); `Machine.duration` is all that reads it. -/
  timeUnit : Nat
deriving DecidableEq, Repr

/-- Instantiates the block with a font, a ROM and the open parameters, or says why not (R250). Every
other field has the spec's default and is legal at every value. -/
def Config.instantiate (font : List (Char × Glyph)) (rom : List (Glyph × Byte)) (initialGap : Gap)
    (timeUnit : Nat) : Except ConfigRefusal Config :=
  match FontTable.check font with
  | .error r => .error r
  | .ok f =>
    match RomTable.check rom with
    | .error r => .error r
    | .ok m => .ok { font := f, rom := m, initialGap := initialGap, timeUnit := timeUnit }

/-! ### The agents outside the block -/

/-- `HwErr` (R21): the opaque payload of a pin failure, told apart by a number the model never
inspects (log entry 5). -/
structure HwErr where
  token : Nat
deriving DecidableEq, Repr, Inhabited

/-- One answer of the pin oracle (R22). -/
inductive PinAnswer where
  | ok
  | err (e : HwErr)
deriving DecidableEq, Repr, Inhabited

/-- The direction of the eight data lines (10_state.md R40). -/
inductive BusDir where
  | uninitialized
  | drivingOutput
  | sensingInput
deriving DecidableEq, Repr, Inhabited

/-- The device memory a data access targets (20_memory.md R72). -/
inductive Region where
  | dd
  | cg
deriving DecidableEq, Repr, Inhabited

/-! ### Free values: nothing constrains them -/

/-- The pin oracle past the answers State scripts: the answer to pin operation number `n` of the run
(R22; log entry 4). -/
opaque Config.pinOracle : Nat → PinAnswer

/-- The device oracle past the bytes State scripts: the answer to sample number `n` of the run
(R22; log entry 4). -/
opaque Config.deviceOracle : Nat → Byte

/-- `bus.dir` after pin operation number `n`, a `Dir`, failed (44_bus.md R215;
log entry 15). -/
opaque Config.dirAfterFailure : Nat → BusDir

/-- The data-line levels after pin operation number `n`, a `Drive`, failed (70_reset_and_hazards.md
R296, 93_implementation_defined.md row 19; log entry 16). -/
opaque Config.outAfterFailure : Nat → Byte

/-- The font of the instance that runs from reset, before the check (R13: OPEN). -/
opaque Config.fontEntries : List (Char × Glyph)

/-- The ROM of the instance that runs from reset, before the check (R14: OPEN). -/
opaque Config.romEntries : List (Glyph × Byte)

/-- `INITIAL_GAP` of the instance that runs from reset (R51: OPEN). -/
opaque Config.openInitialGap : Gap

/-- `TIME_UNIT` of the instance that runs from reset (R17: OPEN). -/
opaque Config.openTimeUnit : Nat

/-- The device's address counter at power-on (R283: unknown; log entry 9). -/
opaque Config.powerOnAc : BitVec 7

/-- The device's region at power-on (R283: unknown). -/
opaque Config.powerOnRegion : Region

/-- The device's entry mode at power-on (R283: unknown). -/
opaque Config.powerOnInc : Bool

/-- The font the open table stands for. A table the check refuses cannot be instantiated, so the empty
font takes its place; every legal font is a value the open table can have (log entry 6). -/
def Config.openFont : FontTable :=
  match FontTable.check Config.fontEntries with
  | .ok f => f
  | .error _ => ⟨[], by decide⟩

/-- The ROM the open table stands for. A table the check refuses cannot be instantiated, so the table
that holds only the blank glyph takes its place, at `0x20` (log entry 6). -/
def Config.openRom : RomTable :=
  match RomTable.check Config.romEntries with
  | .ok m => m
  | .error _ => ⟨[(Glyph.blank, 0x20#8)], by decide⟩

/-- The configuration of the instance that runs from reset: open tables, open gap, open time-unit, and
the spec's defaults for everything else. -/
def Config.installed : Config :=
  { font := Config.openFont, rom := Config.openRom, initialGap := Config.openInitialGap,
    timeUnit := Config.openTimeUnit }

end Sys2Proof
end

