-- ==== Sys2Proof/WellFormed.lean ====
section
/-! DEFINITION. The operand bounds the spec states that the operand types do not already carry. There
is one: `len(newCG) <= 64` of DIFF_COMPUTE (45_diff_updater.md R231). Every other operand is legal at
every value of its type: any glyph, character, command, byte or operation list (an address operand
wider than its field is legal and has R188's outcome). -/

namespace Sys2Proof

/-- Device glyph RAM holds 8 x 8 bytes (R65), the most a CGRAM image can hold. -/
def cgramBytes : Nat := 64

/-- The operand checks. -/
def Instr.wellFormed : Instr → Bool
  | .diffCompute _ _ _ newCG => newCG.length ≤ cgramBytes
  | .glyphRender _ | .glyphEq _ _ | .glyphDistance _ _ | .romSearch _ | .cacheFlush | .cacheResolve _
  | .cacheImage | .canvasInit _ | .canvasWrite _ _ | .canvasShiftLeft _ | .canvasRender | .drvExec _
  | .drvWrite _ | .drvReadAc | .drvRead | .busWrite _ | .busRead | .diffApply _ | .clear | .returnHome
  | .entryMode _ _ | .onOff _ _ _ | .shift _ _ | .functionSet _ _ | .setCgramAddr _ | .setDdramAddr _
  | .readBfAc | .writeData _ | .readData => true

end Sys2Proof
end

