-- ==== Sys2Proof/Decode.lean ====
section
/-! DEFINITION. Decoding and encoding. The wire words are those of 30_encoding.md R90 to R103. A host
operation has a 5-bit selector (R104); its operands are typed values with no bit layout of their own,
so the operand bytes read and written here are the model's (log entry 3). `decode` is total and names
why it refuses; `encode` is written from the same tables. -/

namespace Sys2Proof

/-! ### Wire words (R90 to R103) -/

/-- `W = {RS, RW, D7..D0}` (R90). -/
def wireWord (rs rw : Bool) (d : Byte) : BitVec 10 :=
  BitVec.ofBool rs ++ BitVec.ofBool rw ++ d

/-- One bit of a command byte, at position `k` (R101). -/
def bitAt (v : Bool) (k : Nat) : Byte := (if v then 1#8 else 0#8) <<< k

/-- I/D and R/L: 1 for `Right` (R95, R97). -/
def Dir.isRight : Dir → Bool
  | .left => false
  | .right => true

/-- S/C: 1 for `Display` (R97). -/
def ShiftTarget.isDisplay : ShiftTarget → Bool
  | .cursor => false
  | .display => true

/-- N: 1 for `Two` (R98). -/
def LineCount.isTwo : LineCount → Bool
  | .one => false
  | .two => true

/-- F: 1 for `5x11` (R98). -/
def FontSize.is5x11 : FontSize → Bool
  | .f5x8 => false
  | .f5x11 => true

def Dir.ofBit (v : Bool) : Dir := if v then .right else .left
def ShiftTarget.ofBit (v : Bool) : ShiftTarget := if v then .display else .cursor
def LineCount.ofBit (v : Bool) : LineCount := if v then .two else .one
def FontSize.ofBit (v : Bool) : FontSize := if v then .f5x11 else .f5x8

/-- The command byte (R93 to R100). An address keeps the bits of its field; R188 says when a wider one
is encoded at all (`encodeCommand`). Don't-care bits are 0 (R102) and DL is 1 (R98). -/
def commandByte : Command → Byte
  | .clear => 0x01#8
  | .returnHome => 0x02#8
  | .entryMode direction displayShift => 0x04#8 ||| bitAt direction.isRight 1 ||| bitAt displayShift 0
  | .onOff display cursor blink => 0x08#8 ||| bitAt display 2 ||| bitAt cursor 1 ||| bitAt blink 0
  | .shift target direction => 0x10#8 ||| bitAt target.isDisplay 3 ||| bitAt direction.isRight 2
  | .functionSet lines font => 0x20#8 ||| bitAt true 4 ||| bitAt lines.isTwo 3 ||| bitAt font.is5x11 2
  | .setGlyphRamAddress a => 0x40#8 ||| (a &&& 0x3F#8)
  | .setDisplayRamAddress a => 0x80#8 ||| (a &&& 0x7F#8)

/-- A command byte read by the position of its highest set bit (R92). Don't-care bits, and DL of
FunctionSet, do not change which instruction is read (R103; log entry 7). -/
def decodeCommand (b : Byte) : Option Instr :=
  if b.getLsbD 7 then some (.setDdramAddr (b.extractLsb' 0 7))
  else if b.getLsbD 6 then some (.setCgramAddr (b.extractLsb' 0 6))
  else if b.getLsbD 5 then some (.functionSet (.ofBit (b.getLsbD 3)) (.ofBit (b.getLsbD 2)))
  else if b.getLsbD 4 then some (.shift (.ofBit (b.getLsbD 3)) (.ofBit (b.getLsbD 2)))
  else if b.getLsbD 3 then some (.onOff (b.getLsbD 2) (b.getLsbD 1) (b.getLsbD 0))
  else if b.getLsbD 2 then some (.entryMode (.ofBit (b.getLsbD 1)) (b.getLsbD 0))
  else if b.getLsbD 1 then some .returnHome
  else if b.getLsbD 0 then some .clear
  else none

/-- A wire word read by RS and RW (R91). The data bits of a read are the device's. -/
def decodeWire (w : BitVec 10) : Option Instr :=
  match w.getLsbD 9, w.getLsbD 8 with
  | false, false => decodeCommand (w.extractLsb' 0 8)
  | false, true => some .readBfAc
  | true, false => some (.writeData (w.extractLsb' 0 8))
  | true, true => some .readData

/-! ### Readers of operand bytes: each takes what it needs from the front -/

def getByte : List Byte → Option (Byte × List Byte)
  | [] => none
  | b :: rest => some (b, rest)

def getGlyph : List Byte → Option (Glyph × List Byte)
  | r0 :: r1 :: r2 :: r3 :: r4 :: r5 :: r6 :: r7 :: rest => some (#v[r0, r1, r2, r3, r4, r5, r6, r7], rest)
  | _ => none

def getImage : List Byte → Option (Image × List Byte)
  | b0 :: b1 :: b2 :: b3 :: b4 :: b5 :: b6 :: b7 :: b8 :: b9 :: b10 :: b11 :: b12 :: b13 :: b14 :: b15 :: rest =>
    some (#v[b0, b1, b2, b3, b4, b5, b6, b7, b8, b9, b10, b11, b12, b13, b14, b15], rest)
  | _ => none

/-- A Unicode scalar value in three bytes, the least significant first. -/
def getChar : List Byte → Option (Char × List Byte)
  | b0 :: b1 :: b2 :: rest =>
    let n := b0.toNat + 256 * b1.toNat + 65536 * b2.toNat
    if n.isValidChar then some (Char.ofNat n, rest) else none
  | _ => none

def getGap : List Byte → Option (Gap × List Byte)
  | b :: rest => if b = 0#8 then some (.skip, rest) else if b = 1#8 then some (.hide, rest) else none
  | [] => none

/-- An optional operand: `0` for `None`, `1` and the operand for `Some`. -/
def getOption {α : Type} (item : List Byte → Option (α × List Byte)) :
    List Byte → Option (Option α × List Byte)
  | b :: rest =>
    if b = 0#8 then some (none, rest)
    else if b = 1#8 then (item rest).map (fun x => (some x.1, x.2))
    else none
  | [] => none

/-- A list operand: each item after a `1`, then a `0`. `fuel` bounds the number of items. -/
def getListFuel {α : Type} (item : List Byte → Option (α × List Byte)) :
    Nat → List Byte → Option (List α × List Byte)
  | 0, _ => none
  | _ + 1, [] => none
  | fuel + 1, b :: rest =>
    if b = 0#8 then some ([], rest)
    else if b = 1#8 then
      match item rest with
      | none => none
      | some (x, rest') => (getListFuel item fuel rest').map (fun y => (x :: y.1, y.2))
    else none

/-- A list operand; it has at most one item per byte. -/
def getList {α : Type} (item : List Byte → Option (α × List Byte)) (bytes : List Byte) :
    Option (List α × List Byte) :=
  getListFuel item bytes.length bytes

def getBool : List Byte → Option (Bool × List Byte)
  | b :: rest => if b = 0#8 then some (false, rest) else if b = 1#8 then some (true, rest) else none
  | [] => none

/-- A command operand: a tag in the order of R181's variant, then its fields, one byte each. -/
def getCommand : List Byte → Option (Command × List Byte)
  | [] => none
  | tag :: rest =>
    if tag = 0#8 then some (.clear, rest)
    else if tag = 1#8 then some (.returnHome, rest)
    else if tag = 2#8 then do
      let (d, rest) ← getBool rest
      let (s, rest) ← getBool rest
      some (.entryMode (.ofBit d) s, rest)
    else if tag = 3#8 then do
      let (d, rest) ← getBool rest
      let (c, rest) ← getBool rest
      let (b, rest) ← getBool rest
      some (.onOff d c b, rest)
    else if tag = 4#8 then do
      let (t, rest) ← getBool rest
      let (d, rest) ← getBool rest
      some (.shift (.ofBit t) (.ofBit d), rest)
    else if tag = 5#8 then do
      let (n, rest) ← getBool rest
      let (f, rest) ← getBool rest
      some (.functionSet (.ofBit n) (.ofBit f), rest)
    else if tag = 6#8 then do
      let (a, rest) ← getByte rest
      some (.setGlyphRamAddress a, rest)
    else if tag = 7#8 then do
      let (a, rest) ← getByte rest
      some (.setDisplayRamAddress a, rest)
    else none

/-- An operation-list item: a tag in the order of R230, then its byte. -/
def getDiffOp : List Byte → Option (DiffOp × List Byte)
  | tag :: b :: rest =>
    if tag = 0#8 then some (.setCG b, rest)
    else if tag = 1#8 then some (.setDD b, rest)
    else if tag = 2#8 then some (.write b, rest)
    else none
  | _ => none

/-! ### Host operations (R104) -/

/-- The operands of each selector, in R104's order. `none` in the first place is a reserved selector
(R105). -/
def readOperands (op : Nat) (bytes : List Byte) : Option (Option (Instr × List Byte)) :=
  match op with
  | 0x00 => some do
    let (c, r) ← getChar bytes
    some (.glyphRender c, r)
  | 0x01 => some do
    let (g1, r) ← getGlyph bytes
    let (g2, r) ← getGlyph r
    some (.glyphEq g1 g2, r)
  | 0x02 => some do
    let (g1, r) ← getGlyph bytes
    let (g2, r) ← getGlyph r
    some (.glyphDistance g1 g2, r)
  | 0x03 => some do
    let (g, r) ← getGlyph bytes
    some (.romSearch g, r)
  | 0x04 => some (some (.cacheFlush, bytes))
  | 0x05 => some do
    let (g, r) ← getGlyph bytes
    some (.cacheResolve g, r)
  | 0x06 => some (some (.cacheImage, bytes))
  | 0x07 => some do
    let (p, r) ← getGap bytes
    some (.canvasInit p, r)
  | 0x08 => some do
    let (text, r) ← getList getChar bytes
    let (ovr, r) ← getOption getGap r
    some (.canvasWrite text ovr, r)
  | 0x09 => some do
    let (ovr, r) ← getOption getGap bytes
    some (.canvasShiftLeft ovr, r)
  | 0x0A => some (some (.canvasRender, bytes))
  | 0x0B => some do
    let (cmd, r) ← getCommand bytes
    some (.drvExec cmd, r)
  | 0x0C => some do
    let (b, r) ← getByte bytes
    some (.drvWrite b, r)
  | 0x0D => some (some (.drvReadAc, bytes))
  | 0x0E => some (some (.drvRead, bytes))
  | 0x0F => some do
    let (b, r) ← getByte bytes
    some (.busWrite b, r)
  | 0x10 => some (some (.busRead, bytes))
  | 0x11 => some do
    let (prevDD, r) ← getOption getImage bytes
    let (prevCG, r) ← getOption (getList getByte) r
    let (newDD, r) ← getImage r
    let (newCG, r) ← getList getByte r
    some (.diffCompute prevDD prevCG newDD newCG, r)
  | 0x12 => some do
    let (ops, r) ← getList getDiffOp bytes
    some (.diffApply ops, r)
  | _ => none

/-- A host request: the selector's operands, with no byte left over, meeting the spec's bounds. -/
def decodeHost (op : BitVec 5) (bytes : List Byte) : Except DecodeRefusal Instr :=
  match readOperands op.toNat bytes with
  | none => .error (.reservedSelector op)
  | some (some (i, [])) => if i.wellFormed then .ok i else .error .illFormed
  | some _ => .error (.badOperands op)

/-- The decoder: total, and refusing by name. -/
def decode : Request → Except DecodeRefusal Instr
  | .host op bytes => decodeHost op bytes
  | .wire w =>
    match decodeWire w with
    | some i => .ok i
    | none => .error .noCommand

/-! ### The encoder -/

def putChar (c : Char) : List Byte :=
  [BitVec.ofNat 8 c.toNat, BitVec.ofNat 8 (c.toNat / 256), BitVec.ofNat 8 (c.toNat / 65536)]

def putGap : Gap → List Byte
  | .skip => [0#8]
  | .hide => [1#8]

def putOption {α : Type} (item : α → List Byte) : Option α → List Byte
  | none => [0#8]
  | some x => 1#8 :: item x

def putList {α : Type} (item : α → List Byte) : List α → List Byte
  | [] => [0#8]
  | x :: xs => 1#8 :: (item x ++ putList item xs)

def putBool (v : Bool) : List Byte := [if v then 1#8 else 0#8]

def putCommand : Command → List Byte
  | .clear => [0#8]
  | .returnHome => [1#8]
  | .entryMode d s => 2#8 :: (putBool d.isRight ++ putBool s)
  | .onOff d c b => 3#8 :: (putBool d ++ putBool c ++ putBool b)
  | .shift t d => 4#8 :: (putBool t.isDisplay ++ putBool d.isRight)
  | .functionSet n f => 5#8 :: (putBool n.isTwo ++ putBool f.is5x11)
  | .setGlyphRamAddress a => [6#8, a]
  | .setDisplayRamAddress a => [7#8, a]

def putDiffOp : DiffOp → List Byte
  | .setCG a => [0#8, a]
  | .setDD a => [1#8, a]
  | .write b => [2#8, b]

/-- The wire word of a command: RS = 0, RW = 0 and its command byte (R91). -/
def commandWord (cmd : Command) : Request := .wire (wireWord false false (commandByte cmd))

/-- The request that stands for an instruction: the selector of R104 with its operand bytes, or the
wire word of R91 to R100. The data bits of a read word are 0, the device drives them (R102). -/
def encode : Instr → Request
  | .glyphRender c => .host 0x00#5 (putChar c)
  | .glyphEq g1 g2 => .host 0x01#5 (g1.toList ++ g2.toList)
  | .glyphDistance g1 g2 => .host 0x02#5 (g1.toList ++ g2.toList)
  | .romSearch g => .host 0x03#5 g.toList
  | .cacheFlush => .host 0x04#5 []
  | .cacheResolve g => .host 0x05#5 g.toList
  | .cacheImage => .host 0x06#5 []
  | .canvasInit gap => .host 0x07#5 (putGap gap)
  | .canvasWrite text ovr => .host 0x08#5 (putList putChar text ++ putOption putGap ovr)
  | .canvasShiftLeft ovr => .host 0x09#5 (putOption putGap ovr)
  | .canvasRender => .host 0x0A#5 []
  | .drvExec cmd => .host 0x0B#5 (putCommand cmd)
  | .drvWrite b => .host 0x0C#5 [b]
  | .drvReadAc => .host 0x0D#5 []
  | .drvRead => .host 0x0E#5 []
  | .busWrite b => .host 0x0F#5 [b]
  | .busRead => .host 0x10#5 []
  | .diffCompute prevDD prevCG newDD newCG =>
    .host 0x11#5 (putOption Vector.toList prevDD ++ putOption (putList (fun b => [b])) prevCG
      ++ newDD.toList ++ putList (fun b => [b]) newCG)
  | .diffApply ops => .host 0x12#5 (putList putDiffOp ops)
  | .clear => commandWord .clear
  | .returnHome => commandWord .returnHome
  | .entryMode d s => commandWord (.entryMode d s)
  | .onOff d c b => commandWord (.onOff d c b)
  | .shift t d => commandWord (.shift t d)
  | .functionSet n f => commandWord (.functionSet n f)
  | .setCgramAddr a => commandWord (.setGlyphRamAddress (a.setWidth 8))
  | .setDdramAddr a => commandWord (.setDisplayRamAddress (a.setWidth 8))
  | .readBfAc => .wire (wireWord false true 0#8)
  | .writeData b => .wire (wireWord true false b)
  | .readData => .wire (wireWord true true 0#8)

/-! ### The words of the opcode table -/

/-- How many operand bytes a selector has when every operand bit is 0: character 0, the blank glyph,
`Skip`, `Clear`, `None`, the empty list, the all-zero image. -/
def zeroOperandBytes (op : Nat) : Nat :=
  match op with
  | 0x00 => 3
  | 0x01 => 16
  | 0x02 => 16
  | 0x03 => 8
  | 0x05 => 8
  | 0x07 => 1
  | 0x08 => 2
  | 0x09 => 1
  | 0x0B => 1
  | 0x0C => 1
  | 0x0F => 1
  | 0x11 => 19
  | 0x12 => 1
  | _ => 0

/-- The request of a word of the opcode table. A HOST row has 5 bits, one byte, and its operand bytes
are zeros; a WIRE10 row has 10 bits, two bytes (R90, R104; log entry 8). -/
def requestOfWord (nbits w : Nat) : Request :=
  if nbits ≤ 8 then .host (BitVec.ofNat 5 w) (List.replicate (zeroOperandBytes (w % 32)) 0#8)
  else .wire (BitVec.ofNat 10 w)

/-- The instruction the decoder reads from a word of the opcode table. -/
def decodeTableWord (nbits w : Nat) : Option Instr :=
  match decode (requestOfWord nbits w) with
  | .ok i => some i
  | .error _ => none

end Sys2Proof
end

