-- ==== Sys2Proof/Machine/State.lean ====
section
/-! DEFINITION. The state of the block (10_state.md R34 to R42) with what stands around it in one run:
its configuration, the host's pending requests and the last result, the line trace, the scripted
answers of the two oracles, and the reference device (20_memory.md R72). Plain data. State.reset is
10_state.md R49 to R54. -/

namespace Sys2Proof.Machine

/-! ### Block state -/

/-- The glyph cache (R35). Its fill count `n` is the length of `slots` and not stored apart (R36). -/
structure Cache where
  slots : List Glyph
deriving DecidableEq, Repr

/-- The canvas (R38, R39). -/
structure Canvas where
  cells : Cells
  gap : Gap
deriving DecidableEq, Repr

/-- The data bus (R40): its direction, and the level last driven on line i, bit i of `out`. -/
structure Bus where
  dir : BusDir
  out : Byte
deriving DecidableEq, Repr

/-- The control lines (R41): the level last driven, `none` while it is unknown, `true` for 1. -/
structure Lines where
  rs : Option Bool
  rw : Option Bool
  e : Option Bool
deriving DecidableEq, Repr

/-- The names of the control lines (R29, R261). -/
inductive ControlLine where
  | rs
  | rw
  | e
deriving DecidableEq, Repr

/-! ### Events and results -/

/-- The direction argument of a `Dir` event: `Out` or `In` (R185). -/
inductive DataDir where
  | out
  | sense
deriving DecidableEq, Repr

/-- A line-trace event (43_protocol.md R185). -/
inductive Event where
  | line (l : ControlLine) (v : Bool)
  | dir (d : DataDir)
  | drive (b : Byte)
  | sample (b : Byte)
  | delay (n : Nat)
deriving DecidableEq, Repr

/-- An error value (60_exceptions.md R250). -/
inductive OpError where
  /-- a pin operation was answered `Err e` (R251) -/
  | hwError (e : HwErr)
  /-- the address argument does not fit its field under `Refuse` (R188) -/
  | addrRange (cmd : Command)
deriving DecidableEq, Repr

/-- What the last operation handed to the host (30_encoding.md R104, column result). An operation with
result `Result T` that succeeds leaves the value of `T`; one that ends in an error leaves `error`. -/
inductive OpResult where
  /-- no operation has ended since reset -/
  | nothing
  /-- `none`, or `Ok` of a `Result unit` -/
  | unit
  | glyph (g : Glyph)
  | bool (v : Bool)
  | number (n : Nat)
  | address (a : Option Byte)
  | byte (b : Byte)
  | bytes (l : List Byte)
  | images (dd : Image) (cg : List Byte)
  | opList (ops : List DiffOp)
  | error (e : OpError)
deriving DecidableEq, Repr

/-! ### Around the block -/

/-- The host's side (R43, R266): requests issued and not yet started, first one first, and the result
of the last operation. -/
structure HostPort where
  pending : List Request
  result : OpResult
deriving DecidableEq, Repr

/-- The two oracles of R22, as far as this run's answers are given: a script is used up from its front,
and past its end the answers are the free values `Config.pinOracle` and `Config.deviceOracle` at the
count (log entry 4). -/
structure Oracles where
  pinScript : List PinAnswer
  pinCount : Nat
  sampleScript : List Byte
  sampleCount : Nat
deriving DecidableEq, Repr

/-- Device memory: the bytes known to be there, addresses strictly rising (log entry 21). -/
abbrev Memory := List Host.Cell

/-- The reference device (20_memory.md R72). -/
structure RefDevice where
  ac : BitVec 7
  region : Region
  ddram : Memory
  cgram : Memory
  inc : Bool
deriving DecidableEq, Repr

/-! ### The machine -/

/-- One state of a run. `cache`, `canvas`, `bus`, `lines` and `fault` are the block's own state
(R34); the rest is what R43 calls parameters, inputs and outputs. `dev = none` says that the reference
device has met something it does not model, so that nothing is claimed of it any more (R77; log entry 20). -/
structure State where
  cfg : Config
  cache : Cache
  canvas : Canvas
  bus : Bus
  lines : Lines
  fault : Option HwErr
  host : HostPort
  trace : List Event
  env : Oracles
  dev : Option RefDevice
deriving DecidableEq, Repr

/-- Why the machine stops: states the spec says are not reachable (93_implementation_defined.md row 33,
treatment `stuck`). An error of R250 is no fault here, it is the operation's result. -/
inductive Fault where
  /-- CACHE_RESOLVE or CACHE_IMAGE with `cache.n > 8`, an illegal register value (10_state.md R47, R48;
  log entry 18). Safe: no claim is made of such a state. -/
  | cacheCountIllegal
deriving DecidableEq, Repr

/-- Why a request has no meaning. -/
inductive Refusal where
  /-- exec's arm of an instruction that has no meaning yet. Safe. -/
  | notModelled (mnemonic : String)
  /-- every pin-touching operation while `fault` is set (60_exceptions.md R253). Safe. -/
  | stickyFault
  /-- the request at the host port does not decode (30_encoding.md R103, R105). Safe. -/
  | undecodable (why : DecodeRefusal)
  /-- an instruction that is not well formed, which no request decodes to (45_diff_updater.md R231; log entry 19). Safe. -/
  | illFormed
deriving DecidableEq, Repr

/-- How a sequence of an operation's steps ended: it completed with a value, or a step raised an error
and no further step was performed (00_scope.md R25, `raise` and `return`). -/
inductive Ran (α : Type) where
  | ok (v : α) (s : State)
  | failed (e : OpError) (s : State)
deriving DecidableEq, Repr

/-! ### Updates -/

namespace State

/-- The result the operation in progress hands to the host. -/
def withResult (s : State) (r : OpResult) : State := { s with host := { s.host with result := r } }

def withPending (s : State) (p : List Request) : State := { s with host := { s.host with pending := p } }

def withSlots (s : State) (slots : List Glyph) : State := { s with cache := { s.cache with slots := slots } }

def withCells (s : State) (cells : Cells) : State := { s with canvas := { s.canvas with cells := cells } }

def withCanvas (s : State) (c : Canvas) : State := { s with canvas := c }

def withBusDir (s : State) (d : BusDir) : State := { s with bus := { s.bus with dir := d } }

def withBusOut (s : State) (b : Byte) : State := { s with bus := { s.bus with out := b } }

def withLines (s : State) (l : Lines) : State := { s with lines := l }

def withFault (s : State) (e : Option HwErr) : State := { s with fault := e }

def withEnv (s : State) (o : Oracles) : State := { s with env := o }

def withDev (s : State) (d : Option RefDevice) : State := { s with dev := d }

/-- Appends one event to the line trace (R25). -/
def log (s : State) (e : Event) : State := { s with trace := s.trace ++ [e] }

end State

/-! ### Reset -/

/-- The device at power-on: every part of it unknown (70_reset_and_hazards.md R283). No byte of its
memories is known, and its registers are free values (log entry 9). -/
def RefDevice.powerOn : RefDevice :=
  { ac := Config.powerOnAc, region := Config.powerOnRegion, ddram := [], cgram := [], inc := Config.powerOnInc }

/-- The block's state after reset, under a configuration (10_state.md R49 to R54, 70 R280, R281). The
spec leaves `bus.out` unspecified: 0 (log entry 10). -/
def State.resetWith (cfg : Config) : State :=
  { cfg := cfg
    cache := { slots := [] }
    canvas := { cells := Vector.replicate 16 Glyph.blank, gap := cfg.initialGap }
    bus := { dir := .uninitialized, out := 0 }
    lines := { rs := none, rw := none, e := none }
    fault := none
    host := { pending := [], result := .nothing }
    trace := []
    env := { pinScript := [], pinCount := 0, sampleScript := [], sampleCount := 0 }
    dev := some RefDevice.powerOn }

/-- The machine right after reset, under the open configuration. -/
def State.reset : State := State.resetWith Config.installed

end Sys2Proof.Machine
end

