-- ==== Sys2Proof/Machine/Flags.lean ====
section
/-! DEFINITION. The block has no condition flags (10_state.md R46). These are the three status
conditions R46 says the host can see as values. -/

namespace Sys2Proof.Machine

/-- The cache's fill count, `cache.n` (10_state.md R36). -/
def fillCount (s : State) : Nat := s.cache.slots.length

/-- (a) Cache full: `cache.n = 8` (R46). -/
def cacheFull (s : State) : Bool := fillCount s == cacheSlots

/-- (b) The device's busy flag: the top bit of what an address-counter read returned (R46,
43_protocol.md R198). The block stores it nowhere and reads it nowhere. -/
def busyFlag (acRead : Byte) : Bool := acRead.getLsbD 7

/-- Bits 6..0 of what an address-counter read returned: the device's address counter (R198). -/
def acField (acRead : Byte) : BitVec 7 := acRead.extractLsb' 0 7

/-- (c) The sticky fault (R42). -/
def faulted (s : State) : Bool := s.fault.isSome

end Sys2Proof.Machine
end

