-- ==== Sys2Proof/Machine/Memory.lean ====
section
/-! DEFINITION. The reference device's two byte memories (20_memory.md R72, R75, R76). The block has no
addressed memory of its own (00_scope.md R25). A memory lists the bytes that are known; what the
device holds at power-on is not known (70_reset_and_hazards.md R283), so an unlisted address reads as
no value, and every list that reads alike is the same list (`Memory.wf`). -/

namespace Sys2Proof.Machine

/-- What an address that is not listed reads as: no known value (R283). -/
def unlistedReads : Option Byte := none

/-- The byte known to be at an address. -/
def Memory.read : Memory → Nat → Option Byte
  | [], _ => unlistedReads
  | (a, b) :: rest, x => if a = x then some b else Memory.read rest x

/-- Stores a byte, keeping the addresses strictly rising. -/
def Memory.write : Memory → Nat → Byte → Memory
  | [], x, v => [(x, v)]
  | (a, b) :: rest, x, v =>
    if x < a then (x, v) :: (a, b) :: rest
    else if x = a then (x, v) :: rest
    else (a, b) :: Memory.write rest x v

/-- The canonical form: addresses strictly rising. (An unlisted address has no value, so no entry can
equal what an unlisted address reads as.) -/
abbrev Memory.wf (m : Memory) : Prop := (m.map Prod.fst).Pairwise (· < ·)

/-- Every listed address is one of the memory's `size` addresses. -/
abbrev Memory.within (m : Memory) (size : Nat) : Prop := ∀ a ∈ m.map Prod.fst, a < size

/-- Both memories are canonical and inside their address spaces, 128 and 64 bytes (R72). -/
abbrev RefDevice.wf (d : RefDevice) : Prop :=
  d.ddram.wf ∧ d.ddram.within 128 ∧ d.cgram.wf ∧ d.cgram.within 64

/-- The address in glyph RAM that the counter stands for: `ac[5:0]` (R75). -/
def RefDevice.cgAddress (d : RefDevice) : Nat := d.ac.toNat % 64

/-- The address counter after a data access: up or down by one (R75, R76). R75 gives the modulus, 64 in glyph RAM
and 128 in display RAM, beside the increment only; that the decrement wraps at the same modulus, 0 to 63 in glyph
RAM, is DESIGN CHOICE (log entry 30). -/
def RefDevice.nextAc (d : RefDevice) : BitVec 7 :=
  let moved := if d.inc then d.ac + 1 else d.ac - 1
  match d.region with
  | .cg => moved &&& 0x3F#7
  | .dd => moved

/-- A data write (R75). -/
def RefDevice.writeData (d : RefDevice) (b : Byte) : RefDevice :=
  match d.region with
  | .cg => { d with cgram := d.cgram.write d.cgAddress b, ac := d.nextAc }
  | .dd => { d with ddram := d.ddram.write d.ac.toNat b, ac := d.nextAc }

/-- A data read: the counter moves as for a write (R76). -/
def RefDevice.readData (d : RefDevice) : RefDevice := { d with ac := d.nextAc }

/-- The byte a data read would find, where it is known (R76). The block's reads are answered by the
device oracle, not by this (R76). -/
def RefDevice.currentByte (d : RefDevice) : Option Byte :=
  match d.region with
  | .cg => d.cgram.read d.cgAddress
  | .dd => d.ddram.read d.ac.toNat

/-- The reference device's answer to an address-counter read: busy in bit 7 (R76). -/
def RefDevice.acByte (d : RefDevice) (busy : Bool) : Byte := BitVec.ofBool busy ++ d.ac

/-- One latched wire operation (R73 to R77). `none`: the reference device does not model it (R77, and
R103 for a word that selects no command). -/
def RefDevice.accept (d : RefDevice) (w : BitVec 10) : Option RefDevice :=
  match decodeWire w with
  | some (.setCgramAddr a) => some { d with region := .cg, ac := a.setWidth 7 }
  | some (.setDdramAddr a) => some { d with region := .dd, ac := a }
  | some (.entryMode direction false) => some { d with inc := direction.isRight }
  | some (.writeData b) => some (d.writeData b)
  | some .readData => some d.readData
  | some .readBfAc => some d
  | _ => none

/-- The device at a falling edge of E: it reads RS, RW and, for a write, the data lines as they stand
(R73). A level that is not known, or data lines that are not driven, leave nothing to claim of it (log
entry 28). -/
def latch (s : State) : Option RefDevice :=
  match s.dev, s.lines.rs, s.lines.rw with
  | some d, some rs, some true => d.accept (wireWord rs true 0#8)
  | some d, some rs, some false =>
    if s.bus.dir = .drivingOutput then d.accept (wireWord rs false s.bus.out) else none
  | _, _, _ => none

end Sys2Proof.Machine
end

