-- ==== Sys2Proof/Machine/Operands.lean ====
section
/-! DEFINITION. Operand forms: the effective gap policy (42_canvas.md R161), a command's byte under the
address policy (43_protocol.md R182, R188), its settle time (R183), the cell-to-device address map
(20_memory.md R62), and the register codes of 10_state.md R47 (log entry 27). -/

namespace Sys2Proof.Machine

/-- The effective gap policy (R161): the override when given, else the canvas's stored policy. -/
def effGap (s : State) (ovr : Option Gap) : Gap :=
  match ovr with
  | some p => p
  | none => s.canvas.gap

/-- Whether a command's address argument fits its field (R188). -/
def addressFits : Command → Bool
  | .setGlyphRamAddress a => a ≤ 0x3F#8
  | .setDisplayRamAddress a => a ≤ 0x7F#8
  | .clear | .returnHome | .entryMode _ _ | .onOff _ _ _ | .shift _ _ | .functionSet _ _ => true

/-- `encode(cmd)` (R182) under the address policy: `none` stands for raising `AddrRange` (R188). -/
def encodeCommand (policy : AddrPolicy) (cmd : Command) : Option Byte :=
  match policy with
  | .refuse => if addressFits cmd then some (commandByte cmd) else none
  | .mask => some (commandByte cmd)

/-- `settle(cmd)` (R183). -/
def settle (cfg : Config) : Command → Nat
  | .clear | .returnHome => cfg.tClear
  | .entryMode _ _ | .onOff _ _ _ | .shift _ _ | .functionSet _ _ | .setGlyphRamAddress _
  | .setDisplayRamAddress _ => cfg.tCmd

/-- `devaddr(i)` (R62). -/
def devaddr (i : Nat) : Nat := if i < rowCells then i else i - rowCells + 0x40

/-- The slot code of slot i (R64). -/
def slotCode (i : Nat) : Byte := BitVec.ofNat 8 i

/-- The CGRAM base address of slot i (R66). -/
def slotBase (i : Nat) : Nat := 8 * i

/-- The code of `canvas.gap` (R47). -/
def gapCode : Gap → BitVec 1
  | .skip => 0
  | .hide => 1

/-- The code of `bus.dir` (R47). -/
def busDirCode : BusDir → BitVec 2
  | .uninitialized => 0
  | .drivingOutput => 1
  | .sensingInput => 2

/-- The number of an error (R250). -/
def errorCode : OpError → Nat
  | .hwError _ => 1
  | .addrRange _ => 2

end Sys2Proof.Machine
end

