-- ==== Sys2Proof/Machine/Ops.lean ====
section
/-! DEFINITION. The named operations the meanings share: sequencing (00_scope.md R25), pin operations
and their failure (60_exceptions.md R251, R257), control lines (43_protocol.md R186), the data bus
(44_bus.md), the write and read cycles of the driver (43_protocol.md R193 to R199), ending an operation,
and reset. -/

namespace Sys2Proof.Machine

/-! ### Sequencing and ending -/

/-- Goes on with `k` where the steps so far completed, and ends with their error where one was raised. -/
def Ran.andThen {α β : Type} (r : Ran α) (k : α → State → Ran β) : Ran β :=
  match r with
  | .ok v s => k v s
  | .failed e s => .failed e s

/-- `return`: the value, or the error, becomes the operation's result (R25, R258). -/
def Ran.close {α : Type} (r : Ran α) (result : α → OpResult) : State :=
  match r with
  | .ok v s => s.withResult (result v)
  | .failed e s => s.withResult (.error e)

/-- The outcome of an operation that has run: always a next state, an error being a value (R258). -/
def finish {α : Type} (r : Ran α) (result : α → OpResult) : Host.Outcome State Fault Refusal :=
  .next (r.close result)

/-- The outcome of an operation that cannot fail (R252). -/
def done (s : State) (r : OpResult) : Host.Outcome State Fault Refusal := .next (s.withResult r)

/-- The first check of every pin-touching operation: refused while `fault` is set (R190, R253). -/
def unlessFaulted (s : State) (run : Host.Outcome State Fault Refusal) : Host.Outcome State Fault Refusal :=
  if faulted s then .refused .stickyFault else run

/-! ### Raising an error: the block's only exception (R250, R251, R257) -/

/-- Raising `HwError e`: the operation ends, `fault` records the payload; nothing else is saved, no mode
changes and no vector is taken (R251, R257). -/
def raiseHwError {α : Type} (e : HwErr) (s : State) : Ran α := .failed (.hwError e) (s.withFault (some e))

/-- Raising `AddrRange cmd`: the operation ends before any pin operation and changes no state, `fault`
included (R188, R256). -/
def raiseAddrRange {α : Type} (cmd : Command) (s : State) : Ran α := .failed (.addrRange cmd) s

/-! ### The oracles (R22) -/

/-- The answer to the pin operation `k` places ahead. -/
def pinAnswerAt (s : State) (k : Nat) : PinAnswer :=
  match s.env.pinScript[k]? with
  | some a => a
  | none => Config.pinOracle (s.env.pinCount + k)

/-- The byte of the sample `k` places ahead. -/
def sampleAt (s : State) (k : Nat) : Byte :=
  match s.env.sampleScript[k]? with
  | some b => b
  | none => Config.deviceOracle (s.env.sampleCount + k)

/-- The pin oracle has answered one operation. -/
def takePin (s : State) : State :=
  s.withEnv { s.env with pinScript := s.env.pinScript.tail, pinCount := s.env.pinCount + 1 }

/-- The device oracle has answered one sample. -/
def takeSample (s : State) : State :=
  s.withEnv { s.env with sampleScript := s.env.sampleScript.tail, sampleCount := s.env.sampleCount + 1 }

/-! ### Pin operations and delays (R25, R185) -/

/-- `Pin(op)`: its event is appended to the trace, the pin oracle answers, and `Err e` raises. -/
def pin (ev : Event) (s : State) : Ran Unit :=
  match pinAnswerAt s 0 with
  | .ok => .ok () ((takePin s).log ev)
  | .err e => raiseHwError e ((takePin s).log ev)

/-- `Delay(n)`: one event, and it never fails (R297; log entry 22). -/
def delay (n : Nat) (s : State) : Ran Unit := .ok () (s.log (.delay n))

/-- The level of a control line, replaced. -/
def Lines.set (ls : Lines) (l : ControlLine) (v : Option Bool) : Lines :=
  match l with
  | .rs => { ls with rs := v }
  | .rw => { ls with rw := v }
  | .e => { ls with e := v }

/-- What the device does at a change of line `l` to `v`: it latches at a falling edge of E (20_memory.md
R73). Where the level of E before a fall is not known, neither is what the device did (log entry 28). -/
def deviceSees (s : State) (l : ControlLine) (v : Bool) : Option RefDevice :=
  match l, v, s.lines.e with
  | .e, false, some true => latch s
  | .e, false, none => none
  | _, _, _ => s.dev

/-- What a failed change of line `l` leaves of the device: a failed change of E may or may not have been
an edge (45_diff_updater.md R239, log entry 11). -/
def deviceAfterFailedLine (s : State) (l : ControlLine) : Option RefDevice :=
  match l with
  | .e => none
  | .rs | .rw => s.dev

/-- `SetLine(l, v)` (R186): performed even when the line stands at `v`; on failure the level is unknown. -/
def setLine (l : ControlLine) (v : Bool) (s : State) : Ran Unit :=
  match pin (.line l v) s with
  | .ok _ s' => .ok () ((s'.withDev (deviceSees s' l v)).withLines (s'.lines.set l (some v)))
  | .failed e s' => .failed e ((s'.withDev (deviceAfterFailedLine s' l)).withLines (s'.lines.set l none))

/-! ### The data bus (44_bus.md R210 to R217) -/

/-- The direction a `Dir` event leaves the bus in (R210). -/
def DataDir.busDir : DataDir → BusDir
  | .out => .drivingOutput
  | .sense => .sensingInput

/-- Switches all eight lines together, and only when the direction differs (R211, R214). After a failed
`Dir` the direction is a free value (R215; log entry 15). -/
def turnBus (d : DataDir) (s : State) : Ran Unit :=
  if s.bus.dir = d.busDir then .ok () s
  else
    match pin (.dir d) s with
    | .ok _ s' => .ok () (s'.withBusDir d.busDir)
    | .failed e s' => .failed e (s'.withBusDir (Config.dirAfterFailure s.env.pinCount))

/-- `Pin(Drive(b))` and `bus.out <- b` (R212). After a failed `Drive` the levels are free values
(R296; log entry 16). -/
def driveBus (b : Byte) (s : State) : Ran Unit :=
  match pin (.drive b) s with
  | .ok _ s' => .ok () (s'.withBusOut b)
  | .failed e s' => .failed e (s'.withBusOut (Config.outAfterFailure s.env.pinCount))

/-- `Sample()`: the device oracle answers, and the sensing itself is a pin operation (R213, R264;
log entry 17). -/
def sampleBus (s : State) : Ran Byte :=
  match pin (.sample (sampleAt s 0)) (takeSample s) with
  | .ok _ s' => .ok (sampleAt s 0) s'
  | .failed e s' => .failed e s'

/-- The steps of BUS_WRITE after its check (R212). -/
def busPut (b : Byte) (s : State) : Ran Unit := (turnBus .out s).andThen fun _ s => driveBus b s

/-- The steps of BUS_READ after its check (R213). -/
def busGet (s : State) : Ran Byte := (turnBus .sense s).andThen fun _ s => sampleBus s

/-! ### The driver's cycles (43_protocol.md R193 to R199) -/

/-- Select a register and a direction (R192). -/
def selectLines (rs rw : Bool) (s : State) : Ran Unit :=
  (setLine .rs rs s).andThen fun _ s => setLine .rw rw s

/-- The enable pulse: high, then low, with nothing between (R187). -/
def pulse (s : State) : Ran Unit := (setLine .e true s).andThen fun _ s => setLine .e false s

/-- The write cycle of DRV_EXEC and DRV_WRITE: select, place the byte, pulse, wait (R193, R195). -/
def writeCycle (rs : Bool) (b : Byte) (wait : Nat) (s : State) : Ran Unit :=
  (selectLines rs false s).andThen fun _ s =>
  (busPut b s).andThen fun _ s =>
  (pulse s).andThen fun _ s =>
  delay wait s

/-- The dummy zero write of DRV_READ_AC, at the one of its two positions the configuration names (R197,
R295). -/
def dummyWrite (here : DummyPosition) (s : State) : Ran Unit :=
  if s.cfg.dummy = here then busPut 0#8 s else .ok () s

/-- From a capture with E high to the end of a read: lower E, wait, hand over the byte (R197, R199). -/
def captureByte (wait : Nat) (s : State) : Ran Byte :=
  (busGet s).andThen fun v s =>
  (setLine .e false s).andThen fun _ s =>
  (delay wait s).andThen fun _ s => .ok v s

/-- The read cycle of DRV_READ: select, raise E, capture (R199). -/
def readCycle (s : State) : Ran Byte :=
  (selectLines true true s).andThen fun _ s =>
  (setLine .e true s).andThen fun _ s =>
  captureByte s.cfg.tData s

/-- The read cycle of DRV_READ_AC (R197). -/
def readAcCycle (s : State) : Ran Byte :=
  (selectLines false true s).andThen fun _ s =>
  (dummyWrite .beforeEnable s).andThen fun _ s =>
  (setLine .e true s).andThen fun _ s =>
  (dummyWrite .afterEnable s).andThen fun _ s =>
  captureByte s.cfg.tAc s

/-- The steps of DRV_EXEC after its check (R193). -/
def commandCycle (cmd : Command) (s : State) : Ran Unit :=
  match encodeCommand s.cfg.addrPolicy cmd with
  | none => raiseAddrRange cmd s
  | some b => writeCycle false b (settle s.cfg cmd) s

/-- The steps of DRV_WRITE after its check (R195). -/
def dataCycle (b : Byte) (s : State) : Ran Unit := writeCycle true b s.cfg.tData s

/-! ### Whole driver operations: the check, then the cycle -/

/-- DRV_EXEC (R193). -/
def driverExec (cmd : Command) (s : State) : Host.Outcome State Fault Refusal :=
  unlessFaulted s (finish (commandCycle cmd s) fun _ => .unit)

/-- DRV_WRITE (R195). -/
def driverWrite (b : Byte) (s : State) : Host.Outcome State Fault Refusal :=
  unlessFaulted s (finish (dataCycle b s) fun _ => .unit)

/-- DRV_READ_AC (R197). -/
def driverReadAc (s : State) : Host.Outcome State Fault Refusal :=
  unlessFaulted s (finish (readAcCycle s) .byte)

/-- DRV_READ (R199). -/
def driverRead (s : State) : Host.Outcome State Fault Refusal :=
  unlessFaulted s (finish (readCycle s) .byte)

/-! ### The host port and reset -/

/-- The next request the host has issued, and the state in which it is under way (R26, R78). -/
def fetch (s : State) : Option (Request × State) :=
  match s.host.pending with
  | [] => none
  | r :: rest => some (r, s.withPending rest)

/-- Constructing the block anew in the middle of a history (R280): the block's state takes its reset
values; the device, the oracles, the trace and the host's requests are not the block's and stay. No
request does this: a run starts at reset (log entry 12). -/
def rebuild (s : State) : State :=
  { State.resetWith s.cfg with trace := s.trace, env := s.env, dev := s.dev,
                               host := { pending := s.host.pending, result := .nothing } }

end Sys2Proof.Machine
end

