-- ==== Sys2Proof/Machine/BusDriver.lean ====
section
/-! DEFINITION. The bus operations a host issues (44_bus.md R212, R213). They carry no delay (R216). -/

namespace Sys2Proof.Machine

/-- BUS_WRITE (R212). -/
def execBusWrite (b : Byte) (s : State) : Host.Outcome State Fault Refusal :=
  unlessFaulted s (finish (busPut b s) fun _ => .unit)

/-- BUS_READ (R213). -/
def execBusRead (s : State) : Host.Outcome State Fault Refusal :=
  unlessFaulted s (finish (busGet s) .byte)

end Sys2Proof.Machine
end

