-- ==== Sys2Proof/Machine/GlyphRom.lean ====
section
/-! DEFINITION. Glyph and glyph ROM operations (40_glyph_rom.md R120 to R125). None touches a pin, none
can fail, none changes any state but the result handed to the host. -/

namespace Sys2Proof.Machine

/-- GLYPH_RENDER's value (R120). -/
def renderGlyph (font : FontTable) (c : Char) : Glyph :=
  match font.entries.lookup c with
  | some g => g
  | none => Glyph.blank

/-- GLYPH_EQ's value: a full 8-bit compare of each row (R122). -/
def glyphEq (g1 g2 : Glyph) : Bool := (g1.toList.zip g2.toList).all fun p => p.1 == p.2

/-- The number of 1 bits of a byte (R23). -/
def popcount (b : Byte) : Nat := (List.range 8).countP fun k => b.getLsbD k

/-- GLYPH_DISTANCE's value: differing bits among the 5 visible pixels of each row (R123). -/
def glyphDistance (g1 g2 : Glyph) : Nat :=
  ((g1.toList.zip g2.toList).map fun p => popcount ((p.1 ^^^ p.2) &&& 0x1F#8)).sum

/-- ROM_SEARCH's value (R125). -/
def romSearch (rom : RomTable) (g : Glyph) : Option Byte :=
  (rom.entries.find? fun e => glyphEq e.1 g).map Prod.snd

/-- `BLANK_ADDR = ROM(BLANK)` (R15). A legal ROM maps the blank glyph, so the default never shows. -/
def blankAddr (rom : RomTable) : Byte := (romSearch rom Glyph.blank).getD 0

/-- The 64-bit form of a glyph: row r in bits `[8r+7:8r]` (10_state.md R47, 41_glyph_cache.md R150). -/
def glyphTag (g : Glyph) : BitVec 64 :=
  g.toList.foldr (fun row acc => (acc <<< 8) ||| row.setWidth 64) 0

/-- GLYPH_RENDER (R120). -/
def execGlyphRender (c : Char) (s : State) : Host.Outcome State Fault Refusal :=
  done s (.glyph (renderGlyph s.cfg.font c))

/-- GLYPH_EQ (R122). -/
def execGlyphEq (g1 g2 : Glyph) (s : State) : Host.Outcome State Fault Refusal :=
  done s (.bool (glyphEq g1 g2))

/-- GLYPH_DISTANCE (R123). -/
def execGlyphDistance (g1 g2 : Glyph) (s : State) : Host.Outcome State Fault Refusal :=
  done s (.number (glyphDistance g1 g2))

/-- ROM_SEARCH (R125). -/
def execRomSearch (g : Glyph) (s : State) : Host.Outcome State Fault Refusal :=
  done s (.address (romSearch s.cfg.rom g))

end Sys2Proof.Machine
end

