-- ==== Sys2Proof/Machine/GlyphCache.lean ====
section
/-! DEFINITION. The glyph cache (41_glyph_cache.md R140 to R150): a content-addressable store of at most
8 glyphs, filled in allocation order, flushed as a whole, falling back to the blank glyph when full. -/

namespace Sys2Proof.Machine

/-- CACHE_RESOLVE on the slots: the address, and the slots afterwards (R142, steps 1 to 4). -/
def resolve (rom : RomTable) (slots : List Glyph) (g : Glyph) : Byte × List Glyph :=
  match romSearch rom g with
  | some a => (a, slots)
  | none =>
    match slots.findIdx? (fun h => glyphEq h g) with
    | some i => (slotCode i, slots)
    | none =>
      if slots.length < cacheSlots then (slotCode slots.length, slots ++ [g])
      else (blankAddr rom, slots)

/-- CACHE_IMAGE's value: the slots flattened in slot order (R146). -/
def flattenSlots (slots : List Glyph) : List Byte := slots.flatMap fun g => g.toList

/-- An operation that reads the fill count, which has no meaning at an illegal count (10_state.md R47,
93_implementation_defined.md row 33: stuck). -/
def ifCountLegal (s : State) (run : Host.Outcome State Fault Refusal) : Host.Outcome State Fault Refusal :=
  if fillCount s ≤ cacheSlots then run else .fault .cacheCountIllegal

/-- CACHE_FLUSH (R140). -/
def execCacheFlush (s : State) : Host.Outcome State Fault Refusal := done (s.withSlots []) .unit

/-- CACHE_RESOLVE (R142). -/
def execCacheResolve (g : Glyph) (s : State) : Host.Outcome State Fault Refusal :=
  ifCountLegal s
    (done (s.withSlots (resolve s.cfg.rom s.cache.slots g).2) (.byte (resolve s.cfg.rom s.cache.slots g).1))

/-- CACHE_IMAGE (R146). -/
def execCacheImage (s : State) : Host.Outcome State Fault Refusal :=
  ifCountLegal s (done s (.bytes (flattenSlots s.cache.slots)))

end Sys2Proof.Machine
end

