-- ==== Sys2Proof/Machine/CanvasOps.lean ====
section
/-! DEFINITION. The canvas (42_canvas.md R160 to R172): construction, text write, the circular one-pixel
left shift, and render to the DDRAM and CGRAM images. -/

namespace Sys2Proof.Machine

/-- The mask of a shifted row: 5 bits under `Skip`, 6 under `Hide` (R166). -/
def rowMask : Gap → Byte
  | .skip => 0x1F#8
  | .hide => 0x3F#8

/-- The bit carried into the previous cell, `cb` (R166). -/
def carryBit (reading : CarryReading) (p : Gap) : Nat :=
  match reading, p with
  | .fixedHiddenBit, _ => 5
  | .widthBit, .skip => 4
  | .widthBit, .hide => 5

/-- One row: shifted left under the mask, with the next cell's carry entering bit 0 (R166). -/
def shiftRow (reading : CarryReading) (p : Gap) (row next : Byte) : Byte :=
  ((row <<< 1) &&& rowMask p) ||| ((next >>> carryBit reading p) &&& 1#8)

/-- One cell, from the old cell and the old cell after it (R166). -/
def shiftCell (reading : CarryReading) (p : Gap) (cell next : Glyph) : Glyph :=
  Vector.ofFn fun r => shiftRow reading p cell[r] next[r]

/-- CANVAS_SHIFT_LEFT on the cells: every carry reads the old canvas, and cell 15 takes its carry from
cell 0 (R166, R169). -/
def shiftCells (reading : CarryReading) (p : Gap) (old : Cells) : Cells :=
  Vector.ofFn fun c : Fin 16 => shiftCell reading p old[c] old[c + 1]

/-- CANVAS_WRITE's loop from running count `k` (R162): under `Skip`, a shift of the whole canvas before
each character (R163). -/
def writeCells (cfg : Config) (p : Gap) : Nat → List Char → Cells → Cells
  | _, [], cells => cells
  | k, c :: rest, cells =>
    let opened := match p with
      | .skip => shiftCells cfg.carry .skip cells
      | .hide => cells
    writeCells cfg p (k + 1) rest
      (opened.set (k % 16) (renderGlyph cfg.font c) (Nat.mod_lt k (by decide)))

/-- The cells of a render pass resolved in order (R170): their addresses, and the slots afterwards. -/
def resolveAll (rom : RomTable) : List Glyph → List Glyph → List Byte × List Glyph
  | slots, [] => ([], slots)
  | slots, g :: rest =>
    ((resolve rom slots g).1 :: (resolveAll rom (resolve rom slots g).2 rest).1,
     (resolveAll rom (resolve rom slots g).2 rest).2)

/-- Every resolved glyph has an address. -/
theorem resolveAll_length (rom : RomTable) (gs : List Glyph) :
    ∀ slots, (resolveAll rom slots gs).1.length = gs.length := by
  induction gs with
  | nil => intro slots; rfl
  | cons g rest ih => intro slots; simp [resolveAll, ih]

/-- CANVAS_RENDER's DDRAM image: the cells resolved from an empty cache (R170). -/
def renderImage (rom : RomTable) (cells : Cells) : Image :=
  ⟨(resolveAll rom [] cells.toList).1.toArray, by simp [resolveAll_length]⟩

/-- The slots CANVAS_RENDER leaves (R170). -/
def renderSlots (rom : RomTable) (cells : Cells) : List Glyph := (resolveAll rom [] cells.toList).2

/-- CANVAS_INIT (R160). -/
def execCanvasInit (gap : Gap) (s : State) : Host.Outcome State Fault Refusal :=
  done (s.withCanvas { cells := Vector.replicate 16 Glyph.blank, gap := gap }) .unit

/-- CANVAS_WRITE (R162): the running count starts at 0 (R164). -/
def execCanvasWrite (text : List Char) (ovr : Option Gap) (s : State) : Host.Outcome State Fault Refusal :=
  done (s.withCells (writeCells s.cfg (effGap s ovr) 0 text s.canvas.cells)) .unit

/-- CANVAS_SHIFT_LEFT (R166). -/
def execCanvasShiftLeft (ovr : Option Gap) (s : State) : Host.Outcome State Fault Refusal :=
  done (s.withCells (shiftCells s.cfg.carry (effGap s ovr) s.canvas.cells)) .unit

/-- CANVAS_RENDER (R170). -/
def execCanvasRender (s : State) : Host.Outcome State Fault Refusal :=
  done (s.withSlots (renderSlots s.cfg.rom s.canvas.cells))
    (.images (renderImage s.cfg.rom s.canvas.cells) (flattenSlots (renderSlots s.cfg.rom s.canvas.cells)))

end Sys2Proof.Machine
end

