-- ==== Sys2Proof/Machine/Diff.lean ====
section
/-! DEFINITION. The diff updater (45_diff_updater.md R230 to R239), and the pseudo-operation UPDATE
(30_encoding.md R107). -/

namespace Sys2Proof.Machine

/-- `changedCG` (R232): no previous image, or none that long, or a different byte. -/
def changedCG (prev : Option (List Byte)) (j : Nat) (b : Byte) : Bool :=
  match prev with
  | none => true
  | some p => p[j]? != some b

/-- `changedDD` (R232): no previous image, or a different byte. -/
def changedDD (prev : Option Image) (i : Nat) (b : Byte) : Bool :=
  match prev with
  | none => true
  | some p => p[i]? != some b

/-- One phase of DIFF_COMPUTE (R231) over the changed bytes with their device addresses in order: an
address-set unless the last write landed just below, then the write. `last` is the address of the last
write of this phase. -/
def phaseOps (setAddress : Byte → DiffOp) : Option Nat → List (Nat × Byte) → List DiffOp
  | _, [] => []
  | last, (a, b) :: rest =>
    let writes := .write b :: phaseOps setAddress (some a) rest
    if last.map (· + 1) = some a then writes else setAddress (BitVec.ofNat 8 a) :: writes

/-- The changed bytes of the CGRAM image, by rising address (R231, R66). -/
def cgChanges (prev : Option (List Byte)) (new : List Byte) : List (Nat × Byte) :=
  ((List.range new.length).zip new).filter fun e => changedCG prev e.1 e.2

/-- The changed bytes of the DDRAM image at their device addresses, by rising cell index (R231, R62). -/
def ddChanges (prev : Option Image) (new : Image) : List (Nat × Byte) :=
  (((List.range cellCount).zip new.toList).filter fun e => changedDD prev e.1 e.2).map
    fun e => (devaddr e.1, e.2)

/-- DIFF_COMPUTE's value (R231): glyph RAM first, then display RAM. -/
def diffOps (prevDD : Option Image) (prevCG : Option (List Byte)) (newDD : Image) (newCG : List Byte) :
    List DiffOp :=
  phaseOps .setCG none (cgChanges prevCG newCG) ++ phaseOps .setDD none (ddChanges prevDD newDD)

/-- One item through the driver (R234). -/
def applyItem (item : DiffOp) (s : State) : Ran Unit :=
  match item with
  | .setCG a => commandCycle (.setGlyphRamAddress a) s
  | .setDD a => commandCycle (.setDisplayRamAddress a) s
  | .write b => dataCycle b s

/-- The items in list order, up to the first error (R234). -/
def applyOps : List DiffOp → State → Ran Unit
  | [], s => .ok () s
  | item :: rest, s => (applyItem item s).andThen fun _ s => applyOps rest s

/-- DIFF_COMPUTE (R231). More than 64 bytes of new CGRAM image are outside its operands. -/
def execDiffCompute (prevDD : Option Image) (prevCG : Option (List Byte)) (newDD : Image) (newCG : List Byte)
    (s : State) : Host.Outcome State Fault Refusal :=
  if newCG.length ≤ cgramBytes then done s (.opList (diffOps prevDD prevCG newDD newCG))
  else .refused .illFormed

/-- DIFF_APPLY (R234): an empty list performs no pin operation and completes even while `fault` is set; a
list with an item is refused at its first one then (R253). -/
def execDiffApply (ops : List DiffOp) (s : State) : Host.Outcome State Fault Refusal :=
  match ops with
  | [] => done s .unit
  | item :: rest => unlessFaulted s (finish (applyOps (item :: rest) s) fun _ => .unit)

/-- UPDATE (R107): render, compute against the previous images, apply. It hands over the images; the
result of DIFF_APPLY stands in the state. A spelling of three operations, not an instruction. -/
def update (prevDD : Option Image) (prevCG : Option (List Byte)) (s : State) :
    Host.Outcome (State × Image × List Byte) Fault Refusal :=
  let dd := renderImage s.cfg.rom s.canvas.cells
  let cg := flattenSlots (renderSlots s.cfg.rom s.canvas.cells)
  match execCanvasRender s with
  | .next s1 =>
    match execDiffCompute prevDD prevCG dd cg s1 with
    | .next s2 =>
      match execDiffApply (diffOps prevDD prevCG dd cg) s2 with
      | .next s3 => .next (s3, dd, cg)
      | .fault f => .fault f
      | .refused r => .refused r
    | .fault f => .fault f
    | .refused r => .refused r
  | .fault f => .fault f
  | .refused r => .refused r

end Sys2Proof.Machine
end

