-- ==== Sys2Proof/Machine/Driver.lean ====
section
/-! DEFINITION. The driver operations a host issues (43_protocol.md R193 to R199). -/

namespace Sys2Proof.Machine

/-- DRV_EXEC (R193). -/
def execDrvExec (cmd : Command) (s : State) : Host.Outcome State Fault Refusal := driverExec cmd s

/-- DRV_WRITE (R195). -/
def execDrvWrite (b : Byte) (s : State) : Host.Outcome State Fault Refusal := driverWrite b s

/-- DRV_READ_AC (R197). -/
def execDrvReadAc (s : State) : Host.Outcome State Fault Refusal := driverReadAc s

/-- DRV_READ (R199). -/
def execDrvRead (s : State) : Host.Outcome State Fault Refusal := driverRead s

end Sys2Proof.Machine
end

