-- ==== Sys2Proof/Machine/Wire.lean ====
section
/-! DEFINITION. The wire operations of the opcode table (43_protocol.md R200 to R207; R195, R197, R199).
Each is the driver operation that places it on the lines: for a command, the instance of DRV_EXEC its
rule names (log entry 2). What the device does with it is the reference device's part (20_memory.md R73
to R77), which the falling edge of E brings about (`deviceSees`). -/

namespace Sys2Proof.Machine

/-- CLEAR (R200). -/
def execClear (s : State) : Host.Outcome State Fault Refusal := driverExec .clear s

/-- RETURN_HOME (R201). -/
def execReturnHome (s : State) : Host.Outcome State Fault Refusal := driverExec .returnHome s

/-- ENTRY_MODE (R202). -/
def execEntryMode (direction : Dir) (displayShift : Bool) (s : State) : Host.Outcome State Fault Refusal :=
  driverExec (.entryMode direction displayShift) s

/-- ON_OFF (R203). -/
def execOnOff (display cursor blink : Bool) (s : State) : Host.Outcome State Fault Refusal :=
  driverExec (.onOff display cursor blink) s

/-- SHIFT (R204). -/
def execShift (target : ShiftTarget) (direction : Dir) (s : State) : Host.Outcome State Fault Refusal :=
  driverExec (.shift target direction) s

/-- FUNCTION_SET (R205). -/
def execFunctionSet (lines : LineCount) (font : FontSize) (s : State) : Host.Outcome State Fault Refusal :=
  driverExec (.functionSet lines font) s

/-- SET_CGRAM_ADDR (R206). A 6-bit address always fits its field. -/
def execSetCgramAddr (a : BitVec 6) (s : State) : Host.Outcome State Fault Refusal :=
  driverExec (.setGlyphRamAddress (a.setWidth 8)) s

/-- SET_DDRAM_ADDR (R207). A 7-bit address always fits its field. -/
def execSetDdramAddr (a : BitVec 7) (s : State) : Host.Outcome State Fault Refusal :=
  driverExec (.setDisplayRamAddress (a.setWidth 8)) s

/-- READ_BF_AC: the wire operation of DRV_READ_AC (R91, R197). -/
def execReadBfAc (s : State) : Host.Outcome State Fault Refusal := driverReadAc s

/-- WRITE_DATA: the wire operation of DRV_WRITE (R91, R195). -/
def execWriteData (b : Byte) (s : State) : Host.Outcome State Fault Refusal := driverWrite b s

/-- READ_DATA: the wire operation of DRV_READ (R91, R199). -/
def execReadData (s : State) : Host.Outcome State Fault Refusal := driverRead s

end Sys2Proof.Machine
end

