-- ==== Sys2Proof/Machine/Dispatch.lean ====
section
/-! DEFINITION. exec: one arm per constructor of Instr, one direct call of its meaning. -/

namespace Sys2Proof.Machine

def exec (i : Instr) (s : State) : Host.Outcome State Fault Refusal :=
  match i with
  | .glyphRender c => Sys2Proof.Machine.execGlyphRender c s
  | .glyphEq g1 g2 => Sys2Proof.Machine.execGlyphEq g1 g2 s
  | .glyphDistance g1 g2 => Sys2Proof.Machine.execGlyphDistance g1 g2 s
  | .romSearch g => Sys2Proof.Machine.execRomSearch g s
  | .cacheFlush => Sys2Proof.Machine.execCacheFlush s
  | .cacheResolve g => Sys2Proof.Machine.execCacheResolve g s
  | .cacheImage => Sys2Proof.Machine.execCacheImage s
  | .canvasInit gap => Sys2Proof.Machine.execCanvasInit gap s
  | .canvasWrite text ovr => Sys2Proof.Machine.execCanvasWrite text ovr s
  | .canvasShiftLeft ovr => Sys2Proof.Machine.execCanvasShiftLeft ovr s
  | .canvasRender => Sys2Proof.Machine.execCanvasRender s
  | .drvExec cmd => Sys2Proof.Machine.execDrvExec cmd s
  | .drvWrite b => Sys2Proof.Machine.execDrvWrite b s
  | .drvReadAc => Sys2Proof.Machine.execDrvReadAc s
  | .drvRead => Sys2Proof.Machine.execDrvRead s
  | .busWrite b => Sys2Proof.Machine.execBusWrite b s
  | .busRead => Sys2Proof.Machine.execBusRead s
  | .diffCompute prevDD prevCG newDD newCG => Sys2Proof.Machine.execDiffCompute prevDD prevCG newDD newCG s
  | .diffApply ops => Sys2Proof.Machine.execDiffApply ops s
  | .clear => Sys2Proof.Machine.execClear s
  | .returnHome => Sys2Proof.Machine.execReturnHome s
  | .entryMode direction displayShift => Sys2Proof.Machine.execEntryMode direction displayShift s
  | .onOff display cursor blink => Sys2Proof.Machine.execOnOff display cursor blink s
  | .shift target direction => Sys2Proof.Machine.execShift target direction s
  | .functionSet lines font => Sys2Proof.Machine.execFunctionSet lines font s
  | .setCgramAddr a => Sys2Proof.Machine.execSetCgramAddr a s
  | .setDdramAddr a => Sys2Proof.Machine.execSetDdramAddr a s
  | .readBfAc => Sys2Proof.Machine.execReadBfAc s
  | .writeData b => Sys2Proof.Machine.execWriteData b s
  | .readData => Sys2Proof.Machine.execReadData s

end Sys2Proof.Machine
end

