-- ==== Sys2Proof/Machine/Step.lean ====
section
/-! DEFINITION. One step: the block takes the host's next request and runs it to its end (00_scope.md R26,
20_memory.md R78). With no request pending the block waits, unchanged (log entry 13). -/

namespace Sys2Proof.Machine

/-- One step of the machine. -/
def step (s : State) : Host.Outcome State Fault Refusal :=
  match fetch s with
  | none => .next s
  | some (r, s') =>
    match decode r with
    | .error why => .refused (.undecodable why)
    | .ok i => exec i s'

/-- The state in which the host has issued, before anything else, the instruction of a word of the opcode
table (log entry 8). -/
def State.withFetchWord (s : State) (nbits w : Nat) : State :=
  s.withPending (requestOfWord nbits w :: s.host.pending)

end Sys2Proof.Machine
end

