-- ==== Sys2Proof/Safety.lean ====
section
/-! DEFINITION. The terms claims are stated in: when pin operations succeed, the invariant of a legal
state, what a render pass should give, what a row of the canvas is as one string, what the device shows,
sums of delays, and the host's duties of 70_reset_and_hazards.md R285 to R287. -/

namespace Sys2Proof.Machine

/-! ### The pin provider -/

/-- The next `n` pin operations are answered `Ok`. -/
abbrev pinsOk (s : State) (n : Nat) : Prop := ∀ k, k < n → pinAnswerAt s k = .ok

/-- The next `n` pin operations are answered `Ok`, and the one after them `Err e`. -/
abbrev pinFailsAt (s : State) (n : Nat) (e : HwErr) : Prop := pinsOk s n ∧ pinAnswerAt s n = .err e

/-- What a pin-touching operation leaves alone: the configuration, the cache, the canvas and the host's
requests. -/
abbrev keepsBlock (s t : State) : Prop :=
  t.cfg = s.cfg ∧ t.cache = s.cache ∧ t.canvas = s.canvas ∧ t.host.pending = s.host.pending

/-- The two device memories, where the device is claimed before and after, hold the same bytes. -/
abbrev keepsDeviceMemory (s t : State) : Prop :=
  ∀ d d', s.dev = some d → t.dev = some d' →
    ∀ a, d'.ddram.read a = d.ddram.read a ∧ d'.cgram.read a = d.cgram.read a

/-- The `Dir` event BUS_WRITE or BUS_READ emits, none when the bus already has the direction (44_bus.md
R210). -/
def turnEvents (now : BusDir) (wanted : DataDir) : List Event :=
  if now = wanted.busDir then [] else [Event.dir wanted]

/-- The pin events of a write cycle, by the select level and the direction of the bus (43_protocol.md R193,
R195). -/
def writePins (rs : Bool) (now : BusDir) (b : Byte) : List Event :=
  [Event.line .rs rs, .line .rw false] ++ turnEvents now .out ++ [Event.drive b, .line .e true, .line .e false]

/-- The pin events of DRV_READ (R199). -/
def readPins (now : BusDir) (v : Byte) : List Event :=
  [Event.line .rs true, .line .rw true, .line .e true] ++ turnEvents now .sense ++ [Event.sample v, .line .e false]

/-- The pin events of DRV_READ_AC, at either position of the dummy write (R197). -/
def readAcPins (dummy : DummyPosition) (now : BusDir) (v : Byte) : List Event :=
  let dummyWrite := turnEvents now .out ++ [Event.drive 0x00#8]
  let around : List Event :=
    match dummy with
    | .beforeEnable => dummyWrite ++ [Event.line .e true]
    | .afterEnable => .line .e true :: dummyWrite
  [Event.line .rs false, .line .rw true] ++ around ++ [Event.dir .sense, .sample v, .line .e false]

/-- The control lines after events that were all answered `Ok` (43_protocol.md R186). -/
def linesAfter : Lines → List Event → Lines
  | now, [] => now
  | now, .line l v :: rest => linesAfter (now.set l (some v)) rest
  | now, .dir _ :: rest | now, .drive _ :: rest | now, .sample _ :: rest | now, .delay _ :: rest => linesAfter now rest

/-- The bus after events that were all answered `Ok` (44_bus.md R210, R212). -/
def busAfter : Bus → List Event → Bus
  | now, [] => now
  | now, .dir d :: rest => busAfter { now with dir := d.busDir } rest
  | now, .drive b :: rest => busAfter { now with out := b } rest
  | now, .line _ _ :: rest | now, .sample _ :: rest | now, .delay _ :: rest => busAfter now rest

/-- The control lines after one more event, which failed: a line that was to change is unknown (R186). -/
def linesAfterFailed (failing : Event) (now : Lines) : Lines :=
  match failing with
  | .line l _ => now.set l none
  | .dir _ | .drive _ | .sample _ | .delay _ => now

/-- What is said of the bus after one more event, which failed: after a failed `Dir` nothing of the direction
(R215), after a failed `Drive` nothing of the levels (70_reset_and_hazards.md R296), and else that it is as it
was. -/
def busAfterFailed (failing : Event) (now next : Bus) : Prop :=
  match failing with
  | .dir _ => next.out = now.out
  | .drive _ => next.dir = now.dir
  | .line _ _ | .sample _ | .delay _ => next = now

/-- The lines and the bus of `t` are those of `s` after the events `completed` and the failed event's own effect
(60_exceptions.md R257). -/
abbrev brokenOff (s t : State) (completed : List Event) (failing : Event) : Prop :=
  t.lines = linesAfterFailed failing (linesAfter s.lines completed) ∧
  busAfterFailed failing (busAfter s.bus completed) t.bus

/-- The command an instruction executes where it is DRV_EXEC or an instance of it (43_protocol.md R193, R200 to
R207). -/
def commandOf : Instr → Option Command
  | .drvExec cmd => some cmd
  | .clear => some .clear
  | .returnHome => some .returnHome
  | .entryMode direction displayShift => some (.entryMode direction displayShift)
  | .onOff display cursor blink => some (.onOff display cursor blink)
  | .shift target direction => some (.shift target direction)
  | .functionSet lines font => some (.functionSet lines font)
  | .setCgramAddr a => some (.setGlyphRamAddress (a.setWidth 8))
  | .setDdramAddr a => some (.setDisplayRamAddress (a.setWidth 8))
  | .glyphRender _ | .glyphEq _ _ | .glyphDistance _ _ | .romSearch _ | .cacheFlush | .cacheResolve _
  | .cacheImage | .canvasInit _ | .canvasWrite _ _ | .canvasShiftLeft _ | .canvasRender | .drvWrite _
  | .drvReadAc | .drvRead | .busWrite _ | .busRead | .diffCompute _ _ _ _ | .diffApply _ | .readBfAc
  | .writeData _ | .readData => none

/-- The command byte and settle time of an operation list's item, or its data byte and T_DATA: what one item
puts on the lines from a bus with direction `now` (45_diff_updater.md R234). -/
def itemEvents (cfg : Config) (now : BusDir) : DiffOp → List Event
  | .setCG a => writePins false now (0x40#8 ||| (a &&& 0x3F#8)) ++ [Event.delay cfg.tCmd]
  | .setDD a => writePins false now (0x80#8 ||| (a &&& 0x7F#8)) ++ [Event.delay cfg.tCmd]
  | .write b => writePins true now b ++ [Event.delay cfg.tData]

/-- The trace of an operation list: only the first item can find the bus in another direction. -/
def listEvents (cfg : Config) (now : BusDir) : List DiffOp → List Event
  | [] => []
  | item :: rest => itemEvents cfg now item ++ listEvents cfg .drivingOutput rest

/-- Whether an item's address, if it has one, fits its field (43_protocol.md R188). -/
def itemFits : DiffOp → Bool
  | .setCG a => a ≤ 0x3F#8
  | .setDD a => a ≤ 0x7F#8
  | .write _ => true

/-- Every address item of a list fits its field, or the policy masks it (43_protocol.md R188). -/
abbrev itemsFit (cfg : Config) (ops : List DiffOp) : Prop :=
  cfg.addrPolicy = .mask ∨ ∀ item ∈ ops, itemFits item = true

/-! ### Legal states -/

/-- Every row of every cell is at most `bound`. -/
abbrev rowsWithin (cells : Cells) (bound : Byte) : Prop :=
  ∀ c : Fin 16, ∀ r : Fin 8, cells[c][r] ≤ bound

/-- The cache invariants of 10_state.md R37: no two slots hold equal glyphs, no slot holds a ROM glyph, at
most 8 slots. -/
abbrev cacheLegal (rom : RomTable) (slots : List Glyph) : Prop :=
  slots.Nodup ∧ (∀ g ∈ slots, romSearch rom g = none) ∧ slots.length ≤ cacheSlots

/-- What every step keeps: the cache invariants (R37), canvas rows of at most 6 bits (R47), and, where the
reference device is still claimed, canonical device memories inside their address spaces. -/
abbrev State.Inv (s : State) : Prop :=
  cacheLegal s.cfg.rom s.cache.slots ∧ rowsWithin s.canvas.cells 0x3F#8 ∧ ∀ d ∈ s.dev, d.wf

/-! ### A render pass, said without the cache (41_glyph_cache.md R144, R149) -/

/-- The distinct elements in the order of their first occurrence. -/
def firstOccurrences : List Glyph → List Glyph
  | [] => []
  | g :: rest => g :: (firstOccurrences rest).filter fun h => h != g

/-- The distinct glyphs of a pass that want a slot: those the ROM does not map, in order. -/
def wantedGlyphs (rom : RomTable) (gs : List Glyph) : List Glyph :=
  firstOccurrences (gs.filter fun g => (romSearch rom g).isNone)

/-- The address a glyph has in a pass whose glyphs are `gs`: its ROM address, or its place among the wanted
glyphs if that is one of the first 8, or the blank glyph's address. -/
def passAddress (rom : RomTable) (gs : List Glyph) (g : Glyph) : Byte :=
  match romSearch rom g with
  | some a => a
  | none =>
    if (wantedGlyphs rom gs).idxOf g < cacheSlots then slotCode ((wantedGlyphs rom gs).idxOf g)
    else blankAddr rom

/-! ### A canvas row as one string (42_canvas.md R167) -/

/-- Row `r` of the canvas, `width` bits of every cell, cell 0 first and its top bit first. -/
def rowString (width : Nat) (cells : Cells) (r : Fin 8) : List Bool :=
  cells.toList.flatMap fun g => (List.range width).map fun k => g[r].getLsbD (width - 1 - k)

/-- `n` shifts of the canvas under one policy. -/
def shiftTimes (reading : CarryReading) (p : Gap) : Nat → Cells → Cells
  | 0, cells => cells
  | n + 1, cells => shiftTimes reading p n (shiftCells reading p cells)

/-! ### The device's side (45_diff_updater.md R236) -/

/-- The device's display RAM is known to hold a DDRAM image. -/
abbrev showsDD (d : RefDevice) (dd : Image) : Prop := ∀ i : Fin 16, d.ddram.read (devaddr i) = some dd[i]

/-- The device's glyph RAM is known to hold a CGRAM image from address 0. -/
abbrev showsCG (d : RefDevice) (cg : List Byte) : Prop := ∀ j, j < cg.length → d.cgram.read j = cg[j]?

/-- A previous image is what the device holds, or is not given (R236). -/
abbrev agreesDD (d : RefDevice) : Option Image → Prop
  | none => True
  | some p => showsDD d p

/-- A previous CGRAM image is what the device holds, or is not given (R236). -/
abbrev agreesCG (d : RefDevice) : Option (List Byte) → Prop
  | none => True
  | some q => showsCG d q

/-- The region and the address a data write of the device stores to: what `RefDevice.writeData` computes
(20_memory.md R75). -/
def storesAt (d : RefDevice) : Region × Nat :=
  match d.region with
  | .cg => (.cg, d.cgAddress)
  | .dd => (.dd, d.ac.toNat)

/-- What an item of an operation list does to the device once it completes (R74, R75, R234). An address that is
wider than its field is masked to it or never sent (43_protocol.md R188). -/
def itemEffect (d : RefDevice) : DiffOp → RefDevice
  | .setCG a => { d with region := .cg, ac := a.setWidth 7 &&& 0x3F#7 }
  | .setDD a => { d with region := .dd, ac := a.setWidth 7 }
  | .write b => d.writeData b

/-- Where the writes of an operation list store, item after item. -/
def listStoresAt (d : RefDevice) : List DiffOp → List (Region × Nat)
  | [] => []
  | .write b :: rest => storesAt d :: listStoresAt (itemEffect d (.write b)) rest
  | .setCG a :: rest => listStoresAt (itemEffect d (.setCG a)) rest
  | .setDD a :: rest => listStoresAt (itemEffect d (.setDD a)) rest

/-! ### The cost of an update (45_diff_updater.md R235) -/

/-- Whether an item of an operation list is a data write. -/
def isWriteItem : DiffOp → Bool
  | .write _ => true
  | .setCG _ | .setDD _ => false

/-- The number of maximal runs of consecutive addresses in a rising list of them. -/
def runCount : List Nat → Nat
  | [] => 0
  | [_] => 1
  | a :: b :: rest => (if a + 1 = b then 0 else 1) + runCount (b :: rest)

/-! ### Time (70_reset_and_hazards.md R297) -/

/-- The sum of the `Delay` arguments of a trace, in time-units. -/
def delayTotal (evs : List Event) : Nat :=
  (evs.map fun e =>
    match e with
    | .delay n => n
    | .line _ _ | .dir _ | .drive _ | .sample _ => 0).sum

/-- The same, in the unit `TIME_UNIT` is given in (00_scope.md R17). -/
def duration (cfg : Config) (evs : List Event) : Nat := delayTotal evs * cfg.timeUnit

/-! ### The host's duties -/

/-- The boot sequence of R286, in order. -/
def bootSequence : List Instr :=
  [.drvExec (.functionSet .two .f5x8), .drvExec (.onOff true false false),
   .drvExec (.entryMode .right false), .drvExec .clear]

/-- A host program issues the boot sequence, in order, before every DIFF_APPLY (R266, R286). A host that
does not has no move in the spec's model; the block keeps no record of it (log entry 14). -/
def meetsBootDuty (program : List Instr) : Prop :=
  ∀ before ops after, program = before ++ .diffApply ops :: after → bootSequence.Sublist before

/-- A run of `k` steps that stops at no fault and no refusal. -/
def runsOn (k : Nat) (s : State) : Prop := ∃ t, Sys2Proof.core.run k s = .next t

end Sys2Proof.Machine
end

