-- ==== Sys2Proof/Certificates/Slice0/Obligations.lean ====
section
/-! DEFINITION. The statements for the provers. Each docstring names the rule of spec/ it formalises, or says
what it is derived from. Where a statement is about an instruction, its conclusion is the next state of
exec, or says where exec stops. -/

open Sys2Proof Sys2Proof.Machine

/-! ### Encoding and decoding -/

/-- Every well-formed instruction is what the decoder reads from its request: no operand is dropped. The
operand bytes of a host operation are the model's (log entry 3). -/
def Obligations.DecodeInvertsEncode : Prop :=
  ∀ i : Instr, i.wellFormed = true → decode (encode i) = .ok i

/-- A few wire words written out from R91 to R100 decode to the instruction they stand for, and the selector of
R104 does for one host operation. That its operand is one byte as it stands is the model's (log entry 3). -/
def Obligations.SpecWordsDecode : Prop :=
  decodeWire 0b0000000001#10 = some .clear ∧
  decodeWire 0b0000000110#10 = some (.entryMode .right false) ∧
  decodeWire 0b0000111000#10 = some (.functionSet .two .f5x8) ∧
  decodeWire 0b0001001000#10 = some (.setCgramAddr 0x08#6) ∧
  decodeWire 0b0011000000#10 = some (.setDdramAddr 0x40#7) ∧
  decodeWire 0b1001000001#10 = some (.writeData 0x41#8) ∧
  decode (.host 0x0C#5 [0x41#8]) = .ok (.drvWrite 0x41#8)

/-- R93 to R100: the command byte of every command, field by field. -/
def Obligations.CommandByteLayouts : Prop :=
  commandByte .clear = 0x01#8 ∧ commandByte .returnHome = 0x02#8 ∧
  (∀ d s, commandByte (.entryMode d s) =
    0b000001#6 ++ BitVec.ofBool (decide (d = .right)) ++ BitVec.ofBool s) ∧
  (∀ d c b, commandByte (.onOff d c b) =
    0b00001#5 ++ BitVec.ofBool d ++ BitVec.ofBool c ++ BitVec.ofBool b) ∧
  (∀ t d, commandByte (.shift t d) =
    0b0001#4 ++ BitVec.ofBool (decide (t = .display)) ++ BitVec.ofBool (decide (d = .right)) ++ 0b00#2) ∧
  (∀ n f, commandByte (.functionSet n f) =
    0b0011#4 ++ BitVec.ofBool (decide (n = .two)) ++ BitVec.ofBool (decide (f = .f5x11)) ++ 0b00#2) ∧
  (∀ a : Byte, a ≤ 0x3F#8 → commandByte (.setGlyphRamAddress a) = 0x40#8 ||| a) ∧
  (∀ a : Byte, a ≤ 0x7F#8 → commandByte (.setDisplayRamAddress a) = 0x80#8 ||| a)

/-- R92: a command byte is decoded by the position of its highest set bit, and `0x00` selects no command. -/
def Obligations.HighestSetBitSelectsCommand : Prop :=
  decodeCommand 0x00#8 = none ∧ decodeCommand 0x01#8 = some .clear ∧
  ∀ b : Byte,
    (0x80#8 ≤ b → decodeCommand b = some (.setDdramAddr (b.extractLsb' 0 7))) ∧
    (0x40#8 ≤ b → b < 0x80#8 → decodeCommand b = some (.setCgramAddr (b.extractLsb' 0 6))) ∧
    (0x20#8 ≤ b → b < 0x40#8 → ∃ n f, decodeCommand b = some (.functionSet n f) ∧
      (n = .two ↔ b.getLsbD 3 = true) ∧ (f = .f5x11 ↔ b.getLsbD 2 = true)) ∧
    (0x10#8 ≤ b → b < 0x20#8 → ∃ t d, decodeCommand b = some (.shift t d) ∧
      (t = .display ↔ b.getLsbD 3 = true) ∧ (d = .right ↔ b.getLsbD 2 = true)) ∧
    (0x08#8 ≤ b → b < 0x10#8 →
      decodeCommand b = some (.onOff (b.getLsbD 2) (b.getLsbD 1) (b.getLsbD 0))) ∧
    (0x04#8 ≤ b → b < 0x08#8 → ∃ d, decodeCommand b = some (.entryMode d (b.getLsbD 0)) ∧
      (d = .right ↔ b.getLsbD 1 = true)) ∧
    (0x02#8 ≤ b → b < 0x04#8 → decodeCommand b = some .returnHome)

/-- R105: a host operation with a reserved selector is refused. -/
def Obligations.ReservedSelectorsRefused : Prop :=
  ∀ (s : State) (op : BitVec 5) (bytes : List Byte) (rest : List Request),
    s.host.pending = .host op bytes :: rest → 0x13 ≤ op.toNat →
    step s = .refused (.undecodable (.reservedSelector op))

/-- A step takes the host's next request and runs the instruction it decodes to (derived from R26 and R78). A
request that does not decode is refused: R105 for a reserved selector; for operand bytes, an operand bound and a
command byte `0x00` it is the model's (log entries 3, 19 and 29). With no request the block waits, the model's
choice (log entry 13). -/
def Obligations.StepRunsDecodedRequest : Prop :=
  ∀ s : State,
    (∀ r rest i, s.host.pending = r :: rest → decode r = .ok i → step s = exec i (s.withPending rest)) ∧
    (∀ r rest why, s.host.pending = r :: rest → decode r = .error why →
      step s = .refused (.undecodable why)) ∧
    (s.host.pending = [] → step s = .next s)

/-! ### Reset -/

/-- What reset leaves (R281), under every configuration, and the settle times of R16. That State.reset is the
reset state under the open configuration, and carries the settle times, is the model's (log entries 1 and 6).
`bus.out` is unspecified after reset and nothing is said of it. -/
def Obligations.ResetValues : Prop :=
  (∀ cfg : Config,
    (State.resetWith cfg).cache.slots = [] ∧
    (State.resetWith cfg).canvas.cells = Vector.replicate 16 (Vector.replicate 8 0x00#8) ∧
    (State.resetWith cfg).canvas.gap = cfg.initialGap ∧
    (State.resetWith cfg).bus.dir = .uninitialized ∧
    (State.resetWith cfg).lines = { rs := none, rw := none, e := none } ∧
    (State.resetWith cfg).fault = none) ∧
  State.reset = State.resetWith Config.installed ∧
  State.reset.cfg.tClear = 1600 ∧ State.reset.cfg.tCmd = 40 ∧ State.reset.cfg.tData = 37 ∧
  State.reset.cfg.tAc = 1

/-! ### Glyphs and the ROM -/

/-- R120: GLYPH_RENDER hands over the font's glyph, and the blank glyph for a character the font lacks; its
rows have bits 7..5 zero. -/
def Obligations.GlyphRenderGivesFontGlyphOrBlank : Prop :=
  ∀ (s : State) (c : Char),
    (∀ g, (c, g) ∈ s.cfg.font.entries →
      exec (.glyphRender c) s = .next (s.withResult (.glyph g)) ∧ ∀ r : Fin 8, g[r] ≤ 0x1F#8) ∧
    ((∀ g, (c, g) ∉ s.cfg.font.entries) →
      exec (.glyphRender c) s = .next (s.withResult (.glyph (Vector.replicate 8 0x00#8))))

/-- R122: GLYPH_EQ compares all 8 bits of every row. -/
def Obligations.GlyphEqIsExactEquality : Prop :=
  ∀ (s : State) (g1 g2 : Glyph),
    exec (.glyphEq g1 g2) s = .next (s.withResult (.bool (decide (g1 = g2))))

/-- R123: GLYPH_DISTANCE counts the differing bits among the 5 visible pixels of each of the 8 rows; the
result is at most 40, and 0 exactly when the visible pixels agree. -/
def Obligations.GlyphDistanceCountsVisiblePixels : Prop :=
  ∀ (s : State) (g1 g2 : Glyph), ∃ n,
    exec (.glyphDistance g1 g2) s = .next (s.withResult (.number n)) ∧
    n = ((List.finRange 8).map fun r =>
      (List.finRange 5).countP fun k => g1[r].getLsbD k != g2[r].getLsbD k).sum ∧
    n ≤ 40 ∧ (n = 0 ↔ ∀ (r : Fin 8) (k : Fin 5), g1[r].getLsbD k = g2[r].getLsbD k)

/-- Derived from R125: ROM_SEARCH hands over the address of a glyph bit-identical to a ROM glyph, and `None` for
every other; the blank glyph always has one. A table may hold a glyph with a hidden bit, which is then found: the
model's choice (log entry 31). -/
def Obligations.RomSearchIsExactMatch : Prop :=
  ∀ (s : State) (g : Glyph),
    (∀ a, (g, a) ∈ s.cfg.rom.entries → exec (.romSearch g) s = .next (s.withResult (.address (some a)))) ∧
    ((∀ a, (g, a) ∉ s.cfg.rom.entries) → exec (.romSearch g) s = .next (s.withResult (.address none))) ∧
    (Vector.replicate 8 0x00#8, blankAddr s.cfg.rom) ∈ s.cfg.rom.entries

/-! ### The cache -/

/-- R142: the four steps of CACHE_RESOLVE, and the whole next state after each. -/
def Obligations.CacheResolveFourSteps : Prop :=
  ∀ (s : State) (g : Glyph), s.cache.slots.length ≤ 8 →
    (∀ a, (g, a) ∈ s.cfg.rom.entries → exec (.cacheResolve g) s = .next (s.withResult (.byte a))) ∧
    ((∀ a, (g, a) ∉ s.cfg.rom.entries) →
      (∀ i, s.cache.slots[i]? = some g → (∀ j, j < i → s.cache.slots[j]? ≠ some g) →
        exec (.cacheResolve g) s = .next (s.withResult (.byte (BitVec.ofNat 8 i)))) ∧
      (g ∉ s.cache.slots → s.cache.slots.length < 8 →
        exec (.cacheResolve g) s =
          .next ((s.withSlots (s.cache.slots ++ [g])).withResult
            (.byte (BitVec.ofNat 8 s.cache.slots.length)))) ∧
      (g ∉ s.cache.slots → s.cache.slots.length = 8 →
        exec (.cacheResolve g) s = .next (s.withResult (.byte (blankAddr s.cfg.rom)))))

/-- R140: CACHE_FLUSH frees every slot and changes nothing else. -/
def Obligations.CacheFlushFreesEverySlot : Prop :=
  ∀ s : State, exec .cacheFlush s = .next ((s.withSlots []).withResult .unit)

/-- R146: CACHE_IMAGE hands over 8 bytes per slot, byte `8i + r` being row r of slot i, and changes nothing. -/
def Obligations.CacheImageFlattensSlots : Prop :=
  ∀ s : State, s.cache.slots.length ≤ 8 → ∃ l,
    exec .cacheImage s = .next (s.withResult (.bytes l)) ∧ l.length = 8 * s.cache.slots.length ∧
    ∀ (i : Nat) (r : Fin 8) (g : Glyph), s.cache.slots[i]? = some g → l[8 * i + r]? = some g[r]

/-- Derived from 93_implementation_defined.md row 33: at a fill count that is no legal register value the two
operations that read it stop. -/
def Obligations.IllegalFillCountStops : Prop :=
  ∀ (s : State) (g : Glyph), 8 < s.cache.slots.length →
    exec (.cacheResolve g) s = .fault .cacheCountIllegal ∧ exec .cacheImage s = .fault .cacheCountIllegal

/-- R148: within a pass, a glyph that has a slot resolves to the same code whatever is resolved in between,
and two glyphs that have slots have different codes. -/
def Obligations.SlotCodesAreStableAndDistinct : Prop :=
  ∀ (rom : RomTable) (slots : List Glyph) (g : Glyph) (others : List Glyph),
    cacheLegal rom slots → romSearch rom g = none → g ∈ (resolve rom slots g).2 →
    (resolve rom (resolveAll rom (resolve rom slots g).2 others).2 g).1 = (resolve rom slots g).1 ∧
    ∀ h, h ∈ (resolveAll rom (resolve rom slots g).2 others).2 → h ≠ g →
      (resolve rom (resolveAll rom (resolve rom slots g).2 others).2 h).1 ≠ (resolve rom slots g).1

/-- Derived from R170, R144 and R149: CANVAS_RENDER gives every cell the address its glyph has in the pass (its
ROM address; its place among the distinct non-ROM glyphs in cell order, if among the first 8; else the blank
glyph's), leaves exactly those first 8 in the slots, and hands over their rows. -/
def Obligations.RenderPassAddresses : Prop :=
  ∀ s : State, ∃ dd cg,
    exec .canvasRender s =
      .next ((s.withSlots ((wantedGlyphs s.cfg.rom s.canvas.cells.toList).take 8)).withResult (.images dd cg)) ∧
    (∀ i : Fin 16, dd[i] = passAddress s.cfg.rom s.canvas.cells.toList s.canvas.cells[i]) ∧
    cg = ((wantedGlyphs s.cfg.rom s.canvas.cells.toList).take 8).flatMap fun g => g.toList

/-! ### The canvas -/

/-- R160: CANVAS_INIT blanks every cell, stores the gap policy and changes nothing else. -/
def Obligations.CanvasInitBlanksEveryCell : Prop :=
  ∀ (s : State) (gap : Gap),
    exec (.canvasInit gap) s =
      .next ((s.withCanvas
        { cells := Vector.replicate 16 (Vector.replicate 8 0x00#8), gap := gap }).withResult .unit)

/-- R162 and R164 under `Hide`: cell i ends with the glyph of the last character whose position in the text is
i modulo 16, and keeps its glyph if there is none; nothing else changes. -/
def Obligations.CanvasWriteUnderHide : Prop :=
  ∀ (s : State) (text : List Char) (ovr : Option Gap), effGap s ovr = .hide → ∃ cells,
    exec (.canvasWrite text ovr) s = .next ((s.withCells cells).withResult .unit) ∧
    ∀ i : Fin 16, cells[i] =
      match ((text.zipIdx).filter fun e => e.2 % 16 == i.val).getLast? with
      | some e => renderGlyph s.cfg.font e.1
      | none => s.canvas.cells[i]

/-- R162 and R163 under `Skip`: an empty text changes nothing, and one more character at the end of a text is
one more left shift of the whole canvas and then its glyph at its position modulo 16. -/
def Obligations.CanvasWriteUnderSkip : Prop :=
  ∀ (s : State) (ovr : Option Gap), effGap s ovr = .skip →
    exec (.canvasWrite [] ovr) s = .next (s.withResult .unit) ∧
    ∀ (text : List Char) (c : Char), ∃ before,
      exec (.canvasWrite text ovr) s = .next ((s.withCells before).withResult .unit) ∧
      exec (.canvasWrite (text ++ [c]) ovr) s =
        .next ((s.withCells ((shiftCells s.cfg.carry .skip before).set (text.length % 16)
          (renderGlyph s.cfg.font c) (Nat.mod_lt _ (by decide)))).withResult .unit)

/-- R166: CANVAS_SHIFT_LEFT bit by bit. With mask width W and carried bit cb, bit 0 of a row is bit cb of the
same row of the next cell (cell 0 after cell 15), bit k is the old bit k-1 below W, and no bit at or above W
is set; nothing else changes. -/
def Obligations.ShiftLeftBitByBit : Prop :=
  ∀ (s : State) (ovr : Option Gap), ∃ cells,
    exec (.canvasShiftLeft ovr) s = .next ((s.withCells cells).withResult .unit) ∧
    ∀ (c : Fin 16) (r k : Fin 8),
      cells[c][r].getLsbD k =
        (let W := if effGap s ovr = .skip then 5 else 6
         let cb := if s.cfg.carry = .fixedHiddenBit then 5 else W - 1
         if k.val = 0 then s.canvas.cells[c + 1][r].getLsbD cb
         else decide (k.val < W) && s.canvas.cells[c][r].getLsbD (k.val - 1))

/-- R167: when every row is at most `0x3F`, a shift under `Hide` rotates each 96-bit row string left by one
bit. -/
def Obligations.HideShiftRotatesRowStrings : Prop :=
  ∀ (s : State) (ovr : Option Gap), rowsWithin s.canvas.cells 0x3F#8 → effGap s ovr = .hide → ∃ cells,
    exec (.canvasShiftLeft ovr) s = .next ((s.withCells cells).withResult .unit) ∧
    ∀ r : Fin 8, rowString 6 cells r = (rowString 6 s.canvas.cells r).rotate 1

/-- Derived from R168: 96 shifts under `Hide` restore every canvas whose rows are at most `0x3F`, and there is
a canvas that no smaller number restores. -/
def Obligations.HideShiftsRestoreAfter96 : Prop :=
  (∀ (reading : CarryReading) (cells : Cells), rowsWithin cells 0x3F#8 →
    shiftTimes reading .hide 96 cells = cells) ∧
  (∃ cells : Cells, rowsWithin cells 0x3F#8 ∧
    ∀ (reading : CarryReading) (n : Nat), 0 < n → n < 96 → shiftTimes reading .hide n cells ≠ cells)

/-- Derived from R168: on a canvas whose rows are at most `0x1F`, 5 shifts under `Skip` with the fixed hidden
bit leave it all blank, and 80 with the width bit restore it. -/
def Obligations.SkipShiftsLoseOrRotate : Prop :=
  ∀ cells : Cells, rowsWithin cells 0x1F#8 →
    shiftTimes .fixedHiddenBit .skip 5 cells = Vector.replicate 16 (Vector.replicate 8 0x00#8) ∧
    shiftTimes .widthBit .skip 80 cells = cells

/-! ### The bus and the driver: where they complete -/

/-- R212 and R210: BUS_WRITE turns the bus to driving if it is not, drives the byte, and changes nothing
else. -/
def Obligations.BusWriteCompletes : Prop :=
  ∀ (s : State) (b : Byte), s.fault = none → pinsOk s (if s.bus.dir = .drivingOutput then 1 else 2) → ∃ t,
    exec (.busWrite b) s = .next t ∧
    t.trace = s.trace ++ (if s.bus.dir = .drivingOutput then [] else [Event.dir .out]) ++ [Event.drive b] ∧
    t.bus = { dir := .drivingOutput, out := b } ∧ t.host.result = .unit ∧
    t.fault = none ∧ t.lines = s.lines ∧ t.dev = s.dev ∧ keepsBlock s t

/-- R213 and R210: BUS_READ turns the bus to sensing if it is not, hands over the device oracle's byte, and
changes nothing else; `bus.out` stays. -/
def Obligations.BusReadCompletes : Prop :=
  ∀ s : State, s.fault = none → pinsOk s (if s.bus.dir = .sensingInput then 1 else 2) → ∃ t,
    exec .busRead s = .next t ∧
    t.trace = s.trace ++ (if s.bus.dir = .sensingInput then [] else [Event.dir .sense])
      ++ [Event.sample (sampleAt s 0)] ∧
    t.bus = { dir := .sensingInput, out := s.bus.out } ∧ t.host.result = .byte (sampleAt s 0) ∧
    t.fault = none ∧ t.lines = s.lines ∧ t.dev = s.dev ∧ keepsBlock s t

/-- R193: DRV_EXEC of a command that encodes to `b` emits its fixed sequence, ends with the settle delay, and
leaves RS, RW and E low and the byte on the bus. -/
def Obligations.DrvExecCompletes : Prop :=
  ∀ (s : State) (cmd : Command) (b : Byte), s.fault = none →
    pinsOk s (if s.bus.dir = .drivingOutput then 5 else 6) →
    encodeCommand s.cfg.addrPolicy cmd = some b → ∃ t,
    exec (.drvExec cmd) s = .next t ∧
    t.trace = s.trace ++ [Event.line .rs false, .line .rw false]
      ++ (if s.bus.dir = .drivingOutput then [] else [Event.dir .out])
      ++ [Event.drive b, .line .e true, .line .e false, .delay (settle s.cfg cmd)] ∧
    t.lines = { rs := some false, rw := some false, e := some false } ∧
    t.bus = { dir := .drivingOutput, out := b } ∧ t.host.result = .unit ∧ t.fault = none ∧ keepsBlock s t

/-- R195: DRV_WRITE. That the wire operation WRITE_DATA, as an instruction, is the same is the model's reading
(log entry 2). -/
def Obligations.DrvWriteCompletes : Prop :=
  ∀ (s : State) (b : Byte) (i : Instr), i = .drvWrite b ∨ i = .writeData b → s.fault = none →
    pinsOk s (if s.bus.dir = .drivingOutput then 5 else 6) → ∃ t,
    exec i s = .next t ∧
    t.trace = s.trace ++ [Event.line .rs true, .line .rw false]
      ++ (if s.bus.dir = .drivingOutput then [] else [Event.dir .out])
      ++ [Event.drive b, .line .e true, .line .e false, .delay s.cfg.tData] ∧
    t.lines = { rs := some true, rw := some false, e := some false } ∧
    t.bus = { dir := .drivingOutput, out := b } ∧ t.host.result = .unit ∧ t.fault = none ∧ keepsBlock s t

/-- R197: DRV_READ_AC, at either position of its dummy write. The bus ends sensing, with `0x00` the byte last
driven. That the wire operation READ_BF_AC, as an instruction, is the same is the model's reading (log entry
2). -/
def Obligations.DrvReadAcCompletes : Prop :=
  ∀ (s : State) (i : Instr), i = .drvReadAc ∨ i = .readBfAc → s.fault = none →
    pinsOk s (if s.bus.dir = .drivingOutput then 7 else 8) → ∃ t,
    exec i s = .next t ∧
    t.trace = s.trace ++ [Event.line .rs false, .line .rw true]
      ++ (if s.cfg.dummy = .beforeEnable then
            (if s.bus.dir = .drivingOutput then [] else [Event.dir .out]) ++ [Event.drive 0x00#8, .line .e true]
          else
            [Event.line .e true] ++ (if s.bus.dir = .drivingOutput then [] else [Event.dir .out])
              ++ [Event.drive 0x00#8])
      ++ [Event.dir .sense, .sample (sampleAt s 0), .line .e false, .delay s.cfg.tAc] ∧
    t.lines = { rs := some false, rw := some true, e := some false } ∧
    t.bus = { dir := .sensingInput, out := 0x00#8 } ∧ t.host.result = .byte (sampleAt s 0) ∧
    t.fault = none ∧ keepsBlock s t

/-- R199: DRV_READ. That the wire operation READ_DATA, as an instruction, is the same is the model's reading
(log entry 2). -/
def Obligations.DrvReadCompletes : Prop :=
  ∀ (s : State) (i : Instr), i = .drvRead ∨ i = .readData → s.fault = none →
    pinsOk s (if s.bus.dir = .sensingInput then 5 else 6) → ∃ t,
    exec i s = .next t ∧
    t.trace = s.trace ++ [Event.line .rs true, .line .rw true, .line .e true]
      ++ (if s.bus.dir = .sensingInput then [] else [Event.dir .sense])
      ++ [Event.sample (sampleAt s 0), .line .e false, .delay s.cfg.tData] ∧
    t.lines = { rs := some true, rw := some true, e := some false } ∧
    t.bus = { dir := .sensingInput, out := s.bus.out } ∧ t.host.result = .byte (sampleAt s 0) ∧
    t.fault = none ∧ keepsBlock s t

/-- Derived from R200 to R207 with R193: each command of the opcode table, as a wire operation, places its
byte with RS = 0 and RW = 0 and ends with its settle delay. That a wire row, as an instruction, is that driver
operation is the model's reading (log entry 2). -/
def Obligations.WireCommandsComplete : Prop :=
  ∀ (s : State) (i : Instr) (b : Byte) (wait : Nat), s.fault = none →
    pinsOk s (if s.bus.dir = .drivingOutput then 5 else 6) →
    ((i = .clear ∧ b = 0x01#8 ∧ wait = s.cfg.tClear) ∨
     (i = .returnHome ∧ b = 0x02#8 ∧ wait = s.cfg.tClear) ∨
     (∃ d v, i = .entryMode d v ∧ wait = s.cfg.tCmd ∧
       b = 0b000001#6 ++ BitVec.ofBool (decide (d = .right)) ++ BitVec.ofBool v) ∨
     (∃ d c k, i = .onOff d c k ∧ wait = s.cfg.tCmd ∧
       b = 0b00001#5 ++ BitVec.ofBool d ++ BitVec.ofBool c ++ BitVec.ofBool k) ∨
     (∃ g d, i = .shift g d ∧ wait = s.cfg.tCmd ∧
       b = 0b0001#4 ++ BitVec.ofBool (decide (g = .display)) ++ BitVec.ofBool (decide (d = .right)) ++ 0b00#2) ∨
     (∃ n f, i = .functionSet n f ∧ wait = s.cfg.tCmd ∧
       b = 0b0011#4 ++ BitVec.ofBool (decide (n = .two)) ++ BitVec.ofBool (decide (f = .f5x11)) ++ 0b00#2) ∨
     (∃ a : BitVec 6, i = .setCgramAddr a ∧ wait = s.cfg.tCmd ∧ b = 0b01#2 ++ a) ∨
     (∃ a : BitVec 7, i = .setDdramAddr a ∧ wait = s.cfg.tCmd ∧ b = 0b1#1 ++ a)) →
    ∃ t, exec i s = .next t ∧
      t.trace = s.trace ++ [Event.line .rs false, .line .rw false]
        ++ (if s.bus.dir = .drivingOutput then [] else [Event.dir .out])
        ++ [Event.drive b, .line .e true, .line .e false, .delay wait] ∧
      t.lines = { rs := some false, rw := some false, e := some false } ∧
      t.bus = { dir := .drivingOutput, out := b } ∧ t.host.result = .unit ∧ t.fault = none ∧ keepsBlock s t

/-! ### Errors -/

/-- R188: an address argument wider than its field raises `AddrRange` before any pin operation and changes no
state under `Refuse`; under `Mask` the byte keeps the bits of its field. No list that DIFF_COMPUTE hands over
holds such an argument. -/
def Obligations.WideAddressRefusedOrMasked : Prop :=
  ∀ (s : State) (a : Byte),
    (s.fault = none → s.cfg.addrPolicy = .refuse →
      (0x3F#8 < a → exec (.drvExec (.setGlyphRamAddress a)) s =
        .next (s.withResult (.error (.addrRange (.setGlyphRamAddress a))))) ∧
      (0x7F#8 < a → exec (.drvExec (.setDisplayRamAddress a)) s =
        .next (s.withResult (.error (.addrRange (.setDisplayRamAddress a)))))) ∧
    (s.cfg.addrPolicy = .mask →
      encodeCommand s.cfg.addrPolicy (.setGlyphRamAddress a) = some (0x40#8 ||| (a &&& 0x3F#8)) ∧
      encodeCommand s.cfg.addrPolicy (.setDisplayRamAddress a) = some (0x80#8 ||| (a &&& 0x7F#8))) ∧
    ∀ pd pc nd nc t ops, exec (.diffCompute pd pc nd nc) s = .next t → t.host.result = .opList ops →
      ∀ item ∈ ops, (∀ b, item = .setCG b → b ≤ 0x3F#8) ∧ (∀ b, item = .setDD b → b ≤ 0x7F#8)

/-- Derived from R253: while `fault` is set every operation that would perform a pin operation is refused. An
empty DIFF_APPLY performs none and completes. No operation that completes clears `fault`; reset does. R253 lists
host operations; that the wire rows are refused with them is the model's reading (log entry 2). -/
def Obligations.StickyFaultRefusesPinOperations : Prop :=
  ∀ (s : State) (e : HwErr), s.fault = some e →
    (∀ cmd, exec (.drvExec cmd) s = .refused .stickyFault) ∧
    (∀ b, exec (.drvWrite b) s = .refused .stickyFault ∧ exec (.writeData b) s = .refused .stickyFault ∧
      exec (.busWrite b) s = .refused .stickyFault) ∧
    exec .drvReadAc s = .refused .stickyFault ∧ exec .readBfAc s = .refused .stickyFault ∧
    exec .drvRead s = .refused .stickyFault ∧ exec .readData s = .refused .stickyFault ∧
    exec .busRead s = .refused .stickyFault ∧
    (∀ item rest, exec (.diffApply (item :: rest)) s = .refused .stickyFault) ∧
    exec (.diffApply []) s = .next (s.withResult .unit) ∧
    exec .clear s = .refused .stickyFault ∧ exec .returnHome s = .refused .stickyFault ∧
    (∀ d v, exec (.entryMode d v) s = .refused .stickyFault) ∧
    (∀ d c k, exec (.onOff d c k) s = .refused .stickyFault) ∧
    (∀ g d, exec (.shift g d) s = .refused .stickyFault) ∧
    (∀ n f, exec (.functionSet n f) s = .refused .stickyFault) ∧
    (∀ a, exec (.setCgramAddr a) s = .refused .stickyFault) ∧
    (∀ a, exec (.setDdramAddr a) s = .refused .stickyFault) ∧
    (∀ i t, exec i s = .next t → t.fault = some e) ∧ State.reset.fault = none

/-- R252: the operations that touch no pin complete whatever `fault` holds, with a result that is no error,
and change neither the bus, the lines, the fault, the trace, the oracles nor the device. (CACHE_RESOLVE and
CACHE_IMAGE at a legal fill count, DIFF_COMPUTE on its operands.) -/
def Obligations.PureOperationsCannotFail : Prop :=
  ∀ (s : State) (i : Instr),
    ((∃ c, i = .glyphRender c) ∨ (∃ g h, i = .glyphEq g h) ∨ (∃ g h, i = .glyphDistance g h) ∨
      (∃ g, i = .romSearch g) ∨ i = .cacheFlush ∨ (∃ g, i = .cacheResolve g ∧ s.cache.slots.length ≤ 8) ∨
      (i = .cacheImage ∧ s.cache.slots.length ≤ 8) ∨ (∃ p, i = .canvasInit p) ∨
      (∃ text ovr, i = .canvasWrite text ovr) ∨ (∃ ovr, i = .canvasShiftLeft ovr) ∨ i = .canvasRender ∨
      (∃ pd pc nd nc, i = .diffCompute pd pc nd nc ∧ nc.length ≤ 64)) →
    ∃ t, exec i s = .next t ∧ (∀ e, t.host.result ≠ .error e) ∧ t.cfg = s.cfg ∧ t.bus = s.bus ∧
      t.lines = s.lines ∧ t.fault = s.fault ∧ t.trace = s.trace ∧ t.env = s.env ∧ t.dev = s.dev ∧
      t.host.pending = s.host.pending

/-- Derived from R190, R251 and R257: a failing pin operation ends a driver or bus operation at once. The trace
holds the pin events up to and including the failing one and no delay, `fault` and the result hold the payload
unchanged, the lines and the bus are those after the completed steps and the failed step's own effect, and the
cache, the canvas, the configuration and the host's requests are as they were. That the event of a failed sample
holds the device oracle's byte is the model's (log entry 17), and so is the reading of the wire rows (log entry
2). -/
def Obligations.PinFailureEndsOperation : Prop :=
  ∀ (s : State) (i : Instr) (pins : List Event) (n : Nat) (e : HwErr), s.fault = none →
    ((∃ b, (i = .drvWrite b ∨ i = .writeData b) ∧ pins = writePins true s.bus.dir b) ∨
     (∃ cmd b, commandOf i = some cmd ∧ encodeCommand s.cfg.addrPolicy cmd = some b ∧
       pins = writePins false s.bus.dir b) ∨
     ((i = .drvRead ∨ i = .readData) ∧ pins = readPins s.bus.dir (sampleAt s 0)) ∨
     ((i = .drvReadAc ∨ i = .readBfAc) ∧ pins = readAcPins s.cfg.dummy s.bus.dir (sampleAt s 0)) ∨
     (∃ b, i = .busWrite b ∧ pins = turnEvents s.bus.dir .out ++ [Event.drive b]) ∨
     (i = .busRead ∧ pins = turnEvents s.bus.dir .sense ++ [Event.sample (sampleAt s 0)])) →
    n < pins.length → pinFailsAt s n e → ∃ t,
    exec i s = .next t ∧ t.trace = s.trace ++ pins.take (n + 1) ∧ t.fault = some e ∧
    t.host.result = .error (.hwError e) ∧ keepsBlock s t ∧
    ∀ failing, pins[n]? = some failing → brokenOff s t (pins.take n) failing

/-- R186: SetLine drives its line and the line's level is then known, and after a failed SetLine it is unknown,
for every line and state. So in every operation that ends in an `HwError`, DIFF_APPLY included, from any direction
of the bus: one event failed, the last of the trace, and the lines and the bus are those after the events before
it and the failed event's own effect (R257), the level of a line that was to change being unknown. That the wire
rows are among these operations is the model's reading (log entry 2), and so is that the event of a failed sample
stands in the trace (log entry 17). -/
def Obligations.FailedLineLevelIsUnknown : Prop :=
  (∀ (l : ControlLine) (v : Bool) (s : State),
    (pinAnswerAt s 0 = .ok → ∃ t, setLine l v s = .ok () t ∧ t.trace = s.trace ++ [Event.line l v] ∧
      t.lines = s.lines.set l (some v)) ∧
    ∀ e, pinAnswerAt s 0 = .err e → ∃ t, setLine l v s = .failed (.hwError e) t ∧
      t.trace = s.trace ++ [Event.line l v] ∧ t.fault = some e ∧ t.lines = s.lines.set l none ∧ t.bus = s.bus) ∧
  ∀ (i : Instr) (s t : State) (e : HwErr), exec i s = .next t → t.host.result = .error (.hwError e) →
    ∃ completed failing, t.trace = s.trace ++ completed ++ [failing] ∧ brokenOff s t completed failing

/-- R251: in every operation that ends with a next state, from a state with no fault, `fault` records a
payload exactly when the operation's result is the `HwError` with that payload. -/
def Obligations.FaultRecordsTheHwError : Prop :=
  ∀ (i : Instr) (s t : State) (e : HwErr), s.fault = none → exec i s = .next t →
    (t.fault = some e ↔ t.host.result = .error (.hwError e))

/-- R42 (and R253, R280): no step clears or changes a recorded fault, and none adds to the trace while one is
recorded. Constructing the block anew clears it and gives the block its reset values, with no pin operation.
That this is the function `rebuild`, which leaves the trace, the configuration and the device as they stood, is
the model's (log entry 12). -/
def Obligations.OnlyResetClearsFault : Prop :=
  (∀ (s t : State) (e : HwErr), s.fault = some e → step s = .next t → t.fault = some e ∧ t.trace = s.trace) ∧
  (∀ s : State, (rebuild s).fault = none ∧ (rebuild s).cache.slots = [] ∧
    (rebuild s).canvas.cells = Vector.replicate 16 (Vector.replicate 8 0x00#8) ∧
    (rebuild s).canvas.gap = s.cfg.initialGap ∧ (rebuild s).bus.dir = .uninitialized ∧
    (rebuild s).lines = { rs := none, rw := none, e := none } ∧
    (rebuild s).trace = s.trace ∧ (rebuild s).dev = s.dev ∧ (rebuild s).cfg = s.cfg)

/-- Derived from R25 and R78: every step only adds events at the end of the line trace. No step changes the
configuration, which R43 calls a parameter of the step; that it is a field of State is the model's (log entry
1). -/
def Obligations.TraceOnlyGrows : Prop :=
  ∀ s t : State, step s = .next t → (∃ evs, t.trace = s.trace ++ evs) ∧ t.cfg = s.cfg

/-- R210: no operation that succeeds returns the bus to `Uninitialized`, and one that leaves it there has
touched no pin. -/
def Obligations.BusNeverReturnsToUninitialized : Prop :=
  ∀ s t : State, step s = .next t → t.fault = none → t.bus.dir = .uninitialized →
    s.bus.dir = .uninitialized ∧ t.trace = s.trace

/-- R39: no operation but CANVAS_INIT writes the canvas's stored gap policy. -/
def Obligations.OnlyCanvasInitWritesGap : Prop :=
  ∀ (i : Instr) (s t : State), exec i s = .next t →
    (∀ gap, i = .canvasInit gap → t.canvas.gap = gap) ∧
    ((∀ gap, i ≠ .canvasInit gap) → t.canvas.gap = s.canvas.gap)

/-- The frame of the pin-touching operations, on every path that ends with a next state: configuration,
cache, canvas and pending requests are unchanged, and the trace only grows. Derived from the lists `State
written` of R193 to R199, R212, R213 and R234; for the wire rows by the model's reading (log entry 2). -/
def Obligations.PinOperationsFrame : Prop :=
  ∀ (i : Instr) (s t : State),
    ((∃ cmd, i = .drvExec cmd) ∨ (∃ b, i = .drvWrite b) ∨ i = .drvReadAc ∨ i = .drvRead ∨
      (∃ b, i = .busWrite b) ∨ i = .busRead ∨ (∃ ops, i = .diffApply ops) ∨ i = .clear ∨ i = .returnHome ∨
      (∃ d v, i = .entryMode d v) ∨ (∃ d c k, i = .onOff d c k) ∨ (∃ g d, i = .shift g d) ∨
      (∃ n f, i = .functionSet n f) ∨ (∃ a, i = .setCgramAddr a) ∨ (∃ a, i = .setDdramAddr a) ∨
      i = .readBfAc ∨ (∃ b, i = .writeData b) ∨ i = .readData) →
    exec i s = .next t → keepsBlock s t ∧ ∃ evs, t.trace = s.trace ++ evs

/-! ### The diff updater -/

/-- R237: identical images give the empty operation list. -/
def Obligations.IdenticalImagesGiveNoOperations : Prop :=
  ∀ (s : State) (d : Image) (c : List Byte), c.length ≤ 64 →
    exec (.diffCompute (some d) (some c) d c) s = .next (s.withResult (.opList []))

/-- R238: images that differ in exactly one byte give one address-set and one write. -/
def Obligations.OneChangedByteGivesTwoItems : Prop :=
  ∀ (s : State) (d : Image) (q : List Byte), q.length ≤ 64 →
    (∀ (i : Fin 16) (b : Byte), b ≠ d[i] →
      exec (.diffCompute (some d) (some q) (d.set i b) q) s =
        .next (s.withResult (.opList [.setDD (BitVec.ofNat 8 (devaddr i)), .write b]))) ∧
    (∀ (j : Nat) (b : Byte), j < q.length → q[j]? ≠ some b →
      exec (.diffCompute (some d) (some q) d (q.set j b)) s =
        .next (s.withResult (.opList [.setCG (BitVec.ofNat 8 j), .write b])))

/-- R235 and R231: on every operand DIFF_COMPUTE hands over a list whose writes are the changed bytes, glyph
RAM first, each region by rising address, and whose length is the number of changed bytes plus the number of
maximal runs, counted per phase. -/
def Obligations.DiffComputeCostsRuns : Prop :=
  ∀ (s : State) (pd : Option Image) (pc : Option (List Byte)) (nd : Image) (nc : List Byte), nc.length ≤ 64 →
    ∃ ops, exec (.diffCompute pd pc nd nc) s = .next (s.withResult (.opList ops)) ∧
      ops.filter isWriteItem = (cgChanges pc nc ++ ddChanges pd nd).map (fun e => .write e.2) ∧
      ((cgChanges pc nc).map Prod.fst).Pairwise (· < ·) ∧ ((ddChanges pd nd).map Prod.fst).Pairwise (· < ·) ∧
      ops.length = (cgChanges pc nc).length + runCount ((cgChanges pc nc).map Prod.fst)
        + ((ddChanges pd nd).length + runCount ((ddChanges pd nd).map Prod.fst))

/-- R232 and R62: the cell-to-device address map, and which bytes are changed: byte j of the new CGRAM image
when there is no previous one, or none that long, or another byte there; byte i of the new DDRAM image, at its
device address, when there is no previous one or another byte there. Both lists rise by address (R231). -/
def Obligations.ChangedBytes : Prop :=
  ∀ (pd : Option Image) (pc : Option (List Byte)) (nd : Image) (nc : List Byte),
    (∀ i, i < 16 → (i < 8 → devaddr i = i) ∧ (8 ≤ i → devaddr i = i - 8 + 0x40)) ∧
    (∀ j b, (j, b) ∈ cgChanges pc nc ↔
      nc[j]? = some b ∧ ∀ p, pc = some p → p.length ≤ j ∨ p[j]? ≠ some b) ∧
    (∀ a b, (a, b) ∈ ddChanges pd nd ↔
      ∃ i : Fin 16, a = devaddr i ∧ b = nd[i] ∧ ∀ p, pd = some p → p[i] ≠ nd[i]) ∧
    ((cgChanges pc nc).map Prod.fst).Pairwise (· < ·) ∧ ((ddChanges pd nd).map Prod.fst).Pairwise (· < ·)

/-- R233: glyph RAM before display RAM: the list is a part that addresses glyph RAM and a part that addresses
display RAM, each beginning with an address-set if it holds anything, with every address in the ranges R231
names. -/
def Obligations.GlyphRamBeforeDisplayRam : Prop :=
  ∀ (s : State) (pd : Option Image) (pc : Option (List Byte)) (nd : Image) (nc : List Byte), nc.length ≤ 64 →
    ∃ cgPart ddPart,
      exec (.diffCompute pd pc nd nc) s = .next (s.withResult (.opList (cgPart ++ ddPart))) ∧
      (∀ item ∈ cgPart, (∃ a, item = .setCG a ∧ a ≤ 0x3F#8) ∨ ∃ b, item = .write b) ∧
      (∀ item ∈ ddPart, (∃ a, item = .setDD a ∧ (a ≤ 0x07#8 ∨ (0x40#8 ≤ a ∧ a ≤ 0x47#8))) ∨
        ∃ b, item = .write b) ∧
      (∀ b rest, cgPart ≠ .write b :: rest) ∧ (∀ b rest, ddPart ≠ .write b :: rest)

/-- R234: DIFF_APPLY of a list whose address items fit emits every item's sequence in list order and ends
`Ok`. -/
def Obligations.DiffApplyCompletes : Prop :=
  ∀ (s : State) (ops : List DiffOp), s.fault = none → itemsFit s.cfg ops →
    pinsOk s (5 * ops.length + (if s.bus.dir = .drivingOutput ∨ ops = [] then 0 else 1)) →
    ∃ t, exec (.diffApply ops) s = .next t ∧ t.trace = s.trace ++ listEvents s.cfg s.bus.dir ops ∧
      t.host.result = .unit ∧ t.fault = none ∧ keepsBlock s t ∧
      (ops ≠ [] → t.bus.dir = .drivingOutput ∧ t.lines.rw = some false ∧ t.lines.e = some false)

/-- Derived from R298: the total delay of an update that ends `Ok` is one command time per address-set item
and one data time per write item. -/
def Obligations.UpdateDelayIsSumOfItems : Prop :=
  ∀ (s t : State) (ops : List DiffOp), exec (.diffApply ops) s = .next t → t.host.result = .unit →
    delayTotal t.trace = delayTotal s.trace + s.cfg.tCmd * ops.countP (fun item => !isWriteItem item)
      + s.cfg.tData * ops.countP isWriteItem

/-- R234 and R239: an update that ends in an error performed the items before one item in full, and that
error is the item's own; no later item was begun. -/
def Obligations.UpdateStopsAtFirstError : Prop :=
  ∀ (s t : State) (ops : List DiffOp) (e : OpError), exec (.diffApply ops) s = .next t →
    t.host.result = .error e → ∃ before item after u v, ops = before ++ item :: after ∧
      applyOps before s = .ok () u ∧ applyItem item u = .failed e v ∧ t = v.withResult (.error e)

/-- R107: UPDATE is CANVAS_RENDER, DIFF_COMPUTE against the previous images, and DIFF_APPLY of its list. -/
def Obligations.UpdateIsThreeOperations : Prop :=
  ∀ (s s1 s2 s3 : State) (pd : Option Image) (pc : Option (List Byte)) (dd : Image) (cg : List Byte)
    (ops : List DiffOp),
    exec .canvasRender s = .next s1 → s1.host.result = .images dd cg →
    exec (.diffCompute pd pc dd cg) s1 = .next s2 → s2.host.result = .opList ops →
    exec (.diffApply ops) s2 = .next s3 → update pd pc s = .next (s3, dd, cg)

/-! ### The reference device -/

/-- R75: a data write that completes stores the byte at the address counter, in the region addressed last,
leaves every other byte of both memories alone, and moves the counter by one, modulo 64 in glyph RAM and 128
in display RAM. That the modulus holds for the decrement too is the model's (log entry 30), as is the reading of
WRITE_DATA (log entry 2). -/
def Obligations.DataWriteReachesDevice : Prop :=
  ∀ (s : State) (b : Byte) (i : Instr) (d : RefDevice), i = .drvWrite b ∨ i = .writeData b →
    s.fault = none → pinsOk s (if s.bus.dir = .drivingOutput then 5 else 6) → s.dev = some d →
    ∃ t d', exec i s = .next t ∧ t.dev = some d' ∧
    d'.region = d.region ∧ d'.inc = d.inc ∧
    (d.region = .dd →
      d'.ddram.read d.ac.toNat = some b ∧ (∀ a, a ≠ d.ac.toNat → d'.ddram.read a = d.ddram.read a) ∧
      (∀ a, d'.cgram.read a = d.cgram.read a) ∧
      d'.ac.toNat = (if d.inc then d.ac.toNat + 1 else d.ac.toNat + 127) % 128) ∧
    (d.region = .cg →
      d'.cgram.read (d.ac.toNat % 64) = some b ∧
      (∀ a, a ≠ d.ac.toNat % 64 → d'.cgram.read a = d.cgram.read a) ∧
      (∀ a, d'.ddram.read a = d.ddram.read a) ∧
      d'.ac.toNat = (if d.inc then d.ac.toNat + 1 else d.ac.toNat + 63) % 64)

/-- R74 and R77: an address-set that completes sets the device's region and address counter and nothing else;
EntryMode without display shift sets its direction. Issued through DRV_EXEC, an address that is encoded sets the
counter to the bits of its field. After a command that the reference device does not model nothing is claimed of
it, which is the model's form of R77 (log entry 20), as is the reading of the wire rows (log entry 2). -/
def Obligations.CommandsAtDevice : Prop :=
  ∀ (s : State) (d : RefDevice), s.fault = none →
    pinsOk s (if s.bus.dir = .drivingOutput then 5 else 6) → s.dev = some d →
    (∀ a : BitVec 6, ∃ t, exec (.setCgramAddr a) s = .next t ∧
      t.dev = some { d with region := .cg, ac := a.setWidth 7 }) ∧
    (∀ a : BitVec 7, ∃ t, exec (.setDdramAddr a) s = .next t ∧ t.dev = some { d with region := .dd, ac := a }) ∧
    (∀ a : Byte, encodeCommand s.cfg.addrPolicy (.setGlyphRamAddress a) ≠ none →
      ∃ t, exec (.drvExec (.setGlyphRamAddress a)) s = .next t ∧
        t.dev = some { d with region := .cg, ac := a.setWidth 7 &&& 0x3F#7 }) ∧
    (∀ a : Byte, encodeCommand s.cfg.addrPolicy (.setDisplayRamAddress a) ≠ none →
      ∃ t, exec (.drvExec (.setDisplayRamAddress a)) s = .next t ∧
        t.dev = some { d with region := .dd, ac := a.setWidth 7 }) ∧
    (∀ (dir : Dir) (i : Instr), i = .entryMode dir false ∨ i = .drvExec (.entryMode dir false) →
      ∃ t, exec i s = .next t ∧ t.dev = some { d with inc := decide (dir = .right) }) ∧
    ∀ (i : Instr) (cmd : Command), commandOf i = some cmd →
      (cmd = .clear ∨ cmd = .returnHome ∨ (∃ x y z, cmd = .onOff x y z) ∨ (∃ g x, cmd = .shift g x) ∨
        (∃ n f, cmd = .functionSet n f) ∨ ∃ x, cmd = .entryMode x true) →
      ∃ t, exec i s = .next t ∧ t.dev = none

/-- R76: a data read that completes moves the device's address counter as a write does and stores nothing; an
address-counter read leaves the device as it was. That the modulus of R75 holds for the decrement too is the
model's (log entry 30), as is the reading of READ_DATA and READ_BF_AC (log entry 2). -/
def Obligations.ReadsAtDevice : Prop :=
  ∀ (s : State) (d : RefDevice), s.fault = none → s.dev = some d →
    (∀ i : Instr, i = .drvRead ∨ i = .readData → pinsOk s (if s.bus.dir = .sensingInput then 5 else 6) →
      ∃ t, exec i s = .next t ∧ t.dev = some { d with ac := (d.writeData 0x00#8).ac }) ∧
    (∀ i : Instr, i = .drvReadAc ∨ i = .readBfAc → pinsOk s (if s.bus.dir = .drivingOutput then 7 else 8) →
      ∃ t, exec i s = .next t ∧ t.dev = some d)

/-- The frame of device memory, where the reference device is still claimed after the instruction: of all
instructions only DRV_WRITE, WRITE_DATA and DIFF_APPLY can change a byte of it. Derived from R74 to R77. It says
nothing of the commands at which the model gives the device up (log entry 20), such as CLEAR, which fills display
RAM (R200). The reading of the wire rows, WRITE_DATA among them, is the model's (log entry 2). -/
def Obligations.OnlyWritesStoreAtDevice : Prop :=
  ∀ (i : Instr) (s t : State), (∀ b, i ≠ .drvWrite b) → (∀ b, i ≠ .writeData b) →
    (∀ ops, i ≠ .diffApply ops) → exec i s = .next t → keepsDeviceMemory s t

/-- R236, convergence: if the device counts up and holds the previous images that are given, then after a
DIFF_APPLY of DIFF_COMPUTE's list that ends `Ok` it holds the new images. -/
def Obligations.DeviceConvergesToImages : Prop :=
  ∀ (s t : State) (pd : Option Image) (pc : Option (List Byte)) (dd : Image) (cg : List Byte) (d : RefDevice),
    cg.length ≤ 64 → s.dev = some d → d.inc = true → agreesDD d pd → agreesCG d pc →
    exec (.diffApply (diffOps pd pc dd cg)) s = .next t → t.host.result = .unit →
    ∃ d', t.dev = some d' ∧ showsDD d' dd ∧ showsCG d' cg

/-! ### The invariant -/

/-- Every step keeps the invariant: no two slots alike, none a ROM glyph, at most 8 (R37); canvas rows of at
most 6 bits (R47); device memories canonical and inside their address spaces (the model's, log entry 21). -/
def Obligations.StepKeepsInvariant : Prop :=
  ∀ s t : State, State.Inv s → step s = .next t → State.Inv t

/-- The invariant holds right after reset, under every configuration. Its clause on device memory rests on the
model's device at power-on, whose memories list nothing (log entries 9 and 21). -/
def Obligations.ResetMeetsInvariant : Prop :=
  (∀ cfg : Config, State.Inv (State.resetWith cfg)) ∧ State.Inv State.reset

/-! ### The frame of an update -/

/-- Derived from R231, R234 and R75: an update of a device that counts up stores at the changed bytes' addresses
only, however it ends: at every other address both memories read as before, as far as anything is still claimed
of the device. -/
def Obligations.UpdateLeavesOtherBytesAlone : Prop :=
  ∀ (s t : State) (pd : Option Image) (pc : Option (List Byte)) (dd : Image) (cg : List Byte) (d d' : RefDevice),
    cg.length ≤ 64 → s.dev = some d → d.inc = true →
    exec (.diffApply (diffOps pd pc dd cg)) s = .next t → t.dev = some d' →
    (∀ a, (∀ b, (a, b) ∉ ddChanges pd dd) → d'.ddram.read a = d.ddram.read a) ∧
    (∀ a, (∀ b, (a, b) ∉ cgChanges pc cg) → d'.cgram.read a = d.cgram.read a)

/-- Derived from R74, R75, R234 and R239: on every path that leaves something to claim of the device, a data write
stores at the address `RefDevice.writeData` computes and nowhere else, and one that ends in an error stores
nothing; DIFF_APPLY of any list stores at the addresses its items lead to and nowhere else, and where it ends `Ok`
the device has taken every item. That the device stands as it was after a failed step before a change of E is the
model's (log entry 11), as are the modulus of the decrement (log entry 30) and the reading of WRITE_DATA (log entry
2). -/
def Obligations.WritesStoreAtTheirAddressesOnly : Prop :=
  ∀ (s t : State) (d d' : RefDevice), s.dev = some d → t.dev = some d' →
    (∀ (i : Instr) (b : Byte), i = .drvWrite b ∨ i = .writeData b → exec i s = .next t →
      (∀ a, (Region.dd, a) ≠ storesAt d → d'.ddram.read a = d.ddram.read a) ∧
      (∀ a, (Region.cg, a) ≠ storesAt d → d'.cgram.read a = d.cgram.read a) ∧
      ∀ e, t.host.result = .error e → d' = d) ∧
    ∀ ops : List DiffOp, exec (.diffApply ops) s = .next t →
      (∀ a, (Region.dd, a) ∉ listStoresAt d ops → d'.ddram.read a = d.ddram.read a) ∧
      (∀ a, (Region.cg, a) ∉ listStoresAt d ops → d'.cgram.read a = d.cgram.read a) ∧
      (t.host.result = .unit → d' = ops.foldl itemEffect d)
end

