-- ==== Sys2Proof/Laws/State.lean ====
section
/-! SUPPORT. The small lemmas of State's updates: what each field is after each update, by rfl, so that no
proof unfolds a record update; and that the oracles' answers depend on the oracles alone. -/

namespace Sys2Proof.Machine.State

/-! ### withResult -/

@[simp] theorem withResult_cfg (s : State) (r : OpResult) : (s.withResult r).cfg = s.cfg := rfl
@[simp] theorem withResult_cache (s : State) (r : OpResult) : (s.withResult r).cache = s.cache := rfl
@[simp] theorem withResult_canvas (s : State) (r : OpResult) : (s.withResult r).canvas = s.canvas := rfl
@[simp] theorem withResult_bus (s : State) (r : OpResult) : (s.withResult r).bus = s.bus := rfl
@[simp] theorem withResult_lines (s : State) (r : OpResult) : (s.withResult r).lines = s.lines := rfl
@[simp] theorem withResult_fault (s : State) (r : OpResult) : (s.withResult r).fault = s.fault := rfl
@[simp] theorem withResult_host (s : State) (r : OpResult) : (s.withResult r).host = { s.host with result := r } := rfl
@[simp] theorem withResult_trace (s : State) (r : OpResult) : (s.withResult r).trace = s.trace := rfl
@[simp] theorem withResult_env (s : State) (r : OpResult) : (s.withResult r).env = s.env := rfl
@[simp] theorem withResult_dev (s : State) (r : OpResult) : (s.withResult r).dev = s.dev := rfl

/-! ### withPending -/

@[simp] theorem withPending_cfg (s : State) (p : List Request) : (s.withPending p).cfg = s.cfg := rfl
@[simp] theorem withPending_cache (s : State) (p : List Request) : (s.withPending p).cache = s.cache := rfl
@[simp] theorem withPending_canvas (s : State) (p : List Request) : (s.withPending p).canvas = s.canvas := rfl
@[simp] theorem withPending_bus (s : State) (p : List Request) : (s.withPending p).bus = s.bus := rfl
@[simp] theorem withPending_lines (s : State) (p : List Request) : (s.withPending p).lines = s.lines := rfl
@[simp] theorem withPending_fault (s : State) (p : List Request) : (s.withPending p).fault = s.fault := rfl
@[simp] theorem withPending_host (s : State) (p : List Request) : (s.withPending p).host = { s.host with pending := p } := rfl
@[simp] theorem withPending_trace (s : State) (p : List Request) : (s.withPending p).trace = s.trace := rfl
@[simp] theorem withPending_env (s : State) (p : List Request) : (s.withPending p).env = s.env := rfl
@[simp] theorem withPending_dev (s : State) (p : List Request) : (s.withPending p).dev = s.dev := rfl

/-! ### withSlots -/

@[simp] theorem withSlots_cfg (s : State) (l : List Glyph) : (s.withSlots l).cfg = s.cfg := rfl
@[simp] theorem withSlots_cache (s : State) (l : List Glyph) : (s.withSlots l).cache = { slots := l } := rfl
@[simp] theorem withSlots_canvas (s : State) (l : List Glyph) : (s.withSlots l).canvas = s.canvas := rfl
@[simp] theorem withSlots_bus (s : State) (l : List Glyph) : (s.withSlots l).bus = s.bus := rfl
@[simp] theorem withSlots_lines (s : State) (l : List Glyph) : (s.withSlots l).lines = s.lines := rfl
@[simp] theorem withSlots_fault (s : State) (l : List Glyph) : (s.withSlots l).fault = s.fault := rfl
@[simp] theorem withSlots_host (s : State) (l : List Glyph) : (s.withSlots l).host = s.host := rfl
@[simp] theorem withSlots_trace (s : State) (l : List Glyph) : (s.withSlots l).trace = s.trace := rfl
@[simp] theorem withSlots_env (s : State) (l : List Glyph) : (s.withSlots l).env = s.env := rfl
@[simp] theorem withSlots_dev (s : State) (l : List Glyph) : (s.withSlots l).dev = s.dev := rfl

/-! ### withCells -/

@[simp] theorem withCells_cfg (s : State) (c : Cells) : (s.withCells c).cfg = s.cfg := rfl
@[simp] theorem withCells_cache (s : State) (c : Cells) : (s.withCells c).cache = s.cache := rfl
@[simp] theorem withCells_canvas (s : State) (c : Cells) : (s.withCells c).canvas = { s.canvas with cells := c } := rfl
@[simp] theorem withCells_bus (s : State) (c : Cells) : (s.withCells c).bus = s.bus := rfl
@[simp] theorem withCells_lines (s : State) (c : Cells) : (s.withCells c).lines = s.lines := rfl
@[simp] theorem withCells_fault (s : State) (c : Cells) : (s.withCells c).fault = s.fault := rfl
@[simp] theorem withCells_host (s : State) (c : Cells) : (s.withCells c).host = s.host := rfl
@[simp] theorem withCells_trace (s : State) (c : Cells) : (s.withCells c).trace = s.trace := rfl
@[simp] theorem withCells_env (s : State) (c : Cells) : (s.withCells c).env = s.env := rfl
@[simp] theorem withCells_dev (s : State) (c : Cells) : (s.withCells c).dev = s.dev := rfl

/-! ### withCanvas -/

@[simp] theorem withCanvas_cfg (s : State) (c : Canvas) : (s.withCanvas c).cfg = s.cfg := rfl
@[simp] theorem withCanvas_cache (s : State) (c : Canvas) : (s.withCanvas c).cache = s.cache := rfl
@[simp] theorem withCanvas_canvas (s : State) (c : Canvas) : (s.withCanvas c).canvas = c := rfl
@[simp] theorem withCanvas_bus (s : State) (c : Canvas) : (s.withCanvas c).bus = s.bus := rfl
@[simp] theorem withCanvas_lines (s : State) (c : Canvas) : (s.withCanvas c).lines = s.lines := rfl
@[simp] theorem withCanvas_fault (s : State) (c : Canvas) : (s.withCanvas c).fault = s.fault := rfl
@[simp] theorem withCanvas_host (s : State) (c : Canvas) : (s.withCanvas c).host = s.host := rfl
@[simp] theorem withCanvas_trace (s : State) (c : Canvas) : (s.withCanvas c).trace = s.trace := rfl
@[simp] theorem withCanvas_env (s : State) (c : Canvas) : (s.withCanvas c).env = s.env := rfl
@[simp] theorem withCanvas_dev (s : State) (c : Canvas) : (s.withCanvas c).dev = s.dev := rfl

/-! ### withBusDir -/

@[simp] theorem withBusDir_cfg (s : State) (d : BusDir) : (s.withBusDir d).cfg = s.cfg := rfl
@[simp] theorem withBusDir_cache (s : State) (d : BusDir) : (s.withBusDir d).cache = s.cache := rfl
@[simp] theorem withBusDir_canvas (s : State) (d : BusDir) : (s.withBusDir d).canvas = s.canvas := rfl
@[simp] theorem withBusDir_bus (s : State) (d : BusDir) : (s.withBusDir d).bus = { s.bus with dir := d } := rfl
@[simp] theorem withBusDir_lines (s : State) (d : BusDir) : (s.withBusDir d).lines = s.lines := rfl
@[simp] theorem withBusDir_fault (s : State) (d : BusDir) : (s.withBusDir d).fault = s.fault := rfl
@[simp] theorem withBusDir_host (s : State) (d : BusDir) : (s.withBusDir d).host = s.host := rfl
@[simp] theorem withBusDir_trace (s : State) (d : BusDir) : (s.withBusDir d).trace = s.trace := rfl
@[simp] theorem withBusDir_env (s : State) (d : BusDir) : (s.withBusDir d).env = s.env := rfl
@[simp] theorem withBusDir_dev (s : State) (d : BusDir) : (s.withBusDir d).dev = s.dev := rfl

/-! ### withBusOut -/

@[simp] theorem withBusOut_cfg (s : State) (b : Byte) : (s.withBusOut b).cfg = s.cfg := rfl
@[simp] theorem withBusOut_cache (s : State) (b : Byte) : (s.withBusOut b).cache = s.cache := rfl
@[simp] theorem withBusOut_canvas (s : State) (b : Byte) : (s.withBusOut b).canvas = s.canvas := rfl
@[simp] theorem withBusOut_bus (s : State) (b : Byte) : (s.withBusOut b).bus = { s.bus with out := b } := rfl
@[simp] theorem withBusOut_lines (s : State) (b : Byte) : (s.withBusOut b).lines = s.lines := rfl
@[simp] theorem withBusOut_fault (s : State) (b : Byte) : (s.withBusOut b).fault = s.fault := rfl
@[simp] theorem withBusOut_host (s : State) (b : Byte) : (s.withBusOut b).host = s.host := rfl
@[simp] theorem withBusOut_trace (s : State) (b : Byte) : (s.withBusOut b).trace = s.trace := rfl
@[simp] theorem withBusOut_env (s : State) (b : Byte) : (s.withBusOut b).env = s.env := rfl
@[simp] theorem withBusOut_dev (s : State) (b : Byte) : (s.withBusOut b).dev = s.dev := rfl

/-! ### withLines -/

@[simp] theorem withLines_cfg (s : State) (l : Lines) : (s.withLines l).cfg = s.cfg := rfl
@[simp] theorem withLines_cache (s : State) (l : Lines) : (s.withLines l).cache = s.cache := rfl
@[simp] theorem withLines_canvas (s : State) (l : Lines) : (s.withLines l).canvas = s.canvas := rfl
@[simp] theorem withLines_bus (s : State) (l : Lines) : (s.withLines l).bus = s.bus := rfl
@[simp] theorem withLines_lines (s : State) (l : Lines) : (s.withLines l).lines = l := rfl
@[simp] theorem withLines_fault (s : State) (l : Lines) : (s.withLines l).fault = s.fault := rfl
@[simp] theorem withLines_host (s : State) (l : Lines) : (s.withLines l).host = s.host := rfl
@[simp] theorem withLines_trace (s : State) (l : Lines) : (s.withLines l).trace = s.trace := rfl
@[simp] theorem withLines_env (s : State) (l : Lines) : (s.withLines l).env = s.env := rfl
@[simp] theorem withLines_dev (s : State) (l : Lines) : (s.withLines l).dev = s.dev := rfl

/-! ### withFault -/

@[simp] theorem withFault_cfg (s : State) (e : Option HwErr) : (s.withFault e).cfg = s.cfg := rfl
@[simp] theorem withFault_cache (s : State) (e : Option HwErr) : (s.withFault e).cache = s.cache := rfl
@[simp] theorem withFault_canvas (s : State) (e : Option HwErr) : (s.withFault e).canvas = s.canvas := rfl
@[simp] theorem withFault_bus (s : State) (e : Option HwErr) : (s.withFault e).bus = s.bus := rfl
@[simp] theorem withFault_lines (s : State) (e : Option HwErr) : (s.withFault e).lines = s.lines := rfl
@[simp] theorem withFault_fault (s : State) (e : Option HwErr) : (s.withFault e).fault = e := rfl
@[simp] theorem withFault_host (s : State) (e : Option HwErr) : (s.withFault e).host = s.host := rfl
@[simp] theorem withFault_trace (s : State) (e : Option HwErr) : (s.withFault e).trace = s.trace := rfl
@[simp] theorem withFault_env (s : State) (e : Option HwErr) : (s.withFault e).env = s.env := rfl
@[simp] theorem withFault_dev (s : State) (e : Option HwErr) : (s.withFault e).dev = s.dev := rfl

/-! ### withEnv -/

@[simp] theorem withEnv_cfg (s : State) (o : Oracles) : (s.withEnv o).cfg = s.cfg := rfl
@[simp] theorem withEnv_cache (s : State) (o : Oracles) : (s.withEnv o).cache = s.cache := rfl
@[simp] theorem withEnv_canvas (s : State) (o : Oracles) : (s.withEnv o).canvas = s.canvas := rfl
@[simp] theorem withEnv_bus (s : State) (o : Oracles) : (s.withEnv o).bus = s.bus := rfl
@[simp] theorem withEnv_lines (s : State) (o : Oracles) : (s.withEnv o).lines = s.lines := rfl
@[simp] theorem withEnv_fault (s : State) (o : Oracles) : (s.withEnv o).fault = s.fault := rfl
@[simp] theorem withEnv_host (s : State) (o : Oracles) : (s.withEnv o).host = s.host := rfl
@[simp] theorem withEnv_trace (s : State) (o : Oracles) : (s.withEnv o).trace = s.trace := rfl
@[simp] theorem withEnv_env (s : State) (o : Oracles) : (s.withEnv o).env = o := rfl
@[simp] theorem withEnv_dev (s : State) (o : Oracles) : (s.withEnv o).dev = s.dev := rfl

/-! ### withDev -/

@[simp] theorem withDev_cfg (s : State) (d : Option RefDevice) : (s.withDev d).cfg = s.cfg := rfl
@[simp] theorem withDev_cache (s : State) (d : Option RefDevice) : (s.withDev d).cache = s.cache := rfl
@[simp] theorem withDev_canvas (s : State) (d : Option RefDevice) : (s.withDev d).canvas = s.canvas := rfl
@[simp] theorem withDev_bus (s : State) (d : Option RefDevice) : (s.withDev d).bus = s.bus := rfl
@[simp] theorem withDev_lines (s : State) (d : Option RefDevice) : (s.withDev d).lines = s.lines := rfl
@[simp] theorem withDev_fault (s : State) (d : Option RefDevice) : (s.withDev d).fault = s.fault := rfl
@[simp] theorem withDev_host (s : State) (d : Option RefDevice) : (s.withDev d).host = s.host := rfl
@[simp] theorem withDev_trace (s : State) (d : Option RefDevice) : (s.withDev d).trace = s.trace := rfl
@[simp] theorem withDev_env (s : State) (d : Option RefDevice) : (s.withDev d).env = s.env := rfl
@[simp] theorem withDev_dev (s : State) (d : Option RefDevice) : (s.withDev d).dev = d := rfl

/-! ### log -/

@[simp] theorem log_cfg (s : State) (e : Event) : (s.log e).cfg = s.cfg := rfl
@[simp] theorem log_cache (s : State) (e : Event) : (s.log e).cache = s.cache := rfl
@[simp] theorem log_canvas (s : State) (e : Event) : (s.log e).canvas = s.canvas := rfl
@[simp] theorem log_bus (s : State) (e : Event) : (s.log e).bus = s.bus := rfl
@[simp] theorem log_lines (s : State) (e : Event) : (s.log e).lines = s.lines := rfl
@[simp] theorem log_fault (s : State) (e : Event) : (s.log e).fault = s.fault := rfl
@[simp] theorem log_host (s : State) (e : Event) : (s.log e).host = s.host := rfl
@[simp] theorem log_trace (s : State) (e : Event) : (s.log e).trace = s.trace ++ [e] := rfl
@[simp] theorem log_env (s : State) (e : Event) : (s.log e).env = s.env := rfl
@[simp] theorem log_dev (s : State) (e : Event) : (s.log e).dev = s.dev := rfl

/-! ### Updates of the same field, and updates that restore it -/

@[simp] theorem withResult_withResult (s : State) (r r' : OpResult) :
    (s.withResult r).withResult r' = s.withResult r' := rfl

@[simp] theorem withSlots_withSlots (s : State) (l l' : List Glyph) :
    (s.withSlots l).withSlots l' = s.withSlots l' := rfl

@[simp] theorem withSlots_self (s : State) : s.withSlots s.cache.slots = s := rfl

@[simp] theorem withCells_self (s : State) : s.withCells s.canvas.cells = s := rfl

@[simp] theorem withCells_withCells (s : State) (c c' : Cells) :
    (s.withCells c).withCells c' = s.withCells c' := rfl

@[simp] theorem withCells_withResult (s : State) (c : Cells) (r : OpResult) :
    (s.withResult r).withCells c = (s.withCells c).withResult r := rfl

@[simp] theorem withSlots_withResult (s : State) (l : List Glyph) (r : OpResult) :
    (s.withResult r).withSlots l = (s.withSlots l).withResult r := rfl

end Sys2Proof.Machine.State

namespace Sys2Proof.Machine

/-! ### takePin -/

@[simp] theorem takePin_cfg (s : State) : (takePin s).cfg = s.cfg := rfl
@[simp] theorem takePin_cache (s : State) : (takePin s).cache = s.cache := rfl
@[simp] theorem takePin_canvas (s : State) : (takePin s).canvas = s.canvas := rfl
@[simp] theorem takePin_bus (s : State) : (takePin s).bus = s.bus := rfl
@[simp] theorem takePin_lines (s : State) : (takePin s).lines = s.lines := rfl
@[simp] theorem takePin_fault (s : State) : (takePin s).fault = s.fault := rfl
@[simp] theorem takePin_host (s : State) : (takePin s).host = s.host := rfl
@[simp] theorem takePin_trace (s : State) : (takePin s).trace = s.trace := rfl
@[simp] theorem takePin_dev (s : State) : (takePin s).dev = s.dev := rfl

/-! ### takeSample -/

@[simp] theorem takeSample_cfg (s : State) : (takeSample s).cfg = s.cfg := rfl
@[simp] theorem takeSample_cache (s : State) : (takeSample s).cache = s.cache := rfl
@[simp] theorem takeSample_canvas (s : State) : (takeSample s).canvas = s.canvas := rfl
@[simp] theorem takeSample_bus (s : State) : (takeSample s).bus = s.bus := rfl
@[simp] theorem takeSample_lines (s : State) : (takeSample s).lines = s.lines := rfl
@[simp] theorem takeSample_fault (s : State) : (takeSample s).fault = s.fault := rfl
@[simp] theorem takeSample_host (s : State) : (takeSample s).host = s.host := rfl
@[simp] theorem takeSample_trace (s : State) : (takeSample s).trace = s.trace := rfl
@[simp] theorem takeSample_dev (s : State) : (takeSample s).dev = s.dev := rfl

/-! ### The oracles see only the oracles -/

@[simp] theorem pinAnswerAt_withResult (s : State) (r : OpResult) (k : Nat) :
    pinAnswerAt (s.withResult r) k = pinAnswerAt s k := rfl
@[simp] theorem sampleAt_withResult (s : State) (r : OpResult) (k : Nat) :
    sampleAt (s.withResult r) k = sampleAt s k := rfl
@[simp] theorem pinAnswerAt_withPending (s : State) (p : List Request) (k : Nat) :
    pinAnswerAt (s.withPending p) k = pinAnswerAt s k := rfl
@[simp] theorem sampleAt_withPending (s : State) (p : List Request) (k : Nat) :
    sampleAt (s.withPending p) k = sampleAt s k := rfl
@[simp] theorem pinAnswerAt_withSlots (s : State) (l : List Glyph) (k : Nat) :
    pinAnswerAt (s.withSlots l) k = pinAnswerAt s k := rfl
@[simp] theorem sampleAt_withSlots (s : State) (l : List Glyph) (k : Nat) :
    sampleAt (s.withSlots l) k = sampleAt s k := rfl
@[simp] theorem pinAnswerAt_withCells (s : State) (c : Cells) (k : Nat) :
    pinAnswerAt (s.withCells c) k = pinAnswerAt s k := rfl
@[simp] theorem sampleAt_withCells (s : State) (c : Cells) (k : Nat) :
    sampleAt (s.withCells c) k = sampleAt s k := rfl
@[simp] theorem pinAnswerAt_withCanvas (s : State) (c : Canvas) (k : Nat) :
    pinAnswerAt (s.withCanvas c) k = pinAnswerAt s k := rfl
@[simp] theorem sampleAt_withCanvas (s : State) (c : Canvas) (k : Nat) :
    sampleAt (s.withCanvas c) k = sampleAt s k := rfl
@[simp] theorem pinAnswerAt_withBusDir (s : State) (d : BusDir) (k : Nat) :
    pinAnswerAt (s.withBusDir d) k = pinAnswerAt s k := rfl
@[simp] theorem sampleAt_withBusDir (s : State) (d : BusDir) (k : Nat) :
    sampleAt (s.withBusDir d) k = sampleAt s k := rfl
@[simp] theorem pinAnswerAt_withBusOut (s : State) (b : Byte) (k : Nat) :
    pinAnswerAt (s.withBusOut b) k = pinAnswerAt s k := rfl
@[simp] theorem sampleAt_withBusOut (s : State) (b : Byte) (k : Nat) :
    sampleAt (s.withBusOut b) k = sampleAt s k := rfl
@[simp] theorem pinAnswerAt_withLines (s : State) (l : Lines) (k : Nat) :
    pinAnswerAt (s.withLines l) k = pinAnswerAt s k := rfl
@[simp] theorem sampleAt_withLines (s : State) (l : Lines) (k : Nat) :
    sampleAt (s.withLines l) k = sampleAt s k := rfl
@[simp] theorem pinAnswerAt_withFault (s : State) (e : Option HwErr) (k : Nat) :
    pinAnswerAt (s.withFault e) k = pinAnswerAt s k := rfl
@[simp] theorem sampleAt_withFault (s : State) (e : Option HwErr) (k : Nat) :
    sampleAt (s.withFault e) k = sampleAt s k := rfl
@[simp] theorem pinAnswerAt_withDev (s : State) (d : Option RefDevice) (k : Nat) :
    pinAnswerAt (s.withDev d) k = pinAnswerAt s k := rfl
@[simp] theorem sampleAt_withDev (s : State) (d : Option RefDevice) (k : Nat) :
    sampleAt (s.withDev d) k = sampleAt s k := rfl
@[simp] theorem pinAnswerAt_log (s : State) (e : Event) (k : Nat) :
    pinAnswerAt (s.log e) k = pinAnswerAt s k := rfl
@[simp] theorem sampleAt_log (s : State) (e : Event) (k : Nat) :
    sampleAt (s.log e) k = sampleAt s k := rfl

@[simp] theorem pinAnswerAt_takeSample (s : State) (k : Nat) :
    pinAnswerAt (takeSample s) k = pinAnswerAt s k := rfl

@[simp] theorem sampleAt_takePin (s : State) (k : Nat) : sampleAt (takePin s) k = sampleAt s k := rfl

/-- After one answer the next ones move up by one. -/
@[simp] theorem pinAnswerAt_takePin (s : State) (k : Nat) :
    pinAnswerAt (takePin s) k = pinAnswerAt s (k + 1) := by
  cases hs : s.env.pinScript <;> simp [pinAnswerAt, takePin, hs, Nat.add_assoc, Nat.add_comm 1 k]

/-- After one sample the next ones move up by one. -/
@[simp] theorem sampleAt_takeSample (s : State) (k : Nat) :
    sampleAt (takeSample s) k = sampleAt s (k + 1) := by
  cases hs : s.env.sampleScript <;> simp [sampleAt, takeSample, hs, Nat.add_assoc, Nat.add_comm 1 k]

end Sys2Proof.Machine
end

