-- ==== Sys2Proof/Laws/Cache.lean ====
section
/-! SUPPORT. The laws of glyph equality, the font, the ROM and the cache: what a legal table guarantees, what a
search answers, and everything CACHE_RESOLVE can do. -/

namespace Sys2Proof.Machine

/-! ### Glyph equality (R32, R122) -/

theorem all_zip_eq : ∀ l m : List Byte, l.length = m.length →
    ((l.zip m).all (fun p => p.1 == p.2) = true ↔ l = m)
  | [], [], _ => by simp
  | a :: l, b :: m, h => by simp [all_zip_eq l m (by simpa using h)]

/-- Comparing the rows is comparing the glyphs. -/
theorem glyphEq_eq (g h : Glyph) : glyphEq g h = decide (g = h) := by
  rw [Bool.eq_iff_iff, decide_eq_true_eq]
  unfold glyphEq
  rw [all_zip_eq _ _ (by simp), Vector.toList_inj]

/-- The bits a distance counts in one row: the five visible ones. -/
theorem popcount_visible (b : Byte) :
    popcount (b &&& 0x1F#8) = (List.finRange 5).countP fun k : Fin 5 => b.getLsbD k := by
  revert b; decide

/-! ### Legal tables (R13, R14) -/

theorem font_is_legal (f : FontTable) :
    (f.entries.map Prod.fst).Nodup ∧ ∀ e ∈ f.entries, ∀ r : Fin 8, e.2[r] ≤ 0x1F#8 := by
  have h := f.legal
  unfold fontProblem at h
  split at h
  · rename_i h1
    split at h
    · rename_i h2
      refine ⟨h1, ?_⟩
      intro e he r
      simp only [List.all_eq_true, decide_eq_true_eq] at h2
      exact h2 e he _ (by simp)
    · cases h
  · cases h

theorem rom_is_legal (m : RomTable) :
    (m.entries.map Prod.fst).Nodup ∧ (m.entries.map Prod.snd).Nodup ∧ (∃ a, (Glyph.blank, a) ∈ m.entries) ∧
      ∀ e ∈ m.entries, 0x0F#8 < e.2 := by
  have h := m.legal
  unfold romProblem at h
  split at h
  · rename_i h1
    split at h
    · rename_i h2
      split at h
      · rename_i h3
        split at h
        · rename_i h4
          refine ⟨h1, h2, ?_, by simpa using h4⟩
          simp only [List.any_eq_true, decide_eq_true_eq] at h3
          obtain ⟨⟨g, a⟩, hm, rfl⟩ := h3
          exact ⟨a, hm⟩
        · cases h
      · cases h
    · cases h
  · cases h

/-! ### Searches -/

theorem lookup_of_mem {α β : Type} [DecidableEq α] {l : List (α × β)} (h : (l.map Prod.fst).Nodup) {a : α} {b : β}
    (hm : (a, b) ∈ l) : l.lookup a = some b := by
  induction l with
  | nil => cases hm
  | cons e l ih =>
    obtain ⟨k, v⟩ := e
    simp only [List.map_cons, List.nodup_cons] at h
    rcases List.mem_cons.mp hm with he | hm'
    · cases he; simp
    · have hne : a ≠ k := by rintro rfl; exact h.1 (List.mem_map.mpr ⟨(_, _), hm', rfl⟩)
      rw [List.lookup_cons, ih h.2 hm']
      simp [beq_false_of_ne hne]

theorem lookup_of_not_mem {α β : Type} [DecidableEq α] {l : List (α × β)} {a : α} (h : ∀ b, (a, b) ∉ l) :
    l.lookup a = none := by
  rw [List.lookup_eq_none_iff]
  rintro ⟨k, b⟩ hp
  rw [bne_iff_ne]
  rintro rfl
  exact h _ hp

theorem romSearch_mem {rom : RomTable} {g : Glyph} {a : Byte} (h : (g, a) ∈ rom.entries) :
    romSearch rom g = some a := by
  obtain ⟨h1, -⟩ := rom_is_legal rom
  unfold romSearch
  simp only [glyphEq_eq]
  revert h h1
  generalize rom.entries = l
  intro h h1
  induction l with
  | nil => cases h
  | cons e l ih =>
    obtain ⟨k, v⟩ := e
    simp only [List.map_cons, List.nodup_cons] at h1
    rcases List.mem_cons.mp h with he | hm
    · cases he; simp
    · have hne : k ≠ g := by rintro rfl; exact h1.1 (List.mem_map.mpr ⟨(_, _), hm, rfl⟩)
      rw [List.find?_cons]
      simp only [hne, decide_false]
      exact ih hm h1.2

theorem romSearch_not_mem {rom : RomTable} {g : Glyph} (h : ∀ a, (g, a) ∉ rom.entries) :
    romSearch rom g = none := by
  unfold romSearch
  simp only [glyphEq_eq, Option.map_eq_none_iff, List.find?_eq_none, decide_eq_true_eq]
  rintro ⟨k, a⟩ hm rfl
  exact h _ hm

theorem mem_of_romSearch {rom : RomTable} {g : Glyph} {a : Byte} (h : romSearch rom g = some a) :
    (g, a) ∈ rom.entries := by
  by_cases h2 : ∃ b, (g, b) ∈ rom.entries
  · obtain ⟨b, hb⟩ := h2
    rw [romSearch_mem hb] at h
    cases h
    exact hb
  · rw [romSearch_not_mem (by simpa using h2)] at h
    cases h

/-- `BLANK_ADDR` is the blank glyph's address (R15). -/
theorem blankAddr_mem (rom : RomTable) : (Glyph.blank, blankAddr rom) ∈ rom.entries := by
  obtain ⟨-, -, ⟨a, ha⟩, -⟩ := rom_is_legal rom
  rw [blankAddr, romSearch_mem ha]
  exact ha

/-- No ROM address is a slot code (R14). -/
theorem slotCode_lt_romSearch {rom : RomTable} {g : Glyph} {a : Byte} (h : romSearch rom g = some a) :
    0x0F#8 < a := (rom_is_legal rom).2.2.2 _ (mem_of_romSearch h)

/-! ### The cache -/

theorem resolve_rom {rom : RomTable} {g : Glyph} {a : Byte} (slots : List Glyph) (h : romSearch rom g = some a) :
    resolve rom slots g = (a, slots) := by
  simp [resolve, h]

theorem resolve_hit {rom : RomTable} {g : Glyph} {slots : List Glyph} {i : Nat} (h : romSearch rom g = none)
    (hi : slots[i]? = some g) (hf : ∀ j, j < i → slots[j]? ≠ some g) :
    resolve rom slots g = (slotCode i, slots) := by
  have found : slots.findIdx? (fun h => glyphEq h g) = some i := by
    simp only [glyphEq_eq]
    rw [List.findIdx?_eq_some_iff_getElem]
    obtain ⟨hl, he⟩ := List.getElem?_eq_some_iff.mp hi
    refine ⟨hl, by simp [he], fun j hj => ?_⟩
    have := hf j hj
    rw [List.getElem?_eq_getElem (by omega)] at this
    simpa using this
  simp [resolve, h, found]

theorem resolve_miss {rom : RomTable} {g : Glyph} {slots : List Glyph} (h : romSearch rom g = none)
    (hi : g ∉ slots) : resolve rom slots g =
      if slots.length < cacheSlots then (slotCode slots.length, slots ++ [g]) else (blankAddr rom, slots) := by
  have missed : slots.findIdx? (fun h => glyphEq h g) = none := by
    simp only [glyphEq_eq]
    rw [List.findIdx?_eq_none_iff]
    intro x hx
    simp only [decide_eq_false_iff_not]
    rintro rfl
    exact hi hx
  simp [resolve, h, missed]

/-- Everything CACHE_RESOLVE can do (R142, steps 1 to 4). -/
theorem resolve_cases (rom : RomTable) (slots : List Glyph) (g : Glyph) :
    (∃ a, romSearch rom g = some a ∧ resolve rom slots g = (a, slots)) ∨
    (romSearch rom g = none ∧ g ∈ slots ∧ resolve rom slots g = (slotCode (slots.idxOf g), slots)) ∨
    (romSearch rom g = none ∧ g ∉ slots ∧ slots.length < cacheSlots ∧
      resolve rom slots g = (slotCode slots.length, slots ++ [g])) ∨
    (romSearch rom g = none ∧ g ∉ slots ∧ cacheSlots ≤ slots.length ∧
      resolve rom slots g = (blankAddr rom, slots)) := by
  cases h : romSearch rom g with
  | some a => exact .inl ⟨a, rfl, resolve_rom _ h⟩
  | none =>
    right
    by_cases hm : g ∈ slots
    · left
      refine ⟨rfl, hm, resolve_hit h (List.getElem?_idxOf hm) ?_⟩
      intro j hj he
      obtain ⟨hl, he⟩ := List.getElem?_eq_some_iff.mp he
      subst he
      have := (List.mem_take_iff_idxOf_lt (n := j + 1) hm).mp
        (by rw [List.mem_take_iff_getElem]; exact ⟨j, by omega, rfl⟩)
      omega
    · right
      by_cases hl : slots.length < cacheSlots
      · exact .inl ⟨rfl, hm, hl, by simp [resolve_miss h hm, hl]⟩
      · exact .inr ⟨rfl, hm, by omega, by simp [resolve_miss h hm, hl]⟩

/-- A slot, once assigned, stays: the slots only grow at their end (R141). -/
theorem resolve_grows (rom : RomTable) (slots : List Glyph) (g : Glyph) : slots <+: (resolve rom slots g).2 := by
  rcases resolve_cases rom slots g with ⟨a, h1, h2⟩ | ⟨h1, h2, h3⟩ | ⟨h1, h2, h3, h4⟩ | ⟨h1, h2, h3, h4⟩ <;>
    simp [*]

theorem cacheLegal_nil (rom : RomTable) : cacheLegal rom [] := ⟨by simp, by simp, by simp⟩

/-- CACHE_RESOLVE keeps the cache legal (R37). -/
theorem cacheLegal_resolve {rom : RomTable} {slots : List Glyph} (g : Glyph) (h : cacheLegal rom slots) :
    cacheLegal rom (resolve rom slots g).2 := by
  rcases resolve_cases rom slots g with ⟨a, h1, h2⟩ | ⟨h1, h2, h3⟩ | ⟨h1, h2, h3, h4⟩ | ⟨h1, h2, h3, h4⟩
  · rw [h2]; exact h
  · rw [h3]; exact h
  · rw [h4]
    obtain ⟨a, b, c⟩ := h
    refine ⟨?_, ?_, ?_⟩
    · rw [List.nodup_append]
      refine ⟨a, by simp, ?_⟩
      intro x hx y hy
      rw [List.mem_singleton] at hy
      subst hy
      rintro rfl
      exact h2 hx
    · intro x hx
      rw [List.mem_append, List.mem_singleton] at hx
      rcases hx with hx | rfl
      · exact b _ hx
      · exact h1
    · rw [List.length_append, List.length_singleton]
      omega
  · rw [h4]; exact h

theorem flattenSlots_cons (g : Glyph) (slots : List Glyph) :
    flattenSlots (g :: slots) = g.toList ++ flattenSlots slots := rfl

theorem flattenSlots_length (slots : List Glyph) : (flattenSlots slots).length = 8 * slots.length := by
  induction slots with
  | nil => rfl
  | cons g l ih => rw [flattenSlots_cons]; simp [ih, Nat.mul_add, Nat.add_comm]

/-- Byte `8i + r` of the flattened slots is row r of slot i (R146). -/
theorem flattenSlots_getElem? (slots : List Glyph) : ∀ (i : Nat) (r : Fin 8) (g : Glyph), slots[i]? = some g →
    (flattenSlots slots)[8 * i + r]? = some g[r] := by
  induction slots with
  | nil => intro i r g h; simp at h
  | cons a l ih =>
    intro i r g h
    rw [flattenSlots_cons]
    cases i with
    | zero =>
      simp at h
      subst h
      rw [List.getElem?_append_left (by simp)]
      simp
    | succ i =>
      simp at h
      rw [List.getElem?_append_right (by simp; omega), ← ih i r g h]
      congr 1
      simp
      omega

end Sys2Proof.Machine
end

