-- ==== Sys2Proof/Laws/Canvas.lean ====
section
/-! SUPPORT. The laws of the canvas: one bit of a shifted row, the bound of a shifted row, one more character of a
text, one bit of a row string; and that every canvas operation keeps rows within 6 bits. -/

namespace Sys2Proof.Machine

/-! ### The shift (R166) -/

theorem rowMask_bit (p : Gap) {k : Nat} (hk : k < 8) :
    (rowMask p).getLsbD k = decide (k < if p = .skip then 5 else 6) := by
  cases p <;> interval_cases k <;> rfl

theorem getLsbD_shift_or (row m next : Byte) (n k : Nat) (hk : k < 8) :
    (((row <<< 1) &&& m) ||| ((next >>> n) &&& 1#8)).getLsbD k =
      if k = 0 then next.getLsbD n else m.getLsbD k && row.getLsbD (k - 1) := by
  rcases Nat.eq_zero_or_pos k with rfl | hk0
  · simp
  · have hne : ¬ k = 0 := by omega
    have h1 : (1#8).getLsbD k = false := by rw [BitVec.getLsbD_one]; simp [hne]
    simp only [BitVec.getLsbD_or, BitVec.getLsbD_and, BitVec.getLsbD_shiftLeft, h1, hne, hk]
    simp [Bool.and_comm, show ¬ k < 1 by omega]

/-- One bit of a shifted row, by the mask's width and the carried bit. -/
theorem shiftRow_bit (reading : CarryReading) (p : Gap) (row next : Byte) (k : Fin 8) :
    (shiftRow reading p row next).getLsbD k =
      (let W := if p = .skip then 5 else 6
       let cb := if reading = .fixedHiddenBit then 5 else W - 1
       if k.val = 0 then next.getLsbD cb else decide (k.val < W) && row.getLsbD (k.val - 1)) := by
  unfold shiftRow
  rw [getLsbD_shift_or _ _ _ _ _ k.isLt, rowMask_bit p k.isLt]
  cases reading <;> cases p <;> simp [carryBit]

/-- One row of the shifted canvas. -/
theorem shiftCells_row (reading : CarryReading) (p : Gap) (cells : Cells) (c : Fin 16) (r : Fin 8) :
    (shiftCells reading p cells)[c][r] = shiftRow reading p cells[c][r] cells[c + 1][r] := by
  simp [shiftCells, shiftCell]

/-- A shifted row is within its mask. -/
theorem shiftRow_le (reading : CarryReading) (p : Gap) (row next : Byte) :
    shiftRow reading p row next ≤ rowMask p := by
  have carry : ∀ c : Byte, c &&& 1#8 = 0#8 ∨ c &&& 1#8 = 1#8 := by decide
  rcases carry (next >>> carryBit reading p) with h | h <;> cases p <;> simp only [shiftRow, rowMask, h] <;>
    (clear h; revert row; decide)

theorem rowsWithin_shiftCells (reading : CarryReading) (p : Gap) (cells : Cells) :
    rowsWithin (shiftCells reading p cells) 0x3F#8 := by
  intro c r
  rw [shiftCells_row]
  exact BitVec.le_trans (shiftRow_le reading p _ _) (by cases p <;> decide)

/-! ### Writing (R162) -/

/-- One more character at the end of a text is one more round of the loop. -/
theorem writeCells_append (cfg : Config) (p : Gap) (text : List Char) (c : Char) : ∀ (k : Nat) (cells : Cells),
    writeCells cfg p k (text ++ [c]) cells = writeCells cfg p (k + text.length) [c] (writeCells cfg p k text cells) := by
  induction text with
  | nil => intro k cells; simp [writeCells]
  | cons a text ih =>
    intro k cells
    simp only [List.cons_append, writeCells]
    rw [ih]
    simp [writeCells, Nat.add_assoc, Nat.add_comm 1]

/-- A rendered glyph has no hidden bit (R13, R120). -/
theorem renderGlyph_le (f : FontTable) (c : Char) (r : Fin 8) : (renderGlyph f c)[r] ≤ 0x1F#8 := by
  unfold renderGlyph
  split
  · rename_i g hg
    rw [List.lookup_eq_some_iff] at hg
    obtain ⟨l1, l2, e, -⟩ := hg
    exact (font_is_legal f).2 (c, g) (by rw [e]; simp) r
  · simp [Glyph.blank]

theorem rowsWithin_set {cells : Cells} (h : rowsWithin cells 0x3F#8) {k : Nat} (hk : k < 16) {g : Glyph}
    (hg : ∀ r : Fin 8, g[r] ≤ 0x3F#8) : rowsWithin (cells.set k g hk) 0x3F#8 := by
  intro c r
  by_cases hkc : k = c.val
  · have e : (cells.set k g hk)[c] = g := by simp [hkc]
    simp only [e]
    exact hg r
  · have e : (cells.set k g hk)[c] = cells[c] := by simp [hkc]
    simp only [e]
    exact h c r

theorem rowsWithin_writeCells (cfg : Config) (p : Gap) (text : List Char) : ∀ (k : Nat) (cells : Cells),
    rowsWithin cells 0x3F#8 → rowsWithin (writeCells cfg p k text cells) 0x3F#8 := by
  induction text with
  | nil => intro k cells h; exact h
  | cons a text ih =>
    intro k cells h
    simp only [writeCells]
    refine ih _ _ (rowsWithin_set ?_ _ fun r => BitVec.le_trans (renderGlyph_le _ _ r) (by decide))
    cases p
    · exact rowsWithin_shiftCells _ _ _
    · exact h

/-! ### Row strings (R167) -/

theorem rowString_length (width : Nat) (cells : Cells) (r : Fin 8) :
    (rowString width cells r).length = 16 * width := by
  simp [rowString, List.length_flatMap]
  omega

theorem flatMap_getElem? {α β : Type} (w : Nat) (f : α → List β) (hf : ∀ x, (f x).length = w) :
    ∀ (l : List α) (c j : Nat) (hc : c < l.length), j < w → (l.flatMap f)[c * w + j]? = (f l[c])[j]? := by
  intro l
  induction l with
  | nil => intro c j hc; simp at hc
  | cons a l ih =>
    intro c j hc hj
    rw [List.flatMap_cons]
    cases c with
    | zero => rw [List.getElem?_append_left (by rw [hf]; omega)]; simp
    | succ c =>
      rw [List.getElem?_append_right (by rw [hf, Nat.add_mul]; omega), hf,
        show (c + 1) * w + j - w = c * w + j by rw [Nat.add_mul]; omega, ih c j (by simpa using hc) hj]
      rfl

/-- Bit `j` of cell `c`'s part of a row string, the top bit of the part first. -/
theorem rowString_getElem? (width : Nat) (cells : Cells) (r : Fin 8) (c : Fin 16) {j : Nat} (hj : j < width) :
    (rowString width cells r)[c.val * width + j]? = some (cells[c][r].getLsbD (width - 1 - j)) := by
  unfold rowString
  rw [flatMap_getElem? width _ (by simp) _ _ _ (by simp) hj]
  simp [hj]

end Sys2Proof.Machine
end

