-- ==== Sys2Proof/Laws/Codec.lean ====
section
/-! SUPPORT. The laws of the operand readers: each reads back what its writer puts in front of any bytes, and
hands over the bytes behind it. And what the wire decoder reads from a word built from its parts. -/

namespace Sys2Proof

theorem getByte_put (b : Byte) (rest : List Byte) : getByte ([b] ++ rest) = some (b, rest) := rfl

theorem getBool_put (v : Bool) (rest : List Byte) : getBool (putBool v ++ rest) = some (v, rest) := by
  cases v <;> rfl

theorem getGap_put (p : Gap) (rest : List Byte) : getGap (putGap p ++ rest) = some (p, rest) := by
  cases p <;> rfl

/-- A character's three bytes stand for its scalar value. -/
theorem getChar_put (c : Char) (rest : List Byte) : getChar (putChar c ++ rest) = some (c, rest) := by
  have hv : c.toNat.isValidChar := c.valid
  have hlt : c.toNat < 0x110000 := by
    rcases hv with h | h <;> omega
  have value : (BitVec.ofNat 8 c.toNat).toNat + 256 * (BitVec.ofNat 8 (c.toNat / 256)).toNat
      + 65536 * (BitVec.ofNat 8 (c.toNat / 65536)).toNat = c.toNat := by
    simp only [BitVec.toNat_ofNat]; omega
  simp only [putChar, List.cons_append, List.nil_append, getChar, value, hv, if_true]
  rw [Char.ofNat_toNat]

theorem getGlyph_put (g : Glyph) (rest : List Byte) : getGlyph (g.toList ++ rest) = some (g, rest) := by
  obtain ⟨⟨l⟩, h⟩ := g
  simp at h
  match l, h with
  | [_, _, _, _, _, _, _, _], _ => rfl

theorem getImage_put (d : Image) (rest : List Byte) : getImage (d.toList ++ rest) = some (d, rest) := by
  obtain ⟨⟨l⟩, h⟩ := d
  simp at h
  match l, h with
  | [_, _, _, _, _, _, _, _, _, _, _, _, _, _, _, _], _ => rfl

theorem getOption_put {α : Type} {get : List Byte → Option (α × List Byte)} {put : α → List Byte}
    (h : ∀ x rest, get (put x ++ rest) = some (x, rest)) (o : Option α) (rest : List Byte) :
    getOption get (putOption put o ++ rest) = some (o, rest) := by
  cases o <;> simp [putOption, getOption, h]

theorem getListFuel_put {α : Type} {get : List Byte → Option (α × List Byte)} {put : α → List Byte}
    (h : ∀ x rest, get (put x ++ rest) = some (x, rest)) (l : List α) :
    ∀ (rest : List Byte) (fuel : Nat), l.length < fuel →
      getListFuel get fuel (putList put l ++ rest) = some (l, rest) := by
  induction l with
  | nil =>
    intro rest fuel hf
    obtain ⟨f, rfl⟩ : ∃ f, fuel = f + 1 := ⟨fuel - 1, by omega⟩
    simp [putList, getListFuel]
  | cons x xs ih =>
    intro rest fuel hf
    obtain ⟨f, rfl⟩ : ∃ f, fuel = f + 1 := ⟨fuel - 1, by omega⟩
    simp only [List.length_cons] at hf
    simp [putList, getListFuel, List.append_assoc, h, ih rest f (by omega)]

/-- A list operand has more bytes than items. -/
theorem putList_length {α : Type} (put : α → List Byte) (l : List α) : l.length < (putList put l).length := by
  induction l with
  | nil => simp [putList]
  | cons x xs ih => simp [putList]; omega

theorem getList_put {α : Type} {get : List Byte → Option (α × List Byte)} {put : α → List Byte}
    (h : ∀ x rest, get (put x ++ rest) = some (x, rest)) (l : List α) (rest : List Byte) :
    getList get (putList put l ++ rest) = some (l, rest) :=
  getListFuel_put h l rest _ (by have := putList_length put l; simp; omega)

theorem getCommand_put (cmd : Command) (rest : List Byte) :
    getCommand (putCommand cmd ++ rest) = some (cmd, rest) := by
  cases cmd with
  | entryMode d s => cases d <;> cases s <;> rfl
  | onOff d c b => cases d <;> cases c <;> cases b <;> rfl
  | shift t d => cases t <;> cases d <;> rfl
  | functionSet n f => cases n <;> cases f <;> rfl
  | clear | returnHome | setGlyphRamAddress _ | setDisplayRamAddress _ => rfl

theorem getDiffOp_put (item : DiffOp) (rest : List Byte) :
    getDiffOp (putDiffOp item ++ rest) = some (item, rest) := by
  cases item <;> rfl

/-! ### Wire words -/

theorem decodeWire_command (b : Byte) : decodeWire (wireWord false false b) = decodeCommand b := by
  revert b; decide

theorem decodeWire_data (b : Byte) : decodeWire (wireWord true false b) = some (.writeData b) := by
  revert b; decide

theorem decodeWire_readAc (b : Byte) : decodeWire (wireWord false true b) = some .readBfAc := by
  revert b; decide

theorem decodeWire_readData (b : Byte) : decodeWire (wireWord true true b) = some .readData := by
  revert b; decide

/-- An address within its 6-bit field is read back from its command byte. -/
theorem decodeCommand_cgram (a : BitVec 6) :
    decodeCommand (commandByte (.setGlyphRamAddress (a.setWidth 8))) = some (.setCgramAddr a) := by
  revert a; decide

/-- An address within its 7-bit field is read back from its command byte. -/
theorem decodeCommand_ddram (a : BitVec 7) :
    decodeCommand (commandByte (.setDisplayRamAddress (a.setWidth 8))) = some (.setDdramAddr a) := by
  revert a; decide

end Sys2Proof
end

