-- ==== Sys2Proof/Laws/Memory.lean ====
section
/-! SUPPORT. The laws of the reference device's memories (read after write, every other address, canonical
form, address range), and that every latched operation keeps them. -/

namespace Sys2Proof.Machine

/-- A read after a write to the same address gives the byte written. -/
@[simp] theorem Memory.read_write_same (m : Memory) (x : Nat) (v : Byte) : (m.write x v).read x = some v := by
  induction m with
  | nil => simp [Memory.write, Memory.read]
  | cons e rest ih =>
    obtain ⟨a, b⟩ := e
    by_cases h1 : x < a
    · simp [Memory.write, Memory.read, h1]
    · by_cases h2 : x = a
      · simp [Memory.write, Memory.read, h2]
      · simp [Memory.write, Memory.read, h1, h2, Ne.symm h2, ih]

/-- A write leaves every other address alone. -/
theorem Memory.read_write_other (m : Memory) {x y : Nat} (v : Byte) (h : y ≠ x) :
    (m.write x v).read y = m.read y := by
  induction m with
  | nil => simp [Memory.write, Memory.read, Ne.symm h]
  | cons e rest ih =>
    obtain ⟨a, b⟩ := e
    by_cases h1 : x < a
    · simp [Memory.write, Memory.read, h1, Ne.symm h]
    · by_cases h2 : x = a
      · subst h2
        simp [Memory.write, Memory.read, Ne.symm h]
      · simp only [Memory.write, h1, h2, if_false, Memory.read, ih]

/-- The addresses listed after a write. -/
theorem Memory.mem_keys_write (m : Memory) (x : Nat) (v : Byte) (a : Nat) :
    a ∈ (m.write x v).map Prod.fst ↔ a = x ∨ a ∈ m.map Prod.fst := by
  induction m with
  | nil => simp [Memory.write]
  | cons e rest ih =>
    obtain ⟨k, b⟩ := e
    by_cases h1 : x < k
    · simp [Memory.write, h1]
    · by_cases h2 : x = k
      · subst h2
        simp [Memory.write]
      · have step : (Memory.write ((k, b) :: rest) x v) = (k, b) :: Memory.write rest x v := by
          simp [Memory.write, h1, h2]
        rw [step, List.map_cons, List.mem_cons, List.map_cons, List.mem_cons, ih]
        tauto

/-- A write keeps the canonical form. -/
theorem Memory.wf_write {m : Memory} (h : m.wf) (x : Nat) (v : Byte) : (m.write x v).wf := by
  induction m with
  | nil => simp [Memory.write, Memory.wf]
  | cons e rest ih =>
    obtain ⟨k, b⟩ := e
    have hk : ∀ a ∈ rest.map Prod.fst, k < a := (List.pairwise_cons.mp h).1
    have hrest : Memory.wf rest := (List.pairwise_cons.mp h).2
    by_cases h1 : x < k
    · simp only [Memory.write, h1, if_true, Memory.wf, List.map_cons]
      refine List.pairwise_cons.mpr ⟨?_, h⟩
      intro a ha
      rcases List.mem_cons.mp ha with rfl | ha
      · exact h1
      · exact lt_trans h1 (hk a ha)
    · by_cases h2 : x = k
      · subst h2
        simpa [Memory.write, Memory.wf] using h
      · simp only [Memory.write, h1, h2, if_false, Memory.wf, List.map_cons]
        refine List.pairwise_cons.mpr ⟨?_, ih hrest⟩
        intro a ha
        rcases (Memory.mem_keys_write rest x v a).mp ha with rfl | ha
        · omega
        · exact hk a ha

/-- A write inside the memory's address space keeps every address inside it. -/
theorem Memory.within_write {m : Memory} {size : Nat} (h : m.within size) {x : Nat} (hx : x < size) (v : Byte) :
    (m.write x v).within size := by
  intro a ha
  rcases (Memory.mem_keys_write m x v a).mp ha with rfl | ha
  · exact hx
  · exact h a ha

/-- A data write keeps the device's memories canonical and inside their address spaces. -/
theorem RefDevice.wf_writeData {d : RefDevice} (h : d.wf) (b : Byte) : (d.writeData b).wf := by
  obtain ⟨h1, h2, h3, h4⟩ := h
  cases hr : d.region with
  | dd =>
    simp only [RefDevice.writeData, hr]
    exact ⟨Memory.wf_write h1 _ _, Memory.within_write h2 (by have := d.ac.isLt; omega) _, h3, h4⟩
  | cg =>
    simp only [RefDevice.writeData, hr]
    exact ⟨h1, h2, Memory.wf_write h3 _ _,
      Memory.within_write h4 (Nat.mod_lt _ (by decide)) _⟩

/-! ### Latched words (R74 to R77) -/

theorem RefDevice.accept_data (d : RefDevice) (b : Byte) :
    d.accept (wireWord true false b) = some (d.writeData b) := by
  unfold RefDevice.accept
  rw [decodeWire_data]

theorem RefDevice.accept_readData (d : RefDevice) : d.accept (wireWord true true 0#8) = some d.readData := by
  unfold RefDevice.accept
  rw [decodeWire_readData]

theorem RefDevice.accept_readAc (d : RefDevice) : d.accept (wireWord false true 0#8) = some d := by
  unfold RefDevice.accept
  rw [decodeWire_readAc]

theorem RefDevice.accept_setCgramAddr (d : RefDevice) (a : BitVec 6) :
    d.accept (wireWord false false (commandByte (.setGlyphRamAddress (a.setWidth 8)))) =
      some { d with region := .cg, ac := a.setWidth 7 } := by
  unfold RefDevice.accept
  rw [decodeWire_command, decodeCommand_cgram]

theorem RefDevice.accept_setDdramAddr (d : RefDevice) (a : BitVec 7) :
    d.accept (wireWord false false (commandByte (.setDisplayRamAddress (a.setWidth 8)))) =
      some { d with region := .dd, ac := a } := by
  unfold RefDevice.accept
  rw [decodeWire_command, decodeCommand_ddram]

/-- Everything one latched operation can do to the device: nothing to its memories but a data write's own
store. -/
theorem RefDevice.accept_cases {d d' : RefDevice} {w : BitVec 10} (h : d.accept w = some d') :
    (∃ b, decodeWire w = some (.writeData b) ∧ d' = d.writeData b) ∨
      (d'.ddram = d.ddram ∧ d'.cgram = d.cgram) := by
  unfold RefDevice.accept at h
  split at h
  all_goals first | (cases h; exact .inr ⟨rfl, rfl⟩) | (cases h; exact .inl ⟨_, by assumption, rfl⟩) | cases h

/-- A latched operation keeps the device's memories canonical and inside their address spaces. -/
theorem RefDevice.wf_accept {d d' : RefDevice} {w : BitVec 10} (hd : d.wf) (h : d.accept w = some d') : d'.wf := by
  rcases RefDevice.accept_cases h with ⟨b, -, rfl⟩ | ⟨h1, h2⟩
  · exact RefDevice.wf_writeData hd b
  · simpa [RefDevice.wf, h1, h2] using hd

end Sys2Proof.Machine
end

