-- ==== Sys2Proof/Laws/Ops.lean ====
section
/-! SUPPORT. What each shared operation does: where a pin operation is answered `Ok`, the state it leaves; and,
on every path, everything a sequence of steps can do to the state (`PinSteps`, `Ran.Keeps`), said once. -/

namespace Sys2Proof.Machine

/-! ### Sequencing -/

@[simp] theorem Ran.andThen_ok {α β : Type} (v : α) (s : State) (k : α → State → Ran β) :
    (Ran.ok v s).andThen k = k v s := rfl

@[simp] theorem Ran.andThen_failed {α β : Type} (e : OpError) (s : State) (k : α → State → Ran β) :
    (Ran.failed e s).andThen k = .failed e s := rfl

@[simp] theorem Ran.close_ok {α : Type} (v : α) (s : State) (f : α → OpResult) :
    (Ran.ok v s).close f = s.withResult (f v) := rfl

@[simp] theorem Ran.close_failed {α : Type} (e : OpError) (s : State) (f : α → OpResult) :
    (Ran.failed e s : Ran α).close f = s.withResult (.error e) := rfl

theorem Ran.andThen_assoc {α β γ : Type} (r : Ran α) (k : α → State → Ran β) (l : β → State → Ran γ) :
    (r.andThen k).andThen l = r.andThen fun v s => (k v s).andThen l := by
  cases r <;> rfl

/-- With no fault recorded, the first check lets the operation run. -/
theorem unlessFaulted_of_none {s : State} (h : s.fault = none) (run : Host.Outcome State Fault Refusal) :
    unlessFaulted s run = run := by
  simp [unlessFaulted, faulted, h]

/-- With a fault recorded, the first check refuses. -/
theorem unlessFaulted_of_some {s : State} {e : HwErr} (h : s.fault = some e)
    (run : Host.Outcome State Fault Refusal) : unlessFaulted s run = .refused .stickyFault := by
  simp [unlessFaulted, faulted, h]

/-- An operation that is not refused had no fault recorded and ran. -/
theorem unlessFaulted_next {s t : State} {run : Host.Outcome State Fault Refusal}
    (h : unlessFaulted s run = .next t) : s.fault = none ∧ run = .next t := by
  cases hf : s.fault with
  | none => exact ⟨rfl, by rwa [unlessFaulted_of_none hf] at h⟩
  | some e => rw [unlessFaulted_of_some hf] at h; cases h

/-! ### Pin operations answered `Ok` -/

theorem pin_ok {s : State} (ev : Event) (h : pinAnswerAt s 0 = .ok) : pin ev s = .ok () ((takePin s).log ev) := by
  simp [pin, h]

theorem pin_err {s : State} {e : HwErr} (ev : Event) (h : pinAnswerAt s 0 = .err e) :
    pin ev s = .failed (.hwError e) (((takePin s).log ev).withFault (some e)) := by
  simp [pin, h, raiseHwError]

theorem setLine_ok {s : State} (l : ControlLine) (v : Bool) (h : pinAnswerAt s 0 = .ok) :
    setLine l v s = .ok () ((((takePin s).log (.line l v)).withDev
      (deviceSees ((takePin s).log (.line l v)) l v)).withLines (s.lines.set l (some v))) := by
  simp [setLine, pin_ok _ h]

theorem setLine_err {s : State} {e : HwErr} (l : ControlLine) (v : Bool) (h : pinAnswerAt s 0 = .err e) :
    setLine l v s = .failed (.hwError e) (((((takePin s).log (.line l v)).withFault (some e)).withDev
      (deviceAfterFailedLine s l)).withLines (s.lines.set l none)) := by
  simp [setLine, pin_err _ h, deviceAfterFailedLine]

theorem turnBus_same {s : State} {d : DataDir} (h : s.bus.dir = d.busDir) : turnBus d s = .ok () s := by
  simp [turnBus, h]

theorem turnBus_ok {s : State} {d : DataDir} (h : s.bus.dir ≠ d.busDir) (h0 : pinAnswerAt s 0 = .ok) :
    turnBus d s = .ok () (((takePin s).log (.dir d)).withBusDir d.busDir) := by
  simp [turnBus, h, pin_ok _ h0]

theorem turnBus_err {s : State} {d : DataDir} {e : HwErr} (h : s.bus.dir ≠ d.busDir)
    (h0 : pinAnswerAt s 0 = .err e) :
    turnBus d s = .failed (.hwError e) ((((takePin s).log (.dir d)).withFault (some e)).withBusDir
      (Config.dirAfterFailure s.env.pinCount)) := by
  simp [turnBus, h, pin_err _ h0]

theorem driveBus_ok {s : State} (b : Byte) (h : pinAnswerAt s 0 = .ok) :
    driveBus b s = .ok () (((takePin s).log (.drive b)).withBusOut b) := by
  simp [driveBus, pin_ok _ h]

theorem driveBus_err {s : State} {e : HwErr} (b : Byte) (h : pinAnswerAt s 0 = .err e) :
    driveBus b s = .failed (.hwError e) ((((takePin s).log (.drive b)).withFault (some e)).withBusOut
      (Config.outAfterFailure s.env.pinCount)) := by
  simp [driveBus, pin_err _ h]

theorem sampleBus_ok {s : State} (h : pinAnswerAt s 0 = .ok) :
    sampleBus s = .ok (sampleAt s 0) ((takePin (takeSample s)).log (.sample (sampleAt s 0))) := by
  simp [sampleBus, pin_ok (s := takeSample s) _ h]

theorem sampleBus_err {s : State} {e : HwErr} (h : pinAnswerAt s 0 = .err e) :
    sampleBus s = .failed (.hwError e)
      (((takePin (takeSample s)).log (.sample (sampleAt s 0))).withFault (some e)) := by
  simp [sampleBus, pin_err (s := takeSample s) _ h]

/-! ### What the lines become -/

@[simp] theorem Lines.set_rs (l : Lines) (v : Option Bool) : l.set .rs v = { l with rs := v } := rfl
@[simp] theorem Lines.set_rw (l : Lines) (v : Option Bool) : l.set .rw v = { l with rw := v } := rfl
@[simp] theorem Lines.set_e (l : Lines) (v : Option Bool) : l.set .e v = { l with e := v } := rfl

@[simp] theorem deviceSees_rs (s : State) (v : Bool) : deviceSees s .rs v = s.dev := by
  cases v <;> rfl
@[simp] theorem deviceSees_rw (s : State) (v : Bool) : deviceSees s .rw v = s.dev := by
  cases v <;> rfl
@[simp] theorem deviceSees_rise (s : State) : deviceSees s .e true = s.dev := rfl

/-- At a fall of E from a known high level the device latches. -/
theorem deviceSees_fall {s : State} (h : s.lines.e = some true) : deviceSees s .e false = latch s := by
  simp [deviceSees, h]

@[simp] theorem DataDir.busDir_out : DataDir.busDir .out = .drivingOutput := rfl
@[simp] theorem DataDir.busDir_sense : DataDir.busDir .sense = .sensingInput := rfl

/-! ### Everything a sequence of pin steps can do -/

/-- The relation of a state to one that pin operations and delays lead to: configuration, cache, canvas and
host port are the same, the trace has grown at its end, and a well-formed device is still well formed. -/
structure PinSteps (s t : State) : Prop where
  cfg : t.cfg = s.cfg
  cache : t.cache = s.cache
  canvas : t.canvas = s.canvas
  host : t.host = s.host
  trace : ∃ evs, t.trace = s.trace ++ evs
  dev : (∀ d ∈ s.dev, d.wf) → ∀ d ∈ t.dev, d.wf

theorem PinSteps.refl (s : State) : PinSteps s s := ⟨rfl, rfl, rfl, rfl, ⟨[], by simp⟩, id⟩

theorem PinSteps.trans {s t u : State} (h1 : PinSteps s t) (h2 : PinSteps t u) : PinSteps s u := by
  obtain ⟨e1, he1⟩ := h1.trace
  obtain ⟨e2, he2⟩ := h2.trace
  exact ⟨h2.cfg.trans h1.cfg, h2.cache.trans h1.cache, h2.canvas.trans h1.canvas, h2.host.trans h1.host,
    ⟨e1 ++ e2, by rw [he2, he1, List.append_assoc]⟩, fun h => h2.dev (h1.dev h)⟩

@[simp] theorem linesAfter_append (now : Lines) (a b : List Event) :
    linesAfter now (a ++ b) = linesAfter (linesAfter now a) b := by
  induction a generalizing now with
  | nil => rfl
  | cons ev a ih => cases ev <;> exact ih _

@[simp] theorem busAfter_append (now : Bus) (a b : List Event) :
    busAfter now (a ++ b) = busAfter (busAfter now a) b := by
  induction a generalizing now with
  | nil => rfl
  | cons ev a ih => cases ev <;> exact ih _

/-- The new events of the trace, all answered `Ok`, say what the lines and the bus have become. -/
def Replayed (s t : State) : Prop :=
  ∃ evs, t.trace = s.trace ++ evs ∧ t.lines = linesAfter s.lines evs ∧ t.bus = busAfter s.bus evs

/-- The same where the last new event failed (60_exceptions.md R257). -/
def Broken (s t : State) : Prop :=
  ∃ evs ev, t.trace = s.trace ++ evs ++ [ev] ∧ brokenOff s t evs ev

theorem Replayed.refl (s : State) : Replayed s s := ⟨[], by simp, rfl, rfl⟩

theorem Replayed.trans {s t u : State} (h1 : Replayed s t) (h2 : Replayed t u) : Replayed s u := by
  obtain ⟨a, t1, l1, b1⟩ := h1
  obtain ⟨b, t2, l2, b2⟩ := h2
  exact ⟨a ++ b, by rw [t2, t1, List.append_assoc], by rw [l2, l1, linesAfter_append],
    by rw [b2, b1, busAfter_append]⟩

theorem Replayed.broken {s t u : State} (h1 : Replayed s t) (h2 : Broken t u) : Broken s u := by
  obtain ⟨a, t1, l1, b1⟩ := h1
  obtain ⟨b, ev, t2, l2, b2⟩ := h2
  exact ⟨a ++ b, ev, by simp [t2, t1], by rw [l2, l1, linesAfter_append],
    by rw [b1] at b2; rw [busAfter_append]; exact b2⟩

/-- What a sequence of steps does on every path. Where it completes, `fault` is as before; where it ends in an
error, `fault` holds the payload of a `HwError`, and is as before at an `AddrRange`. The new events of the trace
say what the lines and the bus have become. -/
def Ran.Keeps {α : Type} (s : State) : Ran α → Prop
  | .ok _ t => PinSteps s t ∧ t.fault = s.fault ∧ Replayed s t
  | .failed (.hwError e) t => PinSteps s t ∧ t.fault = some e ∧ Broken s t
  | .failed (.addrRange _) t => PinSteps s t ∧ t.fault = s.fault ∧ Replayed s t

theorem Ran.Keeps.refl {α : Type} (v : α) (s : State) : (Ran.ok v s).Keeps s := ⟨.refl s, rfl, .refl s⟩

theorem Ran.Keeps.andThen {α β : Type} {s : State} {r : Ran α} {k : α → State → Ran β} (h : r.Keeps s)
    (hk : ∀ v t, r = .ok v t → (k v t).Keeps t) : (r.andThen k).Keeps s := by
  cases r with
  | failed e t => rw [Ran.andThen_failed]; cases e <;> exact h
  | ok v t =>
    have h2 := hk v t rfl
    simp only [Ran.andThen_ok]
    cases hr : k v t with
    | ok w u => rw [hr] at h2; exact ⟨h.1.trans h2.1, h2.2.1.trans h.2.1, h.2.2.trans h2.2.2⟩
    | failed e u =>
      rw [hr] at h2
      cases e with
      | hwError e => exact ⟨h.1.trans h2.1, h2.2.1, h.2.2.broken h2.2.2⟩
      | addrRange c => exact ⟨h.1.trans h2.1, h2.2.1.trans h.2.1, h.2.2.trans h2.2.2⟩

theorem delay_keeps (n : Nat) (s : State) : (delay n s).Keeps s :=
  ⟨⟨rfl, rfl, rfl, rfl, ⟨[.delay n], rfl⟩, id⟩, rfl, [.delay n], rfl, rfl, rfl⟩

/-- A latched operation keeps a well-formed device well formed. -/
theorem latch_wf {s : State} (h : ∀ d ∈ s.dev, d.wf) : ∀ d ∈ latch s, d.wf := by
  intro d hd
  rw [Option.mem_def] at hd
  unfold latch at hd
  split at hd
  · rename_i hdev _ _; exact RefDevice.wf_accept (h _ hdev) hd
  · rename_i hdev _ _
    split at hd
    · exact RefDevice.wf_accept (h _ hdev) hd
    · cases hd
  · cases hd

theorem deviceSees_wf {s : State} (l : ControlLine) (v : Bool) (h : ∀ d ∈ s.dev, d.wf) :
    ∀ d ∈ deviceSees s l v, d.wf := by
  unfold deviceSees
  split
  · exact latch_wf h
  · intro d hd; cases hd
  · exact h

theorem setLine_keeps (l : ControlLine) (v : Bool) (s : State) : (setLine l v s).Keeps s := by
  cases h : pinAnswerAt s 0 with
  | ok =>
    rw [setLine_ok l v h]
    refine ⟨⟨rfl, rfl, rfl, rfl, ⟨[.line l v], rfl⟩, fun hd => ?_⟩, rfl, [.line l v], rfl, rfl, rfl⟩
    exact deviceSees_wf (s := (takePin s).log (.line l v)) l v hd
  | err e =>
    rw [setLine_err l v h]
    refine ⟨⟨rfl, rfl, rfl, rfl, ⟨[.line l v], rfl⟩, fun hd => ?_⟩, rfl, [], .line l v, by simp, rfl, rfl⟩
    cases l <;> first | exact hd | exact fun d h => by cases h

theorem turnBus_keeps (d : DataDir) (s : State) : (turnBus d s).Keeps s := by
  by_cases hd : s.bus.dir = d.busDir
  · rw [turnBus_same hd]; exact .refl _ s
  · cases h : pinAnswerAt s 0 with
    | ok =>
      rw [turnBus_ok hd h]
      exact ⟨⟨rfl, rfl, rfl, rfl, ⟨[.dir d], rfl⟩, id⟩, rfl, [.dir d], rfl, rfl, rfl⟩
    | err e =>
      rw [turnBus_err hd h]
      exact ⟨⟨rfl, rfl, rfl, rfl, ⟨[.dir d], rfl⟩, id⟩, rfl, [], .dir d, by simp, rfl, rfl⟩

theorem driveBus_keeps (b : Byte) (s : State) : (driveBus b s).Keeps s := by
  cases h : pinAnswerAt s 0 with
  | ok =>
    rw [driveBus_ok b h]
    exact ⟨⟨rfl, rfl, rfl, rfl, ⟨[.drive b], rfl⟩, id⟩, rfl, [.drive b], rfl, rfl, rfl⟩
  | err e =>
    rw [driveBus_err b h]
    exact ⟨⟨rfl, rfl, rfl, rfl, ⟨[.drive b], rfl⟩, id⟩, rfl, [], .drive b, by simp, rfl, rfl⟩

theorem sampleBus_keeps (s : State) : (sampleBus s).Keeps s := by
  cases h : pinAnswerAt s 0 with
  | ok =>
    rw [sampleBus_ok h]
    exact ⟨⟨rfl, rfl, rfl, rfl, ⟨[.sample (sampleAt s 0)], rfl⟩, id⟩, rfl, [.sample (sampleAt s 0)], rfl, rfl, rfl⟩
  | err e =>
    rw [sampleBus_err h]
    exact ⟨⟨rfl, rfl, rfl, rfl, ⟨[.sample (sampleAt s 0)], rfl⟩, id⟩, rfl, [], .sample (sampleAt s 0), by simp,
      rfl, rfl⟩

theorem busPut_keeps (b : Byte) (s : State) : (busPut b s).Keeps s :=
  (turnBus_keeps _ _).andThen fun _ t _ => driveBus_keeps b t

theorem busGet_keeps (s : State) : (busGet s).Keeps s :=
  (turnBus_keeps _ _).andThen fun _ t _ => sampleBus_keeps t

theorem selectLines_keeps (rs rw : Bool) (s : State) : (selectLines rs rw s).Keeps s :=
  (setLine_keeps _ _ _).andThen fun _ t _ => setLine_keeps _ _ t

theorem pulse_keeps (s : State) : (pulse s).Keeps s :=
  (setLine_keeps _ _ _).andThen fun _ t _ => setLine_keeps _ _ t

theorem writeCycle_keeps (rs : Bool) (b : Byte) (wait : Nat) (s : State) : (writeCycle rs b wait s).Keeps s :=
  (selectLines_keeps _ _ _).andThen fun _ _ _ =>
  (busPut_keeps _ _).andThen fun _ _ _ =>
  (pulse_keeps _).andThen fun _ t _ => delay_keeps wait t

theorem dummyWrite_keeps (here : DummyPosition) (s : State) : (dummyWrite here s).Keeps s := by
  unfold dummyWrite
  split
  · exact busPut_keeps _ _
  · exact .refl _ s

theorem captureByte_keeps (wait : Nat) (s : State) : (captureByte wait s).Keeps s :=
  (busGet_keeps _).andThen fun _ _ _ =>
  (setLine_keeps _ _ _).andThen fun _ _ _ =>
  (delay_keeps _ _).andThen fun _ t _ => .refl _ t

theorem readCycle_keeps (s : State) : (readCycle s).Keeps s :=
  (selectLines_keeps _ _ _).andThen fun _ _ _ =>
  (setLine_keeps _ _ _).andThen fun _ _ _ => captureByte_keeps _ _

theorem readAcCycle_keeps (s : State) : (readAcCycle s).Keeps s :=
  (selectLines_keeps _ _ _).andThen fun _ _ _ =>
  (dummyWrite_keeps _ _).andThen fun _ _ _ =>
  (setLine_keeps _ _ _).andThen fun _ _ _ =>
  (dummyWrite_keeps _ _).andThen fun _ _ _ => captureByte_keeps _ _

theorem commandCycle_keeps (cmd : Command) (s : State) : (commandCycle cmd s).Keeps s := by
  unfold commandCycle
  split
  · exact ⟨.refl s, rfl, .refl s⟩
  · exact writeCycle_keeps _ _ _ _

theorem dataCycle_keeps (b : Byte) (s : State) : (dataCycle b s).Keeps s := writeCycle_keeps _ _ _ _

theorem applyItem_keeps (item : DiffOp) (s : State) : (applyItem item s).Keeps s := by
  cases item <;> first | exact commandCycle_keeps _ _ | exact dataCycle_keeps _ _

theorem applyOps_keeps (ops : List DiffOp) : ∀ s : State, (applyOps ops s).Keeps s := by
  induction ops with
  | nil => intro s; exact .refl _ s
  | cons item rest ih => intro s; exact (applyItem_keeps item s).andThen fun _ t _ => ih t

/-- The next state of a driver or bus operation: no fault was recorded before it, its steps kept what
`Ran.Keeps` says, and it is those steps' closing state. -/
theorem guarded_next {α : Type} {s t : State} {r : Ran α} {f : α → OpResult}
    (h : unlessFaulted s (finish r f) = .next t) : s.fault = none ∧ t = r.close f := by
  obtain ⟨h1, h2⟩ := unlessFaulted_next h
  simp only [finish, Host.Outcome.next.injEq] at h2
  exact ⟨h1, h2.symm⟩

/-- Closing a sequence of steps changes nothing but the result. -/
theorem Ran.Keeps.close {α : Type} {s : State} {r : Ran α} (h : r.Keeps s) (f : α → OpResult) :
    (r.close f).cfg = s.cfg ∧ (r.close f).cache = s.cache ∧ (r.close f).canvas = s.canvas ∧
    (r.close f).host.pending = s.host.pending ∧ (∃ evs, (r.close f).trace = s.trace ++ evs) ∧
    ((∀ d ∈ s.dev, d.wf) → ∀ d ∈ (r.close f).dev, d.wf) := by
  cases r with
  | ok v t => exact ⟨h.1.cfg, h.1.cache, h.1.canvas, by simp [h.1.host], h.1.trace, h.1.dev⟩
  | failed e t =>
    cases e with
    | hwError e => exact ⟨h.1.cfg, h.1.cache, h.1.canvas, by simp [h.1.host], h.1.trace, h.1.dev⟩
    | addrRange c => exact ⟨h.1.cfg, h.1.cache, h.1.canvas, by simp [h.1.host], h.1.trace, h.1.dev⟩

end Sys2Proof.Machine
end

