-- ==== Sys2Proof/Laws/Driver.lean ====
section
/-! SUPPORT. One lemma for each sequence of the bus and of the driver: what it leaves when every pin operation in
it is answered `Ok`: its events, the lines, the bus, the device. -/

namespace Sys2Proof.Machine

/-- From `s` to `t` exactly the events `evs` were emitted, `n` of them pin operations, and neither the fault, the
configuration, the cache, the canvas nor the host port changed. -/
structure Emitted (s t : State) (evs : List Event) (n : Nat) : Prop where
  trace : t.trace = s.trace ++ evs
  fault : t.fault = s.fault
  cfg : t.cfg = s.cfg
  cache : t.cache = s.cache
  canvas : t.canvas = s.canvas
  host : t.host = s.host
  pins : ∀ k, pinAnswerAt t k = pinAnswerAt s (k + n)

theorem Emitted.refl (s : State) : Emitted s s [] 0 := ⟨by simp, rfl, rfl, rfl, rfl, rfl, fun _ => rfl⟩

theorem Emitted.trans {s t u : State} {e1 e2 : List Event} {n m : Nat} (h1 : Emitted s t e1 n)
    (h2 : Emitted t u e2 m) : Emitted s u (e1 ++ e2) (n + m) where
  trace := by rw [h2.trace, h1.trace, List.append_assoc]
  fault := h2.fault.trans h1.fault
  cfg := h2.cfg.trans h1.cfg
  cache := h2.cache.trans h1.cache
  canvas := h2.canvas.trans h1.canvas
  host := h2.host.trans h1.host
  pins := fun k => by rw [h2.pins, h1.pins]; congr 1; omega

/-- Pin operations that were to succeed later still are, after some of them. -/
theorem Emitted.pinsOk {s t : State} {evs : List Event} {n m : Nat} (h : Emitted s t evs n)
    (hp : pinsOk s (n + m)) : pinsOk t m := fun k hk => by
  rw [h.pins]; exact hp _ (by omega)

theorem pinsOk_mono {s : State} {n m : Nat} (h : pinsOk s n) (hm : m ≤ n) : pinsOk s m :=
  fun k hk => h k (by omega)

/-! ### Single steps -/

theorem setLine_emits {s : State} (l : ControlLine) (v : Bool) (h : pinAnswerAt s 0 = .ok) :
    ∃ t, setLine l v s = .ok () t ∧ Emitted s t [.line l v] 1 ∧ t.lines = s.lines.set l (some v) ∧
      t.bus = s.bus ∧ t.dev = deviceSees s l v ∧ ∀ k, sampleAt t k = sampleAt s k := by
  refine ⟨_, setLine_ok l v h, ⟨rfl, rfl, rfl, rfl, rfl, rfl, fun k => by simp⟩, rfl, rfl, rfl, fun k => by simp⟩

theorem delay_emits (s : State) (n : Nat) : ∃ t, delay n s = .ok () t ∧ Emitted s t [.delay n] 0 ∧
    t.lines = s.lines ∧ t.bus = s.bus ∧ t.dev = s.dev :=
  ⟨_, rfl, ⟨rfl, rfl, rfl, rfl, rfl, rfl, fun _ => rfl⟩, rfl, rfl, rfl⟩

theorem turnBus_emits {s : State} (d : DataDir) (h : pinsOk s (turnEvents s.bus.dir d).length) :
    ∃ t, turnBus d s = .ok () t ∧
    Emitted s t (turnEvents s.bus.dir d) (turnEvents s.bus.dir d).length ∧ t.lines = s.lines ∧
    t.bus = { s.bus with dir := d.busDir } ∧ t.dev = s.dev ∧ ∀ k, sampleAt t k = sampleAt s k := by
  by_cases hd : s.bus.dir = d.busDir
  · refine ⟨s, turnBus_same hd, ?_, rfl, by rw [← hd], rfl, fun _ => rfl⟩
    simpa [turnEvents, hd] using Emitted.refl s
  · refine ⟨_, turnBus_ok hd (h 0 (by simp [turnEvents, hd])), ?_, rfl, rfl, rfl, fun _ => by simp⟩
    simp only [turnEvents, hd, if_false]
    exact ⟨rfl, rfl, rfl, rfl, rfl, rfl, fun k => by simp⟩

theorem driveBus_emits {s : State} (b : Byte) (h : pinAnswerAt s 0 = .ok) : ∃ t, driveBus b s = .ok () t ∧
    Emitted s t [.drive b] 1 ∧ t.lines = s.lines ∧ t.bus = { s.bus with out := b } ∧ t.dev = s.dev ∧
    ∀ k, sampleAt t k = sampleAt s k :=
  ⟨_, driveBus_ok b h, ⟨rfl, rfl, rfl, rfl, rfl, rfl, fun k => by simp⟩, rfl, rfl, rfl, fun _ => by simp⟩

theorem sampleBus_emits {s : State} (h : pinAnswerAt s 0 = .ok) : ∃ t, sampleBus s = .ok (sampleAt s 0) t ∧
    Emitted s t [.sample (sampleAt s 0)] 1 ∧ t.lines = s.lines ∧ t.bus = s.bus ∧ t.dev = s.dev :=
  ⟨_, sampleBus_ok h, ⟨rfl, rfl, rfl, rfl, rfl, rfl, fun k => by simp⟩, rfl, rfl, rfl⟩

theorem turnEvents_out (now : BusDir) :
    turnEvents now .out = if now = .drivingOutput then [] else [Event.dir .out] := rfl

theorem turnEvents_sense (now : BusDir) :
    turnEvents now .sense = if now = .sensingInput then [] else [Event.dir .sense] := rfl

/-- How many pin operations follow a turn to driving, with the turn itself. -/
theorem turnEvents_out_length_add (now : BusDir) (k : Nat) :
    (turnEvents now .out).length + k = if now = .drivingOutput then k else k + 1 := by
  rw [turnEvents_out]
  split <;> simp [Nat.add_comm]

/-- How many pin operations follow a turn to sensing, with the turn itself. -/
theorem turnEvents_sense_length_add (now : BusDir) (k : Nat) :
    (turnEvents now .sense).length + k = if now = .sensingInput then k else k + 1 := by
  rw [turnEvents_sense]
  split <;> simp [Nat.add_comm]

/-- At most one event turns the bus. -/
theorem turnEvents_length_le (now : BusDir) (d : DataDir) : (turnEvents now d).length ≤ 1 := by
  unfold turnEvents
  split <;> simp

/-! ### The bus (R212, R213) -/

theorem busPut_emits {s : State} (b : Byte) (h : pinsOk s ((turnEvents s.bus.dir .out).length + 1)) :
    ∃ t, busPut b s = .ok () t ∧
    Emitted s t (turnEvents s.bus.dir .out ++ [.drive b]) ((turnEvents s.bus.dir .out).length + 1) ∧
    t.lines = s.lines ∧ t.bus = { dir := .drivingOutput, out := b } ∧ t.dev = s.dev ∧
    ∀ k, sampleAt t k = sampleAt s k := by
  obtain ⟨t1, r1, e1, l1, b1, d1, v1⟩ := turnBus_emits .out (pinsOk_mono h (by omega))
  obtain ⟨t2, r2, e2, l2, b2, d2, v2⟩ := driveBus_emits (s := t1) b (by rw [e1.pins]; exact h _ (by omega))
  refine ⟨t2, by rw [busPut, r1, Ran.andThen_ok, r2], e1.trans e2, l2.trans l1, ?_, d2.trans d1,
    fun k => by rw [v2, v1]⟩
  rw [b2, b1]; rfl

theorem busGet_emits {s : State} (h : pinsOk s ((turnEvents s.bus.dir .sense).length + 1)) :
    ∃ t, busGet s = .ok (sampleAt s 0) t ∧
    Emitted s t (turnEvents s.bus.dir .sense ++ [.sample (sampleAt s 0)])
      ((turnEvents s.bus.dir .sense).length + 1) ∧
    t.lines = s.lines ∧ t.bus = { s.bus with dir := .sensingInput } ∧ t.dev = s.dev := by
  obtain ⟨t1, r1, e1, l1, b1, d1, v1⟩ := turnBus_emits .sense (pinsOk_mono h (by omega))
  obtain ⟨t2, r2, e2, l2, b2, d2⟩ := sampleBus_emits (s := t1) (by rw [e1.pins]; exact h _ (by omega))
  rw [v1] at r2 e2
  exact ⟨t2, by rw [busGet, r1, Ran.andThen_ok, r2], e1.trans e2, l2.trans l1, b2.trans b1, d2.trans d1⟩

/-! ### The driver's cycles (R193 to R199) -/

theorem selectLines_emits {s : State} (rs rw : Bool) (h : pinsOk s 2) : ∃ t, selectLines rs rw s = .ok () t ∧
    Emitted s t [.line .rs rs, .line .rw rw] 2 ∧ t.lines = { s.lines with rs := some rs, rw := some rw } ∧
    t.bus = s.bus ∧ t.dev = s.dev ∧ ∀ k, sampleAt t k = sampleAt s k := by
  obtain ⟨t1, r1, e1, l1, b1, d1, v1⟩ := setLine_emits .rs rs (h 0 (by omega))
  obtain ⟨t2, r2, e2, l2, b2, d2, v2⟩ := setLine_emits (s := t1) .rw rw (by rw [e1.pins]; exact h _ (by omega))
  refine ⟨t2, by rw [selectLines, r1, Ran.andThen_ok, r2], e1.trans e2, by rw [l2, l1]; rfl, b2.trans b1, ?_,
    fun k => by rw [v2, v1]⟩
  rw [d2, deviceSees_rw, d1, deviceSees_rs]

theorem pulse_emits {s : State} (h : pinsOk s 2) : ∃ t, pulse s = .ok () t ∧
    Emitted s t [.line .e true, .line .e false] 2 ∧ t.lines = { s.lines with e := some false } ∧
    t.bus = s.bus ∧ t.dev = latch s := by
  obtain ⟨t1, r1, e1, l1, b1, d1, v1⟩ := setLine_emits .e true (h 0 (by omega))
  obtain ⟨t2, r2, e2, l2, b2, d2, v2⟩ := setLine_emits (s := t1) .e false (by rw [e1.pins]; exact h _ (by omega))
  refine ⟨t2, by rw [pulse, r1, Ran.andThen_ok, r2], e1.trans e2, by rw [l2, l1]; rfl, b2.trans b1, ?_⟩
  rw [d2, deviceSees_fall (by rw [l1]; rfl)]
  simp [latch, d1, l1, b1]

/-- What the device latches at the end of a write cycle. -/
theorem latch_write {s : State} {rs : Bool} (h1 : s.lines.rs = some rs) (h2 : s.lines.rw = some false)
    (h3 : s.bus.dir = .drivingOutput) : latch s = s.dev.bind fun d => d.accept (wireWord rs false s.bus.out) := by
  unfold latch
  rw [h1, h2]
  cases s.dev <;> simp [h3]

/-- What the device latches at the end of a read cycle. -/
theorem latch_read {s : State} {rs : Bool} (h1 : s.lines.rs = some rs) (h2 : s.lines.rw = some true) :
    latch s = s.dev.bind fun d => d.accept (wireWord rs true 0#8) := by
  unfold latch
  rw [h1, h2]
  cases s.dev <;> rfl

/-- The number of pin operations of a write cycle. -/
theorem writePins_length (rs : Bool) (now : BusDir) (b : Byte) :
    (writePins rs now b).length = (turnEvents now .out).length + 5 := by
  simp [writePins]

/-- The write cycle of DRV_EXEC and DRV_WRITE (R193, R195). -/
theorem writeCycle_emits {s : State} (rs : Bool) (b : Byte) (wait : Nat)
    (h : pinsOk s (writePins rs s.bus.dir b).length) : ∃ t, writeCycle rs b wait s = .ok () t ∧
    Emitted s t (writePins rs s.bus.dir b ++ [.delay wait]) (writePins rs s.bus.dir b).length ∧
    t.lines = { rs := some rs, rw := some false, e := some false } ∧
    t.bus = { dir := .drivingOutput, out := b } ∧
    t.dev = s.dev.bind fun d => d.accept (wireWord rs false b) := by
  rw [writePins_length] at h
  have hl := turnEvents_length_le s.bus.dir .out
  obtain ⟨t1, r1, e1, l1, b1, d1, -⟩ := selectLines_emits rs false (pinsOk_mono h (by omega))
  obtain ⟨t2, r2, e2, l2, b2, d2, -⟩ := busPut_emits (s := t1) b
    (e1.pinsOk (pinsOk_mono h (by rw [b1]; omega)))
  rw [b1] at e2
  obtain ⟨t3, r3, e3, l3, b3, d3⟩ := pulse_emits (s := t2)
    ((e1.trans e2).pinsOk (m := 2) (pinsOk_mono h (by omega)))
  obtain ⟨t4, r4, e4, l4, b4, d4⟩ := delay_emits t3 wait
  refine ⟨t4, by rw [writeCycle, r1, Ran.andThen_ok, r2, Ran.andThen_ok, r3, Ran.andThen_ok, r4], ?_, ?_, ?_, ?_⟩
  · have := ((e1.trans e2).trans e3).trans e4
    rw [writePins_length]
    convert this using 1
    · simp [writePins]
    · omega
  · rw [l4, l3, l2, l1]
  · rw [b4, b3, b2]
  · rw [d4, d3, latch_write (rs := rs) (by rw [l2, l1]) (by rw [l2, l1]) (by rw [b2]), d2, d1, b2]

/-- From a capture with E high to the end of a read (R197, R199). -/
theorem captureByte_emits {s : State} (wait : Nat) (h : pinsOk s ((turnEvents s.bus.dir .sense).length + 2))
    (he : s.lines.e = some true) : ∃ t, captureByte wait s = .ok (sampleAt s 0) t ∧
    Emitted s t (turnEvents s.bus.dir .sense ++ [.sample (sampleAt s 0), .line .e false, .delay wait])
      ((turnEvents s.bus.dir .sense).length + 2) ∧
    t.lines = { s.lines with e := some false } ∧ t.bus = { s.bus with dir := .sensingInput } ∧
    (∀ rs, s.lines.rs = some rs → s.lines.rw = some true →
      t.dev = s.dev.bind fun d => d.accept (wireWord rs true 0#8)) := by
  obtain ⟨t1, r1, e1, l1, b1, d1⟩ := busGet_emits (pinsOk_mono h (by omega))
  obtain ⟨t2, r2, e2, l2, b2, d2, -⟩ := setLine_emits (s := t1) .e false (by rw [e1.pins]; exact h _ (by omega))
  obtain ⟨t3, r3, e3, l3, b3, d3⟩ := delay_emits t2 wait
  refine ⟨t3, ?_, ?_, by rw [l3, l2, l1]; rfl, by rw [b3, b2, b1], ?_⟩
  · simp only [captureByte, r1, Ran.andThen_ok, r2, r3]
  · have := (e1.trans e2).trans e3
    convert this using 1
    simp
  · intro rs hrs hrw
    rw [d3, d2, deviceSees_fall (by rw [l1]; exact he),
      latch_read (rs := rs) (by rw [l1]; exact hrs) (by rw [l1]; exact hrw), d1]

/-- The number of pin operations of DRV_READ. -/
theorem readPins_length (now : BusDir) (v : Byte) :
    (readPins now v).length = (turnEvents now .sense).length + 5 := by
  simp [readPins]

/-- The number of pin operations of DRV_READ_AC. -/
theorem readAcPins_length (dummy : DummyPosition) (now : BusDir) (v : Byte) :
    (readAcPins dummy now v).length = (turnEvents now .out).length + 7 := by
  cases dummy <;> simp [readAcPins]

/-- The read cycle of DRV_READ (R199). -/
theorem readCycle_emits {s : State} (h : pinsOk s (readPins s.bus.dir (sampleAt s 0)).length) :
    ∃ t, readCycle s = .ok (sampleAt s 0) t ∧
    Emitted s t (readPins s.bus.dir (sampleAt s 0) ++ [.delay s.cfg.tData])
      (readPins s.bus.dir (sampleAt s 0)).length ∧
    t.lines = { rs := some true, rw := some true, e := some false } ∧
    t.bus = { s.bus with dir := .sensingInput } ∧
    t.dev = s.dev.bind fun d => d.accept (wireWord true true 0#8) := by
  rw [readPins_length] at h ⊢
  obtain ⟨t1, r1, e1, l1, b1, d1, v1⟩ := selectLines_emits true true (pinsOk_mono h (by omega))
  obtain ⟨t2, r2, e2, l2, b2, d2, v2⟩ := setLine_emits (s := t1) .e true (by rw [e1.pins]; exact h _ (by omega))
  have e12 := e1.trans e2
  obtain ⟨t3, r3, e3, l3, b3, d3⟩ := captureByte_emits (s := t2) s.cfg.tData
    (e12.pinsOk (pinsOk_mono h (by rw [b2, b1]; omega))) (by rw [l2]; rfl)
  rw [v2, v1] at r3 e3
  rw [b2, b1] at e3
  refine ⟨t3, ?_, ?_, by rw [l3, l2, l1]; rfl, by rw [b3, b2, b1], ?_⟩
  · simp only [readCycle, r1, Ran.andThen_ok, r2, e12.cfg, r3]
  · have := e12.trans e3
    convert this using 1
    · simp [readPins]
    · omega
  · rw [d3 true (by rw [l2, l1]; rfl) (by rw [l2, l1]; rfl), d2, deviceSees_rise, d1]

/-- The dummy write, where it stands (R197). -/
theorem dummyWrite_here {s : State} (here : DummyPosition) (hc : s.cfg.dummy = here)
    (h : pinsOk s ((turnEvents s.bus.dir .out).length + 1)) : ∃ t, dummyWrite here s = .ok () t ∧
    Emitted s t (turnEvents s.bus.dir .out ++ [.drive 0#8]) ((turnEvents s.bus.dir .out).length + 1) ∧
    t.lines = s.lines ∧ t.bus = { dir := .drivingOutput, out := 0#8 } ∧ t.dev = s.dev ∧
    ∀ k, sampleAt t k = sampleAt s k := by
  rw [dummyWrite, if_pos hc]
  exact busPut_emits 0#8 h

theorem dummyWrite_elsewhere {s : State} (here : DummyPosition) (hc : s.cfg.dummy ≠ here) :
    dummyWrite here s = .ok () s := by
  rw [dummyWrite, if_neg hc]

/-- The read cycle of DRV_READ_AC (R197). -/
theorem readAcCycle_emits {s : State}
    (h : pinsOk s (readAcPins s.cfg.dummy s.bus.dir (sampleAt s 0)).length) :
    ∃ t, readAcCycle s = .ok (sampleAt s 0) t ∧
    Emitted s t (readAcPins s.cfg.dummy s.bus.dir (sampleAt s 0) ++ [.delay s.cfg.tAc])
      (readAcPins s.cfg.dummy s.bus.dir (sampleAt s 0)).length ∧
    t.lines = { rs := some false, rw := some true, e := some false } ∧
    t.bus = { dir := .sensingInput, out := 0#8 } ∧
    t.dev = s.dev.bind fun d => d.accept (wireWord false true 0#8) := by
  rw [readAcPins_length] at h ⊢
  obtain ⟨t1, r1, e1, l1, b1, d1, v1⟩ := selectLines_emits false true (pinsOk_mono h (by omega))
  cases hc : s.cfg.dummy with
  | beforeEnable =>
    obtain ⟨t2, r2, e2, l2, b2, d2, v2⟩ := dummyWrite_here (s := t1) .beforeEnable (by rw [e1.cfg, hc])
      (e1.pinsOk (pinsOk_mono h (by rw [b1]; omega)))
    rw [b1] at e2
    have e12 := e1.trans e2
    obtain ⟨t3, r3, e3, l3, b3, d3, v3⟩ := setLine_emits (s := t2) .e true
      (by rw [e12.pins]; exact h _ (by omega))
    have e123 := e12.trans e3
    have r4 : dummyWrite .afterEnable t3 = .ok () t3 :=
      dummyWrite_elsewhere _ (by rw [e123.cfg, hc]; decide)
    obtain ⟨t5, r5, e5, l5, b5, d5⟩ := captureByte_emits (s := t3) s.cfg.tAc
      (e123.pinsOk (pinsOk_mono h (by rw [b3, b2]; simp [turnEvents]; omega))) (by rw [l3]; rfl)
    rw [v3, v2, v1] at r5 e5
    rw [b3, b2] at e5
    refine ⟨t5, ?_, ?_, by rw [l5, l3, l2, l1]; rfl, by rw [b5, b3, b2], ?_⟩
    · simp only [readAcCycle, r1, Ran.andThen_ok, r2, r3, r4, e123.cfg, r5]
    · have := e123.trans e5
      convert this using 1
      · simp [readAcPins, turnEvents]
      · simp [turnEvents]; omega
    · rw [d5 false (by rw [l3, l2, l1]; rfl) (by rw [l3, l2, l1]; rfl), d3, deviceSees_rise, d2, d1]
  | afterEnable =>
    have r2 : dummyWrite .beforeEnable t1 = .ok () t1 := dummyWrite_elsewhere _ (by rw [e1.cfg, hc]; decide)
    obtain ⟨t3, r3, e3, l3, b3, d3, v3⟩ := setLine_emits (s := t1) .e true
      (by rw [e1.pins]; exact h _ (by omega))
    have e13 := e1.trans e3
    obtain ⟨t4, r4, e4, l4, b4, d4, v4⟩ := dummyWrite_here (s := t3) .afterEnable (by rw [e13.cfg, hc])
      (e13.pinsOk (pinsOk_mono h (by rw [b3, b1]; omega)))
    rw [b3, b1] at e4
    have e134 := e13.trans e4
    obtain ⟨t5, r5, e5, l5, b5, d5⟩ := captureByte_emits (s := t4) s.cfg.tAc
      (e134.pinsOk (pinsOk_mono h (by rw [b4]; simp [turnEvents]; omega))) (by rw [l4, l3]; rfl)
    rw [v4, v3, v1] at r5 e5
    rw [b4] at e5
    refine ⟨t5, ?_, ?_, by rw [l5, l4, l3, l1]; rfl, by rw [b5, b4], ?_⟩
    · simp only [readAcCycle, r1, Ran.andThen_ok, r2, r3, r4, e134.cfg, r5]
    · have := e134.trans e5
      convert this using 1
      · simp [readAcPins, turnEvents]
      · simp [turnEvents]; omega
    · rw [d5 false (by rw [l4, l3, l1]; rfl) (by rw [l4, l3, l1]; rfl), d4, d3, deviceSees_rise, d1]

/-- DRV_EXEC and its instances (R193, R200 to R207). -/
theorem exec_of_commandOf {i : Instr} {cmd : Command} (h : commandOf i = some cmd) (s : State) :
    exec i s = driverExec cmd s := by
  cases i <;> cases h <;> rfl

/-- DRV_EXEC's steps for a command that encodes (R193). -/
theorem commandCycle_emits {s : State} {cmd : Command} {b : Byte} (hb : encodeCommand s.cfg.addrPolicy cmd = some b)
    (h : pinsOk s (writePins false s.bus.dir b).length) : ∃ t, commandCycle cmd s = .ok () t ∧
    Emitted s t (writePins false s.bus.dir b ++ [.delay (settle s.cfg cmd)])
      (writePins false s.bus.dir b).length ∧
    t.lines = { rs := some false, rw := some false, e := some false } ∧
    t.bus = { dir := .drivingOutput, out := b } ∧
    t.dev = s.dev.bind fun d => d.accept (wireWord false false b) := by
  simp only [commandCycle, hb]
  exact writeCycle_emits false b _ h

/-- DRV_WRITE's steps (R195). -/
theorem dataCycle_emits {s : State} (b : Byte) (h : pinsOk s (writePins true s.bus.dir b).length) :
    ∃ t, dataCycle b s = .ok () t ∧
    Emitted s t (writePins true s.bus.dir b ++ [.delay s.cfg.tData]) (writePins true s.bus.dir b).length ∧
    t.lines = { rs := some true, rw := some false, e := some false } ∧
    t.bus = { dir := .drivingOutput, out := b } ∧
    t.dev = s.dev.bind fun d => d.accept (wireWord true false b) :=
  writeCycle_emits true b _ h

/-- Six pin operations are enough for a write cycle. -/
theorem writePins_length_le (rs : Bool) (now : BusDir) (b : Byte) : (writePins rs now b).length ≤ 6 := by
  have := turnEvents_length_le now .out
  rw [writePins_length]; omega

end Sys2Proof.Machine
end

