-- ==== Sys2Proof/Laws/Failure.lean ====
section
/-! SUPPORT. What a failing pin operation does to each sequence of the bus and of the driver: the sequence ends
there with that error, and its trace holds the pin events up to and including the failing one (43_protocol.md
R190, 60_exceptions.md R251). -/

namespace Sys2Proof.Machine

/-- The pin operations of a sequence are `pins`, and a failure at any of them ends it there. -/
def FailsAt {α : Type} (s : State) (r : Ran α) (pins : List Event) : Prop :=
  ∀ n e, n < pins.length → pinFailsAt s n e →
    ∃ t, r = .failed (.hwError e) t ∧ t.trace = s.trace ++ pins.take (n + 1)

theorem FailsAt.nil {α : Type} (s : State) (r : Ran α) : FailsAt s r [] := fun n _ h => by simp at h

theorem FailsAt.cast {α : Type} {s : State} {r : Ran α} {p q : List Event} (h : FailsAt s r p) (e : p = q) :
    FailsAt s r q := e ▸ h

/-- A failure in the second part follows a first part that completed. -/
theorem FailsAt.andThen {α β : Type} {s : State} {r : Ran α} {k : α → State → Ran β} {p1 p2 : List Event}
    (h1 : FailsAt s r p1)
    (h2 : pinsOk s p1.length → ∃ v t, r = .ok v t ∧ Emitted s t p1 p1.length ∧ FailsAt t (k v t) p2) :
    FailsAt s (r.andThen k) (p1 ++ p2) := by
  intro n e hn hf
  by_cases hlt : n < p1.length
  · obtain ⟨t, rfl, ht⟩ := h1 n e hlt hf
    exact ⟨t, rfl, by rw [ht, List.take_append_of_le_length (by omega)]⟩
  · obtain ⟨v, t, rfl, he, h3⟩ := h2 (pinsOk_mono hf.1 (by omega))
    have hpf : pinFailsAt t (n - p1.length) e := by
      refine ⟨fun j hj => ?_, ?_⟩
      · rw [he.pins]; exact hf.1 _ (by omega)
      · rw [he.pins, show n - p1.length + p1.length = n by omega]; exact hf.2
    obtain ⟨u, hu, ht⟩ := h3 _ _ (by rw [List.length_append] at hn; omega) hpf
    refine ⟨u, by rw [Ran.andThen_ok, hu], ?_⟩
    rw [ht, he.trace, List.append_assoc, List.take_append, List.take_of_length_le (l := p1) (by omega)]
    congr 3
    omega

/-- A sequence that completed found every one of its pin operations answered `Ok`. -/
theorem FailsAt.pinsOk_of_ok {α : Type} {s t : State} {r : Ran α} {v : α} {pins : List Event}
    (h : FailsAt s r pins) (hr : r = .ok v t) : pinsOk s pins.length := by
  intro k
  induction k using Nat.strong_induction_on with
  | _ k ih =>
    intro hk
    cases ha : pinAnswerAt s k with
    | ok => rfl
    | err e =>
      obtain ⟨u, hu, -⟩ := h k e hk ⟨fun j hj => ih j hj (by omega), ha⟩
      rw [hr] at hu
      cases hu

/-! ### Single steps -/

theorem setLine_fails (l : ControlLine) (v : Bool) (s : State) : FailsAt s (setLine l v s) [.line l v] := by
  intro n e hn hf
  obtain rfl : n = 0 := by simp at hn; omega
  exact ⟨_, setLine_err l v hf.2, rfl⟩

theorem turnBus_fails (d : DataDir) (s : State) : FailsAt s (turnBus d s) (turnEvents s.bus.dir d) := by
  intro n e hn hf
  have hl := turnEvents_length_le s.bus.dir d
  obtain rfl : n = 0 := by omega
  have hd : s.bus.dir ≠ d.busDir := by intro h; simp [turnEvents, h] at hn
  exact ⟨_, turnBus_err hd hf.2, by simp [turnEvents, hd]⟩

theorem driveBus_fails (b : Byte) (s : State) : FailsAt s (driveBus b s) [.drive b] := by
  intro n e hn hf
  obtain rfl : n = 0 := by simp at hn; omega
  exact ⟨_, driveBus_err b hf.2, rfl⟩

theorem sampleBus_fails (s : State) : FailsAt s (sampleBus s) [.sample (sampleAt s 0)] := by
  intro n e hn hf
  obtain rfl : n = 0 := by simp at hn; omega
  exact ⟨_, sampleBus_err hf.2, rfl⟩

/-! ### The device at a failure (log entry 11) -/

/-- Steps that leave the device as it was: also where they fail, but that nothing may be left to claim of it. -/
def Ran.KeepsDevice {α : Type} (s : State) : Ran α → Prop
  | .ok _ t => t.dev = s.dev
  | .failed _ t => t.dev = s.dev ∨ t.dev = none

theorem Ran.KeepsDevice.andThen {α β : Type} {s : State} {r : Ran α} {k : α → State → Ran β} (h : r.KeepsDevice s)
    (hk : ∀ v t, (k v t).KeepsDevice t) : (r.andThen k).KeepsDevice s := by
  cases r with
  | failed e t => exact h
  | ok v t =>
    have h1 : t.dev = s.dev := h
    have h2 := hk v t
    rw [Ran.andThen_ok]
    cases hr : k v t with
    | ok w u => rw [hr] at h2; exact Eq.trans h2 h1
    | failed e u => rw [hr] at h2; exact Or.imp_left (·.trans h1) h2

theorem setLine_keepsDevice (l : ControlLine) (v : Bool) (h : l = .e → v = true) (s : State) :
    (setLine l v s).KeepsDevice s := by
  cases ha : pinAnswerAt s 0 with
  | ok =>
    rw [setLine_ok l v ha]
    cases l
    · exact deviceSees_rs _ v
    · exact deviceSees_rw _ v
    · rw [h rfl]; exact deviceSees_rise _
  | err e =>
    rw [setLine_err l v ha]
    cases l
    · exact .inl rfl
    · exact .inl rfl
    · exact .inr rfl

theorem busPut_keepsDevice (b : Byte) (s : State) : (busPut b s).KeepsDevice s := by
  refine Ran.KeepsDevice.andThen ?_ fun _ t => ?_
  · by_cases hd : s.bus.dir = DataDir.out.busDir
    · rw [turnBus_same hd]; rfl
    · cases ha : pinAnswerAt s 0 with
      | ok => rw [turnBus_ok hd ha]; rfl
      | err e => rw [turnBus_err hd ha]; exact .inl rfl
  · cases ha : pinAnswerAt t 0 with
    | ok => rw [driveBus_ok b ha]; rfl
    | err e => rw [driveBus_err b ha]; exact .inl rfl

/-- A write cycle that fails leaves the device as it was, or nothing to claim of it. -/
theorem writeCycle_failed_dev {rs : Bool} {b : Byte} {wait : Nat} {s t : State} {e : OpError}
    (h : writeCycle rs b wait s = .failed e t) : t.dev = s.dev ∨ t.dev = none := by
  have start : ((selectLines rs false s).andThen fun _ s => (busPut b s).andThen fun _ s =>
      setLine .e true s).KeepsDevice s :=
    ((setLine_keepsDevice _ _ (by simp) s).andThen fun _ _ => setLine_keepsDevice _ _ (by simp) _).andThen
      fun _ _ => (busPut_keepsDevice _ _).andThen fun _ _ => setLine_keepsDevice _ _ (by simp) _
  have cut : writeCycle rs b wait s = ((selectLines rs false s).andThen fun _ s => (busPut b s).andThen fun _ s =>
      setLine .e true s).andThen fun _ s => (setLine .e false s).andThen fun _ s => delay wait s := by
    simp only [writeCycle, pulse, Ran.andThen_assoc]
  rw [cut] at h
  revert h start
  generalize ((selectLines rs false s).andThen fun _ s => (busPut b s).andThen fun _ s => setLine .e true s) = r
  intro h start
  cases r with
  | failed e' u => cases h; exact start
  | ok v u =>
    rw [Ran.andThen_ok] at h
    cases ha : pinAnswerAt u 0 with
    | ok => rw [setLine_ok _ _ ha] at h; cases h
    | err e' => rw [setLine_err _ _ ha] at h; cases h; exact .inr rfl

/-! ### The bus and the driver -/

theorem busPut_fails (b : Byte) (s : State) :
    FailsAt s (busPut b s) (turnEvents s.bus.dir .out ++ [.drive b]) :=
  (turnBus_fails _ _).andThen fun h => by
    obtain ⟨t, h1, h2, -⟩ := turnBus_emits _ h
    exact ⟨_, _, h1, h2, driveBus_fails b t⟩

theorem busGet_fails (s : State) :
    FailsAt s (busGet s) (turnEvents s.bus.dir .sense ++ [.sample (sampleAt s 0)]) :=
  (turnBus_fails _ _).andThen fun h => by
    obtain ⟨t, h1, h2, -, -, -, h3⟩ := turnBus_emits _ h
    exact ⟨_, _, h1, h2, h3 0 ▸ sampleBus_fails t⟩

theorem selectLines_fails (rs rw : Bool) (s : State) :
    FailsAt s (selectLines rs rw s) [.line .rs rs, .line .rw rw] :=
  (setLine_fails _ _ _).andThen fun h => by
    obtain ⟨t, h1, h2, -⟩ := setLine_emits .rs rs (h 0 (by simp))
    exact ⟨_, _, h1, h2, setLine_fails _ _ t⟩

theorem pulse_fails (s : State) : FailsAt s (pulse s) [.line .e true, .line .e false] :=
  (setLine_fails _ _ _).andThen fun h => by
    obtain ⟨t, h1, h2, -⟩ := setLine_emits .e true (h 0 (by simp))
    exact ⟨_, _, h1, h2, setLine_fails _ _ t⟩

theorem writeCycle_fails (rs : Bool) (b : Byte) (wait : Nat) (s : State) :
    FailsAt s (writeCycle rs b wait s) (writePins rs s.bus.dir b) := by
  have whole := (selectLines_fails rs false s).andThen
    (k := fun _ s => (busPut b s).andThen fun _ s => (pulse s).andThen fun _ s => delay wait s)
    (p2 := (turnEvents s.bus.dir .out ++ [.drive b]) ++ ([.line .e true, .line .e false] ++ [])) fun h => by
      obtain ⟨t, h1, h2, -, hb, -⟩ := selectLines_emits rs false h
      refine ⟨_, _, h1, h2, ?_⟩
      rw [← hb]
      refine (busPut_fails b t).andThen fun h => ?_
      obtain ⟨u, h1, h2, -⟩ := busPut_emits b (by simpa using h)
      refine ⟨_, _, h1, by simpa using h2, (pulse_fails u).andThen fun h => ?_⟩
      obtain ⟨x, h1, h2, -⟩ := pulse_emits h
      exact ⟨_, _, h1, h2, .nil _ _⟩
  exact whole.cast (by simp [writePins])

theorem captureByte_fails (wait : Nat) (s : State) : FailsAt s (captureByte wait s)
    (turnEvents s.bus.dir .sense ++ [.sample (sampleAt s 0), .line .e false]) := by
  have whole := (busGet_fails s).andThen
    (k := fun v s => (setLine .e false s).andThen fun _ s => (delay wait s).andThen fun _ s => .ok v s)
    (p2 := [.line .e false] ++ []) fun h => by
      obtain ⟨u, h1, h2, -⟩ := busGet_emits (by simpa using h)
      refine ⟨_, _, h1, by simpa using h2, (setLine_fails .e false u).andThen fun h => ?_⟩
      obtain ⟨t, h1, h2, -⟩ := setLine_emits .e false (h 0 (by simp))
      exact ⟨_, _, h1, h2, .nil _ _⟩
  exact whole.cast (by simp)

theorem readCycle_fails (s : State) : FailsAt s (readCycle s) (readPins s.bus.dir (sampleAt s 0)) := by
  have whole := (selectLines_fails true true s).andThen
    (k := fun _ s => (setLine .e true s).andThen fun _ s => captureByte s.cfg.tData s)
    (p2 := [.line .e true] ++ (turnEvents s.bus.dir .sense ++ [.sample (sampleAt s 0), .line .e false])) fun h => by
      obtain ⟨t, h1, h2, -, hb, -, hs⟩ := selectLines_emits true true h
      refine ⟨_, _, h1, h2, (setLine_fails .e true t).andThen fun h => ?_⟩
      obtain ⟨u, h1, h2, -, hb2, -, hs2⟩ := setLine_emits (s := t) .e true (h 0 (by simp))
      refine ⟨_, _, h1, h2, ?_⟩
      rw [← hb, ← hb2, ← hs, ← hs2]
      exact captureByte_fails _ u
  exact whole.cast (by simp [readPins])

/-- The steps of DRV_READ_AC behind the selection of register and direction. -/
def readAcTail (s : State) : Ran Byte :=
  (dummyWrite .beforeEnable s).andThen fun _ s =>
  (setLine .e true s).andThen fun _ s =>
  (dummyWrite .afterEnable s).andThen fun _ s =>
  captureByte s.cfg.tAc s

theorem readAcCycle_fails (s : State) :
    FailsAt s (readAcCycle s) (readAcPins s.cfg.dummy s.bus.dir (sampleAt s 0)) := by
  cases hc : s.cfg.dummy with
  | beforeEnable =>
    have whole := (selectLines_fails false true s).andThen (k := fun _ s => readAcTail s)
      (p2 := (turnEvents s.bus.dir .out ++ [.drive 0#8]) ++
        ([.line .e true] ++ ([] ++ [.dir .sense, .sample (sampleAt s 0), .line .e false]))) fun h => by
        obtain ⟨t, h1, h2, -, hb, -, hs⟩ := selectLines_emits false true h
        refine ⟨_, _, h1, h2, ?_⟩
        have here : dummyWrite .beforeEnable t = busPut 0#8 t := by rw [dummyWrite, if_pos (by rw [h2.cfg, hc])]
        rw [readAcTail, here, ← hb]
        refine (busPut_fails _ _).andThen fun h => ?_
        obtain ⟨u, h1u, h2u, -, hbu, -, hsu⟩ := busPut_emits 0#8 (by simpa using h)
        refine ⟨_, _, h1u, by simpa using h2u, (setLine_fails _ _ _).andThen fun h => ?_⟩
        obtain ⟨v, h1v, h2v, -, hbv, -, hsv⟩ := setLine_emits (s := u) .e true (h 0 (by simp))
        refine ⟨_, _, h1v, h2v, ?_⟩
        have elsewhere : dummyWrite .afterEnable v = .ok () v :=
          dummyWrite_elsewhere _ (by rw [h2v.cfg, h2u.cfg, h2.cfg, hc]; decide)
        refine (FailsAt.nil _ _).andThen fun _ => ⟨_, _, elsewhere, .refl v, ?_⟩
        have tail := captureByte_fails v.cfg.tAc v
        rw [hbv, hbu] at tail
        rw [← hs, ← hsu, ← hsv]
        exact tail
    exact whole.cast (by simp [readAcPins])
  | afterEnable =>
    have whole := (selectLines_fails false true s).andThen (k := fun _ s => readAcTail s)
      (p2 := [] ++ ([.line .e true] ++ ((turnEvents s.bus.dir .out ++ [.drive 0#8]) ++
        [.dir .sense, .sample (sampleAt s 0), .line .e false]))) fun h => by
        obtain ⟨t, h1, h2, -, hb, -, hs⟩ := selectLines_emits false true h
        refine ⟨_, _, h1, h2, ?_⟩
        have elsewhere : dummyWrite .beforeEnable t = .ok () t :=
          dummyWrite_elsewhere _ (by rw [h2.cfg, hc]; decide)
        refine (FailsAt.nil _ _).andThen fun _ => ⟨_, _, elsewhere, .refl t, ?_⟩
        refine (setLine_fails _ _ _).andThen fun h => ?_
        obtain ⟨v, h1v, h2v, -, hbv, -, hsv⟩ := setLine_emits (s := t) .e true (h 0 (by simp))
        refine ⟨_, _, h1v, h2v, ?_⟩
        have here : dummyWrite .afterEnable v = busPut 0#8 v := by
          rw [dummyWrite, if_pos (by rw [h2v.cfg, h2.cfg, hc])]
        rw [here, ← hb, ← hbv]
        refine (busPut_fails _ _).andThen fun h => ?_
        obtain ⟨u, h1u, h2u, -, hbu, -, hsu⟩ := busPut_emits 0#8 (by simpa using h)
        refine ⟨_, _, h1u, by simpa using h2u, ?_⟩
        have tail := captureByte_fails u.cfg.tAc u
        rw [hbu] at tail
        rw [← hs, ← hsv, ← hsu]
        exact tail
    exact whole.cast (by simp [readAcPins])

end Sys2Proof.Machine
end

