-- ==== Sys2Proof/Laws/Diff.lean ====
section
/-! SUPPORT. The laws of the diff updater: which bytes a phase writes and from which addresses, and everything one
item of an operation list can do. -/

namespace Sys2Proof.Machine

/-! ### DIFF_COMPUTE (R231, R232) -/

/-- A list's elements with their indices. -/
theorem mem_zip_range {α : Type} (l : List α) (j : Nat) (b : α) :
    (j, b) ∈ (List.range l.length).zip l ↔ l[j]? = some b := by
  rw [List.mem_iff_getElem?]
  constructor
  · rintro ⟨i, hi⟩
    rw [List.getElem?_zip_eq_some] at hi
    obtain ⟨h1, h2⟩ := hi
    rw [List.getElem?_range (List.getElem?_eq_some_iff.mp h2).1] at h1
    cases h1
    exact h2
  · intro h
    exact ⟨j, List.getElem?_zip_eq_some.mpr ⟨List.getElem?_range (List.getElem?_eq_some_iff.mp h).1, h⟩⟩

/-- Every item of a phase is an address-set to a changed byte's address, or a write of a changed byte. -/
theorem mem_phaseOps (setAddress : Byte → DiffOp) (l : List (Nat × Byte)) :
    ∀ last, ∀ item ∈ phaseOps setAddress last l,
      (∃ e ∈ l, item = setAddress (BitVec.ofNat 8 e.1)) ∨ ∃ e ∈ l, item = .write e.2 := by
  induction l with
  | nil => intro last item h; simp [phaseOps] at h
  | cons e l ih =>
    obtain ⟨a, b⟩ := e
    intro last item h
    have parts : item = setAddress (BitVec.ofNat 8 a) ∨ item = .write b ∨ item ∈ phaseOps setAddress (some a) l := by
      simp only [phaseOps] at h
      split at h <;> simp at h <;> tauto
    rcases parts with rfl | rfl | h
    · exact .inl ⟨(a, b), by simp, rfl⟩
    · exact .inr ⟨(a, b), by simp, rfl⟩
    · rcases ih _ _ h with ⟨e, he, h⟩ | ⟨e, he, h⟩
      · exact .inl ⟨e, by simp [he], h⟩
      · exact .inr ⟨e, by simp [he], h⟩

/-! ### DIFF_APPLY (R234) -/

/-- The select level and the byte an item puts on the lines. -/
def itemBits : DiffOp → Bool × Byte
  | .setCG a => (false, 0x40#8 ||| (a &&& 0x3F#8))
  | .setDD a => (false, 0x80#8 ||| (a &&& 0x7F#8))
  | .write b => (true, b)

/-- The settle time of an item. -/
def itemWait (cfg : Config) : DiffOp → Nat
  | .setCG _ => cfg.tCmd
  | .setDD _ => cfg.tCmd
  | .write _ => cfg.tData

theorem itemEvents_eq (cfg : Config) (now : BusDir) (item : DiffOp) : itemEvents cfg now item =
    writePins (itemBits item).1 now (itemBits item).2 ++ [.delay (itemWait cfg item)] := by
  cases item <;> rfl

/-- An address command that encodes does so to its field's bits. -/
theorem encodeCommand_eq {policy : AddrPolicy} {cmd : Command} {b : Byte} (h : encodeCommand policy cmd = some b) :
    b = commandByte cmd := by
  unfold encodeCommand at h
  split at h
  · split at h
    · cases h; rfl
    · cases h
  · cases h; rfl

/-- Everything one item can do: raise `AddrRange` with nothing done, or run its write cycle. -/
theorem applyItem_cases (item : DiffOp) (s : State) :
    (∃ cmd, applyItem item s = .failed (.addrRange cmd) s) ∨
      applyItem item s = writeCycle (itemBits item).1 (itemBits item).2 (itemWait s.cfg item) s := by
  cases item with
  | write b => exact .inr rfl
  | setCG a | setDD a =>
    simp only [applyItem, commandCycle]
    split
    · exact .inl ⟨_, rfl⟩
    · rename_i b hb
      rw [encodeCommand_eq hb]
      exact .inr rfl

/-- What an item leaves where it completes (R193, R195, R234). -/
theorem applyItem_ok {item : DiffOp} {s t : State} (h : applyItem item s = .ok () t) :
    Emitted s t (itemEvents s.cfg s.bus.dir item) (writePins (itemBits item).1 s.bus.dir (itemBits item).2).length ∧
    t.lines = { rs := some (itemBits item).1, rw := some false, e := some false } ∧
    t.bus = { dir := .drivingOutput, out := (itemBits item).2 } ∧
    t.dev = s.dev.bind fun d => d.accept (wireWord (itemBits item).1 false (itemBits item).2) := by
  rcases applyItem_cases item s with ⟨cmd, hc⟩ | hw
  · rw [hc] at h; cases h
  · rw [hw] at h
    obtain ⟨u, r, e, l, b, d⟩ := writeCycle_emits (itemBits item).1 (itemBits item).2 (itemWait s.cfg item)
      ((writeCycle_fails _ _ _ _).pinsOk_of_ok h)
    rw [h] at r
    cases r
    rw [itemEvents_eq]
    exact ⟨e, l, b, d⟩

/-- What a latched item does to the device (R74, R75). -/
theorem accept_item (d : RefDevice) (item : DiffOp) :
    d.accept (wireWord (itemBits item).1 false (itemBits item).2) = some (itemEffect d item) := by
  cases item with
  | write b => unfold RefDevice.accept; rw [itemBits, decodeWire_data]; rfl
  | setCG a =>
    have field : ∀ a : Byte, 0x40#8 ||| (a &&& 0x3F#8) =
        commandByte (.setGlyphRamAddress ((a.setWidth 6).setWidth 8)) := by decide
    have counter : ∀ a : Byte, (a.setWidth 6).setWidth 7 = a.setWidth 7 &&& 0x3F#7 := by decide
    unfold RefDevice.accept
    simp only [itemBits]
    rw [field, decodeWire_command, decodeCommand_cgram, itemEffect, ← counter]
  | setDD a =>
    have field : ∀ a : Byte, 0x80#8 ||| (a &&& 0x7F#8) =
        commandByte (.setDisplayRamAddress ((a.setWidth 7).setWidth 8)) := by decide
    unfold RefDevice.accept
    simp only [itemBits]
    rw [field, decodeWire_command, decodeCommand_ddram, itemEffect]

/-- A data write of the device stores at `storesAt` and nowhere else (R75). -/
theorem read_writeData_other (d : RefDevice) (b : Byte) :
    (∀ a, (Region.dd, a) ≠ storesAt d → (d.writeData b).ddram.read a = d.ddram.read a) ∧
    ∀ a, (Region.cg, a) ≠ storesAt d → (d.writeData b).cgram.read a = d.cgram.read a := by
  cases h : d.region with
  | cg =>
    simp only [storesAt, RefDevice.writeData, h]
    exact ⟨fun _ _ => trivial, fun a ha => Memory.read_write_other _ _ (by simpa using ha)⟩
  | dd =>
    simp only [storesAt, RefDevice.writeData, h]
    exact ⟨fun a ha => Memory.read_write_other _ _ (by simpa using ha), fun _ _ => trivial⟩

/-- An operation list that ends with result `unit` completed every item. -/
theorem applyOps_of_unit {ops : List DiffOp} {s t : State} (h : exec (.diffApply ops) s = .next t)
    (hr : t.host.result = .unit) : ∃ u, applyOps ops s = .ok () u ∧ t = u.withResult .unit := by
  cases ops with
  | nil => cases h; exact ⟨s, rfl, rfl⟩
  | cons item rest =>
    obtain ⟨-, rfl⟩ := guarded_next h
    cases hx : applyOps (item :: rest) s with
    | ok v u => exact ⟨u, rfl, rfl⟩
    | failed e u => rw [hx] at hr; simp at hr

end Sys2Proof.Machine
end

