-- ==== Sys2Proof/Laws/Exec.lean ====
section
/-! SUPPORT. Everything exec and step can do that ends in a next state, said once: either the steps of a
pin-touching operation closed by its result, or an operation that touches no pin. -/

namespace Sys2Proof.Machine

/-- What an operation that touches no pin leaves as it was, and that it ends in no error (60_exceptions.md R252). -/
structure PureStep (s t : State) : Prop where
  cfg : t.cfg = s.cfg
  bus : t.bus = s.bus
  lines : t.lines = s.lines
  fault : t.fault = s.fault
  trace : t.trace = s.trace
  env : t.env = s.env
  dev : t.dev = s.dev
  pending : t.host.pending = s.host.pending
  result : ∀ e, t.host.result ≠ .error e

/-- A next state of exec is the closing state of steps that keep what `Ran.Keeps` says, from a state with no
fault, or what `PureStep` says. -/
theorem exec_next {i : Instr} {s t : State} (h : exec i s = .next t) :
    (∃ (α : Type) (r : Ran α) (f : α → OpResult),
      r.Keeps s ∧ (∀ v e, f v ≠ .error e) ∧ s.fault = none ∧ t = r.close f) ∨ PureStep s t := by
  cases i
  case drvExec | clear | returnHome | entryMode | onOff | shift | functionSet | setCgramAddr | setDdramAddr =>
    obtain ⟨h1, h2⟩ := guarded_next h
    exact .inl ⟨_, _, _, commandCycle_keeps _ _, by simp, h1, h2⟩
  case drvWrite | writeData =>
    obtain ⟨h1, h2⟩ := guarded_next h
    exact .inl ⟨_, _, _, dataCycle_keeps _ _, by simp, h1, h2⟩
  case drvRead | readData =>
    obtain ⟨h1, h2⟩ := guarded_next h
    exact .inl ⟨_, _, _, readCycle_keeps _, by simp, h1, h2⟩
  case drvReadAc | readBfAc =>
    obtain ⟨h1, h2⟩ := guarded_next h
    exact .inl ⟨_, _, _, readAcCycle_keeps _, by simp, h1, h2⟩
  case busWrite =>
    obtain ⟨h1, h2⟩ := guarded_next h
    exact .inl ⟨_, _, _, busPut_keeps _ _, by simp, h1, h2⟩
  case busRead =>
    obtain ⟨h1, h2⟩ := guarded_next h
    exact .inl ⟨_, _, _, busGet_keeps _, by simp, h1, h2⟩
  case diffApply ops =>
    cases ops with
    | nil => cases h; exact .inr (by constructor <;> simp)
    | cons item rest =>
      obtain ⟨h1, h2⟩ := guarded_next h
      exact .inl ⟨_, _, _, applyOps_keeps _ _, by simp, h1, h2⟩
  case cacheResolve | cacheImage =>
    simp only [exec, execCacheResolve, execCacheImage, ifCountLegal] at h
    split at h
    · cases h; exact .inr (by constructor <;> simp)
    · cases h
  case diffCompute =>
    simp only [exec, execDiffCompute] at h
    split at h
    · cases h; exact .inr (by constructor <;> simp)
    · cases h
  all_goals (cases h; exact .inr (by constructor <;> simp))

/-- A next state of step is the state itself, with no request pending, or that of the first request's
instruction. -/
theorem step_next {s t : State} (h : step s = .next t) :
    (s.host.pending = [] ∧ t = s) ∨
      ∃ r rest i, s.host.pending = r :: rest ∧ decode r = .ok i ∧ exec i (s.withPending rest) = .next t := by
  unfold step fetch at h
  cases hp : s.host.pending with
  | nil =>
    simp only [hp, Host.Outcome.next.injEq] at h
    exact .inl ⟨rfl, h.symm⟩
  | cons r rest =>
    simp only [hp] at h
    cases hd : decode r with
    | error e => simp [hd] at h
    | ok i =>
      simp only [hd] at h
      exact .inr ⟨_, _, _, rfl, hd, h⟩

end Sys2Proof.Machine
end

