-- ==== Sys2Proof/Laws/PerInstr.lean ====
section
/-! SUPPORT. Statements made once per instruction, for the host's case split. Encodes: an instruction's request
is a host request with a selector that is not reserved (30_encoding.md R104, R105), or the wire word of a row of
R91 that the decoder reads back. -/

namespace Sys2Proof.Laws.Encodes

/-- The request of an instruction is one the tables give it. -/
def Statement (i : Instr) : Prop :=
  (∃ op bytes, encode i = .host op bytes ∧ op.toNat ≤ 0x12) ∨ (∃ w, encode i = .wire w ∧ decodeWire w = some i)

theorem glyphRender (c : Char) : Statement (.glyphRender c) := .inl ⟨_, _, rfl, by decide⟩
theorem glyphEq (g1 g2 : Glyph) : Statement (.glyphEq g1 g2) := .inl ⟨_, _, rfl, by decide⟩
theorem glyphDistance (g1 g2 : Glyph) : Statement (.glyphDistance g1 g2) := .inl ⟨_, _, rfl, by decide⟩
theorem romSearch (g : Glyph) : Statement (.romSearch g) := .inl ⟨_, _, rfl, by decide⟩
theorem cacheFlush : Statement .cacheFlush := .inl ⟨_, _, rfl, by decide⟩
theorem cacheResolve (g : Glyph) : Statement (.cacheResolve g) := .inl ⟨_, _, rfl, by decide⟩
theorem cacheImage : Statement .cacheImage := .inl ⟨_, _, rfl, by decide⟩
theorem canvasInit (gap : Gap) : Statement (.canvasInit gap) := .inl ⟨_, _, rfl, by decide⟩
theorem canvasWrite (text : List Char) (ovr : Option Gap) : Statement (.canvasWrite text ovr) :=
  .inl ⟨_, _, rfl, by decide⟩
theorem canvasShiftLeft (ovr : Option Gap) : Statement (.canvasShiftLeft ovr) := .inl ⟨_, _, rfl, by decide⟩
theorem canvasRender : Statement .canvasRender := .inl ⟨_, _, rfl, by decide⟩
theorem drvExec (cmd : Command) : Statement (.drvExec cmd) := .inl ⟨_, _, rfl, by decide⟩
theorem drvWrite (b : Byte) : Statement (.drvWrite b) := .inl ⟨_, _, rfl, by decide⟩
theorem drvReadAc : Statement .drvReadAc := .inl ⟨_, _, rfl, by decide⟩
theorem drvRead : Statement .drvRead := .inl ⟨_, _, rfl, by decide⟩
theorem busWrite (b : Byte) : Statement (.busWrite b) := .inl ⟨_, _, rfl, by decide⟩
theorem busRead : Statement .busRead := .inl ⟨_, _, rfl, by decide⟩
theorem diffCompute (prevDD : Option Image) (prevCG : Option (List Byte)) (newDD : Image) (newCG : List Byte) :
    Statement (.diffCompute prevDD prevCG newDD newCG) := .inl ⟨_, _, rfl, by decide⟩
theorem diffApply (ops : List DiffOp) : Statement (.diffApply ops) := .inl ⟨_, _, rfl, by decide⟩
theorem clear : Statement .clear := .inr ⟨_, rfl, by decide⟩
theorem returnHome : Statement .returnHome := .inr ⟨_, rfl, by decide⟩
theorem entryMode (direction : Dir) (displayShift : Bool) : Statement (.entryMode direction displayShift) :=
  .inr ⟨_, rfl, by cases direction <;> cases displayShift <;> decide⟩
theorem onOff (display cursor blink : Bool) : Statement (.onOff display cursor blink) :=
  .inr ⟨_, rfl, by cases display <;> cases cursor <;> cases blink <;> decide⟩
theorem shift (target : ShiftTarget) (direction : Dir) : Statement (.shift target direction) :=
  .inr ⟨_, rfl, by cases target <;> cases direction <;> decide⟩
theorem functionSet (lines : LineCount) (font : FontSize) : Statement (.functionSet lines font) :=
  .inr ⟨_, rfl, by cases lines <;> cases font <;> decide⟩
theorem setCgramAddr (a : BitVec 6) : Statement (.setCgramAddr a) :=
  .inr ⟨_, rfl, (decodeWire_command _).trans (decodeCommand_cgram a)⟩
theorem setDdramAddr (a : BitVec 7) : Statement (.setDdramAddr a) :=
  .inr ⟨_, rfl, (decodeWire_command _).trans (decodeCommand_ddram a)⟩
theorem readBfAc : Statement .readBfAc := .inr ⟨_, rfl, decodeWire_readAc _⟩
theorem writeData (b : Byte) : Statement (.writeData b) := .inr ⟨_, rfl, decodeWire_data b⟩
theorem readData : Statement .readData := .inr ⟨_, rfl, decodeWire_readData _⟩

end Sys2Proof.Laws.Encodes
end

