-- ==== Sys2Proof/Tests/Slice0.lean ====
section
/-! SUPPORT. Tests on fixed values. Expected results are the test vectors of spec/95_test_vectors.md (S, V and
P numbers) or are worked out by hand from the rule a comment names, never taken from the model. -/

namespace Sys2Proof.Machine.Test

/-! ### The common configuration of 95_test_vectors.md, and small states -/

def GA : Glyph := #v[0x0E#8, 0x11#8, 0x11#8, 0x11#8, 0x1F#8, 0x11#8, 0x11#8, 0x00#8]
def GB : Glyph := #v[0x1E#8, 0x11#8, 0x11#8, 0x1E#8, 0x11#8, 0x11#8, 0x1E#8, 0x00#8]
def X1 : Glyph := #v[0x1F#8, 0, 0, 0, 0, 0, 0, 0]
def X2 : Glyph := #v[0, 0x1F#8, 0, 0, 0, 0, 0, 0]
def X9 : Glyph := #v[0x01#8, 0, 0, 0, 0, 0, 0, 0]

/-- `X1, …, X8`. -/
def eightGlyphs : List Glyph := (List.finRange 8).map fun k => Vector.ofFn fun r => if r = k then 0x1F#8 else 0#8

/-- GA after one `Hide` shift (V46). -/
def GA1 : Glyph := #v[0x1C#8, 0x22#8, 0x22#8, 0x22#8, 0x3E#8, 0x22#8, 0x22#8, 0x00#8]

def cfg : Config :=
  { font := ⟨[('A', GA), ('B', GB)], by decide⟩
    rom := ⟨[(GA, 0x41#8), (GB, 0x42#8), (Glyph.blank, 0x20#8)], by decide⟩
    initialGap := .hide
    timeUnit := 1 }

/-- From reset under the common configuration, every one of the next eight pin operations answered `Ok`, and
the device answering `0x48`. -/
def s0 : State :=
  { State.resetWith cfg with
      env := { pinScript := List.replicate 8 .ok, pinCount := 0, sampleScript := [0x48#8], sampleCount := 0 } }

def driving : State := s0.withBusDir .drivingOutput
def sensing : State := s0.withBusDir .sensingInput
def withSlotsOf (slots : List Glyph) : State := s0.withSlots slots
def canvasOf (cells : Cells) : State := s0.withCells cells
def cellsAB : Cells := ((Vector.replicate 16 Glyph.blank).set 0 GA).set 1 GB
def cellsA : Cells := (Vector.replicate 16 Glyph.blank).set 0 GA

/-- A device with a known address counter, counting up. -/
def devAt (region : Region) (ac : BitVec 7) : RefDevice :=
  { ac := ac, region := region, ddram := [], cgram := [], inc := true }

/-- The next state of an outcome, where it is one. -/
def after (o : Host.Outcome State Fault Refusal) : Option State :=
  match o with
  | .next t => some t
  | .fault _ => none
  | .refused _ => none

def resultOf (o : Host.Outcome State Fault Refusal) : Option OpResult := (after o).map fun t => t.host.result
def traceOf (o : Host.Outcome State Fault Refusal) : Option (List Event) := (after o).map fun t => t.trace
def slotsOf (o : Host.Outcome State Fault Refusal) : Option (List Glyph) := (after o).map fun t => t.cache.slots
def cellOf (k : Fin 16) (o : Host.Outcome State Fault Refusal) : Option Glyph :=
  (after o).map fun t => t.canvas.cells[k]
def refusalOf (o : Host.Outcome State Fault Refusal) : Option Refusal :=
  match o with
  | .refused r => some r
  | .next _ => none
  | .fault _ => none
def faultOf (o : Host.Outcome State Fault Refusal) : Option Fault :=
  match o with
  | .fault f => some f
  | .next _ => none
  | .refused _ => none

/-! ### WellFormed smoke test: the one operand bound (R231), broken -/

def tooLong : Instr := .diffCompute none none (Vector.replicate 16 0) (List.replicate 65 0)

theorem test_wellFormed_refuses_65_bytes : tooLong.wellFormed = false := by decide
theorem test_wellFormed_takes_64_bytes :
    (Instr.diffCompute none none (Vector.replicate 16 0) (List.replicate 64 0)).wellFormed = true := by decide
set_option maxRecDepth 4000 in
theorem test_decode_refuses_65_bytes : (decode (encode tooLong)).toOption = none := by decide
theorem test_exec_refuses_65_bytes : refusalOf (exec tooLong s0) = some .illFormed := by decide

/-! ### Configuration check (R13, R14, D36) -/

theorem test_font_row_too_wide : (FontTable.check [('A', GA1)]).toOption = none := by decide
theorem test_font_legal : (FontTable.check [('A', GA)]).toOption.isSome = true := by decide
theorem test_rom_needs_blank : romProblem [(GA, 0x41#8)] = some .romLacksBlank := by decide
theorem test_rom_injective : romProblem [(GA, 0x41#8), (Glyph.blank, 0x41#8)] = some .romNotInjective := by decide
theorem test_rom_reserved_address : romProblem [(Glyph.blank, 0x0F#8)] = some .romAddressReserved := by decide

/-! ### Decoding: every constructor, from a word written out by hand (R104, R91, R92 to R100) -/

theorem test_decode_wire_commands :
    decodeWire 0b0000000001#10 = some .clear ∧
    decodeWire 0b0000000010#10 = some .returnHome ∧
    decodeWire 0b0000000110#10 = some (.entryMode .right false) ∧
    decodeWire 0b0000000101#10 = some (.entryMode .left true) ∧
    decodeWire 0b0000001100#10 = some (.onOff true false false) ∧
    decodeWire 0b0000001010#10 = some (.onOff false true false) ∧
    decodeWire 0b0000011000#10 = some (.shift .display .left) ∧
    decodeWire 0b0000010100#10 = some (.shift .cursor .right) ∧
    decodeWire 0b0000111000#10 = some (.functionSet .two .f5x8) ∧
    decodeWire 0b0000110100#10 = some (.functionSet .one .f5x11) ∧
    decodeWire 0b0001001000#10 = some (.setCgramAddr 0x08#6) ∧
    decodeWire 0b0011000000#10 = some (.setDdramAddr 0x40#7) := by decide

theorem test_decode_wire_data :
    decodeWire 0b0111001000#10 = some .readBfAc ∧
    decodeWire 0b1001000001#10 = some (.writeData 0x41#8) ∧
    decodeWire 0b1110100101#10 = some .readData := by decide

/-- R92 and R103: the byte `0x00` selects no command; a don't-care bit changes nothing. -/
theorem test_decode_wire_corners :
    decodeWire 0b0000000000#10 = none ∧
    decodeWire 0b0000000011#10 = some .returnHome ∧
    decodeWire 0b0000101100#10 = some (.functionSet .two .f5x11) := by decide

theorem test_decode_host_glyphs :
    (decode (.host 0x00#5 [0x41#8, 0x00#8, 0x00#8])).toOption = some (.glyphRender 'A') ∧
    (decode (.host 0x01#5 (GA.toList ++ GB.toList))).toOption = some (.glyphEq GA GB) ∧
    (decode (.host 0x02#5 (GA.toList ++ GB.toList))).toOption = some (.glyphDistance GA GB) ∧
    (decode (.host 0x03#5 GA.toList)).toOption = some (.romSearch GA) ∧
    (decode (.host 0x04#5 [])).toOption = some .cacheFlush ∧
    (decode (.host 0x05#5 X1.toList)).toOption = some (.cacheResolve X1) ∧
    (decode (.host 0x06#5 [])).toOption = some .cacheImage := by decide

theorem test_decode_host_canvas :
    (decode (.host 0x07#5 [1#8])).toOption = some (.canvasInit .hide) ∧
    (decode (.host 0x08#5 [1#8, 0x41#8, 0#8, 0#8, 1#8, 0x3A#8, 0x26#8, 0#8, 0#8, 1#8, 0#8])).toOption
      = some (.canvasWrite ['A', '☺'] (some .skip)) ∧
    (decode (.host 0x09#5 [0#8])).toOption = some (.canvasShiftLeft none) ∧
    (decode (.host 0x0A#5 [])).toOption = some .canvasRender := by decide

theorem test_decode_host_driver :
    (decode (.host 0x0B#5 [7#8, 0x90#8])).toOption = some (.drvExec (.setDisplayRamAddress 0x90#8)) ∧
    (decode (.host 0x0C#5 [0x41#8])).toOption = some (.drvWrite 0x41#8) ∧
    (decode (.host 0x0D#5 [])).toOption = some .drvReadAc ∧
    (decode (.host 0x0E#5 [])).toOption = some .drvRead ∧
    (decode (.host 0x0F#5 [0xA5#8])).toOption = some (.busWrite 0xA5#8) ∧
    (decode (.host 0x10#5 [])).toOption = some .busRead := by decide

theorem test_decode_host_diff :
    (decode (.host 0x11#5 ([0#8, 1#8, 1#8, 5#8, 0#8] ++ List.replicate 16 0x20#8 ++ [0#8]))).toOption
      = some (.diffCompute none (some [5#8]) (Vector.replicate 16 0x20#8) []) ∧
    (decode (.host 0x12#5 [1#8, 1#8, 0x03#8, 1#8, 2#8, 0x41#8, 0#8])).toOption
      = some (.diffApply [.setDD 0x03#8, .write 0x41#8]) := by decide

/-- R105 and V118: a reserved selector; and operand bytes left over. -/
theorem test_decode_host_refuses :
    refusalOf (step (s0.withPending [.host 0x15#5 []])) = some (.undecodable (.reservedSelector 0x15#5)) ∧
    refusalOf (step (s0.withPending [.host 0x0C#5 [1#8, 2#8]])) = some (.undecodable (.badOperands 0x0C#5)) ∧
    refusalOf (step (s0.withPending [.wire 0#10])) = some (.undecodable .noCommand) := by decide

/-- The table's rows, in the table's numbering, reach the machine and run right after reset. -/
theorem test_table_words_run_first :
    (List.range 19).all (fun w => (after (step (State.reset.withFetchWord 8 w))).isSome) = true ∧
    [0x001, 0x002, 0x004, 0x008, 0x010, 0x020, 0x040, 0x080, 0x100, 0x200, 0x300].all
      (fun w => (after (step (State.reset.withFetchWord 16 w))).isSome) = true := by decide

/-! ### Glyph and ROM (V1 to V15) -/

theorem test_glyphRender : resultOf (exec (.glyphRender 'A') s0) = some (.glyph GA) ∧
    resultOf (exec (.glyphRender ' ') s0) = some (.glyph Glyph.blank) := by decide
theorem test_glyphEq_hidden_bit : resultOf (exec (.glyphEq X9 (X9.set 0 0x21#8)) s0) = some (.bool false) := by decide
theorem test_glyphDistance : resultOf (exec (.glyphDistance GA GB) s0) = some (.number 12) ∧
    resultOf (exec (.glyphDistance GA GA1) s0) = some (.number 18) := by decide
theorem test_glyphDistance_extremes :
    resultOf (exec (.glyphDistance (Vector.replicate 8 0x1F#8) Glyph.blank) s0) = some (.number 40) ∧
    resultOf (exec (.glyphDistance (X9.set 0 0x21#8) X9) s0) = some (.number 0) := by decide
theorem test_romSearch : resultOf (exec (.romSearch GA) s0) = some (.address (some 0x41#8)) ∧
    resultOf (exec (.romSearch (GA.set 0 0x2E#8)) s0) = some (.address none) := by decide

/-! ### Cache (V20 to V28) -/

theorem test_cacheResolve_allocates : resultOf (exec (.cacheResolve X2) (withSlotsOf [X1])) = some (.byte 0x01#8) ∧
    slotsOf (exec (.cacheResolve X2) (withSlotsOf [X1])) = some [X1, X2] := by decide
theorem test_cacheResolve_full : resultOf (exec (.cacheResolve X9) (withSlotsOf eightGlyphs)) = some (.byte 0x20#8) ∧
    resultOf (exec (.cacheResolve GA) (withSlotsOf eightGlyphs)) = some (.byte 0x41#8) := by decide
theorem test_cacheFlush : slotsOf (exec .cacheFlush (withSlotsOf [X1, X2])) = some [] := by decide
theorem test_cacheImage : resultOf (exec .cacheImage (withSlotsOf [X1, X2]))
    = some (.bytes [0x1F#8, 0, 0, 0, 0, 0, 0, 0, 0, 0x1F#8, 0, 0, 0, 0, 0, 0]) := by decide
theorem test_cacheImage_illegal_count :
    faultOf (exec .cacheImage (withSlotsOf (X9 :: eightGlyphs))) = some .cacheCountIllegal := by decide

/-! ### Canvas (V40 to V56, S6) -/

theorem test_canvasInit : (after (exec (.canvasInit .skip) (canvasOf cellsAB))).map (fun t => t.canvas)
    = some { cells := Vector.replicate 16 Glyph.blank, gap := .skip } := by decide
theorem test_canvasWrite_wraps :
    cellOf 0 (exec (.canvasWrite (List.replicate 16 'A' ++ ['B']) none) s0) = some GB ∧
    cellOf 15 (exec (.canvasWrite (List.replicate 16 'A' ++ ['B']) none) s0) = some GA := by decide
theorem test_canvasWrite_skip_preshift :
    cellOf 0 (exec (.canvasWrite ['A', 'B', 'A'] (some .skip)) s0)
      = some #v[0x18#8, 0x04#8, 0x04#8, 0x04#8, 0x1C#8, 0x04#8, 0x04#8, 0x00#8] ∧
    cellOf 2 (exec (.canvasWrite ['A', 'B', 'A'] (some .skip)) s0) = some GA := by decide
theorem test_canvasShiftLeft_hide : cellOf 0 (exec (.canvasShiftLeft none) (canvasOf cellsA)) = some GA1 ∧
    cellOf 15 (exec (.canvasShiftLeft none) (canvasOf (cellsA.set 0 GA1)))
      = some #v[0x00#8, 0x01#8, 0x01#8, 0x01#8, 0x01#8, 0x01#8, 0x01#8, 0x00#8] := by decide
theorem test_canvasShiftLeft_skip_widthBit :
    cellOf 0 (exec (.canvasShiftLeft (some .skip))
      { canvasOf cellsAB with cfg := { cfg with carry := .widthBit } })
      = some #v[0x1D#8, 0x03#8, 0x03#8, 0x03#8, 0x1F#8, 0x03#8, 0x03#8, 0x00#8] := by decide
theorem test_canvasRender : resultOf (exec .canvasRender (canvasOf cellsAB))
    = some (.images ((Vector.replicate 16 0x20#8).set 0 0x41#8 |>.set 1 0x42#8) []) := by decide
theorem test_canvasRender_custom : resultOf (exec .canvasRender (canvasOf (cellsA.set 0 GA1)))
    = some (.images ((Vector.replicate 16 0x20#8).set 0 0x00#8) GA1.toList) := by decide

/-! ### Driver and bus (V80 to V93) -/

theorem test_drvExec_clear : traceOf (exec (.drvExec .clear) s0)
    = some [.line .rs false, .line .rw false, .dir .out, .drive 0x01#8, .line .e true, .line .e false,
      .delay 1600] := by decide
theorem test_drvExec_addrRange :
    resultOf (exec (.drvExec (.setDisplayRamAddress 0x90#8)) s0)
      = some (.error (.addrRange (.setDisplayRamAddress 0x90#8))) ∧
    traceOf (exec (.drvExec (.setDisplayRamAddress 0x90#8)) s0) = some [] := by decide
theorem test_drvWrite : traceOf (exec (.drvWrite 0x41#8) sensing)
    = some [.line .rs true, .line .rw false, .dir .out, .drive 0x41#8, .line .e true, .line .e false,
      .delay 37] := by decide
theorem test_drvReadAc : traceOf (exec .drvReadAc driving)
    = some [.line .rs false, .line .rw true, .drive 0x00#8, .line .e true, .dir .sense, .sample 0x48#8,
      .line .e false, .delay 1] ∧ resultOf (exec .drvReadAc driving) = some (.byte 0x48#8) := by decide
theorem test_drvReadAc_afterEnable :
    traceOf (exec .drvReadAc { driving with cfg := { cfg with dummy := .afterEnable } })
      = some [.line .rs false, .line .rw true, .line .e true, .drive 0x00#8, .dir .sense, .sample 0x48#8,
        .line .e false, .delay 1] := by decide
theorem test_drvRead : traceOf (exec .drvRead sensing)
    = some [.line .rs true, .line .rw true, .line .e true, .sample 0x48#8, .line .e false, .delay 37] := by decide
theorem test_busWrite : traceOf (exec (.busWrite 0xA5#8) sensing) = some [.dir .out, .drive 0xA5#8] ∧
    (after (exec (.busWrite 0xA5#8) sensing)).map (fun t => t.bus) = some ⟨.drivingOutput, 0xA5#8⟩ := by decide
theorem test_busRead : traceOf (exec .busRead driving) = some [.dir .sense, .sample 0x48#8] ∧
    traceOf (exec .busRead sensing) = some [.sample 0x48#8] := by decide

/-! ### Diff (V100 to V111, S5, P4) -/

theorem test_diffCompute_cells_7_and_8 :
    resultOf (exec (.diffCompute (some (Vector.replicate 16 0x20#8)) (some [])
      ((Vector.replicate 16 0x20#8).set 7 0x41#8 |>.set 8 0x42#8) []) s0)
      = some (.opList [.setDD 0x07#8, .write 0x41#8, .setDD 0x40#8, .write 0x42#8]) := by decide
theorem test_diffCompute_glyph_ram :
    resultOf (exec (.diffCompute (some (Vector.replicate 16 0#8)) (some (List.replicate 16 0#8))
      (Vector.replicate 16 0#8) [0, 0, 0, 5#8, 0, 0, 0, 0, 0, 7#8, 8#8, 0, 0, 0, 0, 0]) s0)
      = some (.opList [.setCG 0x03#8, .write 0x05#8, .setCG 0x09#8, .write 0x07#8, .write 0x08#8]) := by decide
theorem test_diffApply_empty_while_faulted :
    resultOf (exec (.diffApply []) (s0.withFault (some ⟨7⟩))) = some .unit := by decide
/-- P4: `Err e` at the seventh pin operation of an update. -/
theorem test_diffApply_aborts :
    (after (exec (.diffApply [.setDD 0x03#8, .write 0x41#8, .write 0x42#8])
      { driving with env := { driving.env with pinScript := List.replicate 6 .ok ++ [.err ⟨7⟩] } })).map
      (fun t => (t.trace, t.lines, t.bus, t.fault, t.host.result))
    = some ([.line .rs false, .line .rw false, .drive 0x83#8, .line .e true, .line .e false, .delay 40,
        .line .rs true, .line .rw false], ⟨some true, none, some false⟩, ⟨.drivingOutput, 0x83#8⟩, some ⟨7⟩,
        .error (.hwError ⟨7⟩)) := by decide

/-! ### Wire operations and the reference device (V60 to V77, R74, R75) -/

def drives (i : Instr) (b : Byte) (wait : Nat) : Bool :=
  match traceOf (exec i driving) with
  | some evs => evs.contains (.drive b) && evs.contains (.delay wait)
  | none => false

theorem test_wire_bytes :
    drives .clear 0x01#8 1600 = true ∧ drives .returnHome 0x02#8 1600 = true ∧
    drives (.entryMode .right false) 0x06#8 40 = true ∧ drives (.onOff true true true) 0x0F#8 40 = true ∧
    drives (.shift .display .left) 0x18#8 40 = true ∧ drives (.functionSet .two .f5x8) 0x38#8 40 = true ∧
    drives (.setCgramAddr 0x3F#6) 0x7F#8 40 = true ∧ drives (.setDdramAddr 0x40#7) 0xC0#8 40 = true := by decide

theorem test_wire_writeData_device :
    (after (exec (.writeData 0x41#8) (driving.withDev (some (devAt .dd 0x40#7))))).map (fun t => t.dev)
      = some (some { devAt .dd 0x41#7 with ddram := [(0x40, 0x41#8)] }) := by decide
theorem test_wire_setCgramAddr_device :
    (after (exec (.setCgramAddr 0x09#6) (driving.withDev (some (devAt .dd 0x40#7))))).map (fun t => t.dev)
      = some (some (devAt .cg 0x09#7)) := by decide
theorem test_wire_clear_leaves_reference_device :
    (after (exec .clear (driving.withDev (some (devAt .dd 0x40#7))))).map (fun t => t.dev) = some none := by decide
theorem test_wire_readData_device :
    (after (exec .readData (sensing.withDev (some (devAt .cg 0x3F#7))))).map (fun t => t.dev)
      = some (some (devAt .cg 0x00#7)) := by decide
theorem test_wire_readBfAc_device :
    (after (exec .readBfAc (driving.withDev (some (devAt .dd 0x48#7))))).map (fun t => (t.dev, t.host.result))
      = some (some (devAt .dd 0x48#7), .byte 0x48#8) := by decide

/-! ### Errors (V113, V115, V116) -/

theorem test_refused_while_faulted :
    refusalOf (exec (.drvWrite 0#8) (s0.withFault (some ⟨7⟩))) = some .stickyFault ∧
    refusalOf (exec .busRead (s0.withFault (some ⟨7⟩))) = some .stickyFault ∧
    refusalOf (exec (.diffApply [.write 0#8]) (s0.withFault (some ⟨7⟩))) = some .stickyFault := by decide
theorem test_failure_at_drive :
    (after (exec (.drvExec .clear)
      { driving with env := { driving.env with pinScript := [.ok, .ok, .err ⟨7⟩] } })).map
      (fun t => (t.trace, t.fault, t.host.result))
    = some ([.line .rs false, .line .rw false, .drive 0x01#8], some ⟨7⟩, .error (.hwError ⟨7⟩)) := by decide
theorem test_failure_at_dir :
    (after (exec (.busWrite 0x12#8) { s0 with env := { s0.env with pinScript := [.err ⟨7⟩] } })).map
      (fun t => (t.trace, t.fault)) = some ([.dir .out], some ⟨7⟩) := by decide

/-! ### Witnesses: for each obligation with hypotheses, concrete states and operands that meet them together, for
each of its clauses, at the ends of the clause's range -/

/-- The next pin operations of `s` are answered as the script says. -/
def answering (script : List PinAnswer) (s : State) : State := s.withEnv { s.env with pinScript := script }

def okThenErr (n : Nat) (s : State) : State := answering (List.replicate n .ok ++ [.err ⟨7⟩]) s
def masking : State := { s0 with cfg := { cfg with addrPolicy := .mask } }
def deviced (region : Region) (ac : BitVec 7) : State := s0.withDev (some (devAt region ac))
def isNext (o : Host.Outcome State Fault Refusal) : Bool := (after o).isSome

theorem wit_DecodeInvertsEncode :
    Instr.wellFormed (.diffCompute none (some []) (Vector.replicate 16 0) [0]) = true := by decide

theorem wit_CommandByteLayouts : (0x3F#8 : Byte) ≤ 0x3F#8 ∧ commandByte (.setGlyphRamAddress 0x3F#8) = 0x7F#8 ∧
    (0x7F#8 : Byte) ≤ 0x7F#8 ∧ commandByte (.setDisplayRamAddress 0x7F#8) = 0xFF#8 := by decide

/-- Both ends of each range of R92. -/
theorem wit_HighestSetBitSelectsCommand :
    decodeCommand 0x80#8 = some (.setDdramAddr 0x00#7) ∧ decodeCommand 0xFF#8 = some (.setDdramAddr 0x7F#7) ∧
    decodeCommand 0x40#8 = some (.setCgramAddr 0x00#6) ∧ decodeCommand 0x7F#8 = some (.setCgramAddr 0x3F#6) ∧
    decodeCommand 0x20#8 = some (.functionSet .one .f5x8) ∧ decodeCommand 0x3F#8 = some (.functionSet .two .f5x11) ∧
    decodeCommand 0x10#8 = some (.shift .cursor .left) ∧ decodeCommand 0x1F#8 = some (.shift .display .right) ∧
    decodeCommand 0x08#8 = some (.onOff false false false) ∧ decodeCommand 0x0F#8 = some (.onOff true true true) ∧
    decodeCommand 0x04#8 = some (.entryMode .left false) ∧ decodeCommand 0x07#8 = some (.entryMode .right true) ∧
    decodeCommand 0x02#8 = some .returnHome ∧ decodeCommand 0x03#8 = some .returnHome := by decide

theorem wit_ReservedSelectorsRefused :
    (s0.withPending [.host 0x13#5 [], .host 0x1F#5 [1#8]]).host.pending = .host 0x13#5 [] :: [.host 0x1F#5 [1#8]] ∧
    0x13 ≤ (0x13#5).toNat ∧ 0x13 ≤ (0x1F#5).toNat := by decide

theorem wit_StepRunsDecodedRequest :
    (s0.withPending [.wire 0x001#10]).host.pending = .wire 0x001#10 :: [] ∧
    decodeWire 0x001#10 = some .clear ∧ decodeWire 0x000#10 = none ∧ s0.host.pending = [] := by decide

theorem wit_GlyphRenderGivesFontGlyphOrBlank :
    ('A', GA) ∈ s0.cfg.font.entries ∧ s0.cfg.font.entries.map Prod.fst = ['A', 'B'] := by decide

theorem wit_RomSearchIsExactMatch : (GA, 0x41#8) ∈ s0.cfg.rom.entries ∧ X1 ∉ s0.cfg.rom.entries.map Prod.fst := by
  decide

/-- A ROM glyph; a hit in the last slot; the first and the last free slot; a full cache. -/
theorem wit_CacheResolveFourSteps :
    eightGlyphs.length ≤ 8 ∧ (GA, 0x41#8) ∈ s0.cfg.rom.entries ∧
    (X1 ∉ s0.cfg.rom.entries.map Prod.fst ∧ eightGlyphs[0]? = some X1) ∧
    (eightGlyphs[7]? = some (Glyph.blank.set 7 0x1F#8) ∧
      ∀ j, j < 7 → eightGlyphs[j]? ≠ some (Glyph.blank.set 7 0x1F#8)) ∧
    (X9 ∉ s0.cfg.rom.entries.map Prod.fst ∧ X9 ∉ ([] : List Glyph) ∧ ([] : List Glyph).length < 8) ∧
    (X9 ∉ eightGlyphs.take 7 ∧ (eightGlyphs.take 7).length < 8) ∧
    X9 ∉ eightGlyphs ∧ eightGlyphs.length = 8 := by decide

theorem wit_CacheImageFlattensSlots : (withSlotsOf eightGlyphs).cache.slots.length ≤ 8 ∧
    (withSlotsOf eightGlyphs).cache.slots[7]? = some (Glyph.blank.set 7 0x1F#8) := by decide

theorem wit_IllegalFillCountStops : 8 < (withSlotsOf (X9 :: eightGlyphs)).cache.slots.length := by decide

/-- The cache that holds `X1, …, X8` is legal. -/
theorem eightGlyphs_legal : cacheLegal cfg.rom eightGlyphs :=
  ⟨by decide, fun g hg => Option.isNone_iff_eq_none.mp (List.all_eq_true.mp
    (by decide : (eightGlyphs.all fun g => (romSearch cfg.rom g).isNone) = true) g hg), by decide⟩

theorem wit_SlotCodesAreStableAndDistinct : cacheLegal cfg.rom [] ∧ romSearch cfg.rom X1 = none ∧
    X1 ∈ (resolve cfg.rom [] X1).2 ∧ X2 ∈ (resolveAll cfg.rom (resolve cfg.rom [] X1).2 [X2]).2 ∧ X2 ≠ X1 :=
  ⟨⟨by decide, by simp, by decide⟩, by decide, by decide, by decide, by decide⟩

theorem wit_CanvasWrite : effGap s0 none = .hide ∧ effGap s0 (some .hide) = .hide ∧ effGap s0 (some .skip) = .skip := by
  decide

theorem wit_HideShiftRotatesRowStrings :
    rowsWithin (canvasOf (Vector.replicate 16 (Vector.replicate 8 0x3F#8))).canvas.cells 0x3F#8 ∧
    effGap s0 none = .hide := by decide

theorem wit_HideShiftsRestoreAfter96 : rowsWithin (Vector.replicate 16 (Vector.replicate 8 0x3F#8)) 0x3F#8 := by decide

theorem wit_SkipShiftsLoseOrRotate : rowsWithin (Vector.replicate 16 (Vector.replicate 8 0x1F#8)) 0x1F#8 := by decide

theorem wit_BusAndDriverComplete :
    s0.fault = none ∧ pinsOk s0 8 ∧ encodeCommand s0.cfg.addrPolicy (.setGlyphRamAddress 0x3F#8) = some 0x7F#8 ∧
    (answering [.ok] driving).fault = none ∧ (answering [.ok] driving).bus.dir = .drivingOutput ∧
    pinsOk (answering [.ok] driving) 1 ∧ pinsOk (answering [.ok] sensing) 1 ∧
    (answering [.ok] sensing).bus.dir = .sensingInput := by decide

/-- The byte of each clause, at an operand where every field differs from its default. -/
theorem wit_WireCommandsComplete : s0.fault = none ∧ pinsOk s0 6 ∧
    (0x07#8 : Byte) = 0b000001#6 ++ BitVec.ofBool (decide (Dir.right = .right)) ++ BitVec.ofBool true ∧
    (0x0F#8 : Byte) = 0b00001#5 ++ BitVec.ofBool true ++ BitVec.ofBool true ++ BitVec.ofBool true ∧
    (0x7F#8 : Byte) = 0b01#2 ++ 0x3F#6 ∧ (0xFF#8 : Byte) = 0b1#1 ++ 0x7F#7 := by decide

theorem wit_WideAddressRefusedOrMasked : s0.fault = none ∧ s0.cfg.addrPolicy = .refuse ∧
    (0x3F#8 : Byte) < 0x40#8 ∧ (0x7F#8 : Byte) < 0x80#8 ∧ masking.cfg.addrPolicy = .mask := by decide

/-- Its last clause: a list of DIFF_COMPUTE that addresses both memories at their last byte. -/
theorem wit_WideAddressRefusedOrMasked_list : ∃ t ops,
    exec (.diffCompute (some (Vector.replicate 16 1#8)) (some (List.replicate 64 1#8))
      ((Vector.replicate 16 1#8).set 15 9#8) ((List.replicate 64 1#8).set 63 9#8)) s0 = .next t ∧
    t.host.result = .opList ops ∧
    .setCG 0x3F#8 ∈ ops ∧ .setDD 0x47#8 ∈ ops :=
  ⟨_, _, rfl, rfl, by decide, by decide⟩

theorem wit_StickyFaultRefusesPinOperations : (s0.withFault (some ⟨7⟩)).fault = some ⟨7⟩ ∧
    ∃ t, exec .cacheFlush (s0.withFault (some ⟨7⟩)) = .next t :=
  ⟨by decide, _, rfl⟩

theorem wit_PureOperationsCannotFail : (withSlotsOf eightGlyphs).cache.slots.length ≤ 8 ∧
    (List.replicate 64 0#8).length ≤ 64 := by decide

/-- The first and the last pin operation of each clause. -/
theorem wit_PinFailureEndsOperation :
    s0.fault = none ∧ pinFailsAt (okThenErr 0 s0) 0 ⟨7⟩ ∧
    (5 < (writePins true s0.bus.dir 1#8).length ∧ pinFailsAt (okThenErr 5 s0) 5 ⟨7⟩) ∧
    (commandOf .clear = some .clear ∧ encodeCommand .refuse .clear = some 0x01#8) ∧
    (5 < (readPins s0.bus.dir 0x48#8).length) ∧
    (7 < (readAcPins s0.cfg.dummy s0.bus.dir 0x48#8).length ∧ pinFailsAt (okThenErr 7 s0) 7 ⟨7⟩) ∧
    (1 < (turnEvents s0.bus.dir .out ++ [Event.drive 1#8]).length) ∧
    (1 < (turnEvents s0.bus.dir .sense ++ [Event.sample 1#8]).length ∧ pinFailsAt (okThenErr 1 s0) 1 ⟨7⟩) := by decide

/-- Both answers; and failures at a first and a last pin operation, at the `Dir` and the `Drive` of a bus that must
turn, in a command, a read, a wire row and the second item of DIFF_APPLY. -/
theorem wit_FailedLineLevelIsUnknown :
    pinAnswerAt (okThenErr 1 s0) 0 = .ok ∧ pinAnswerAt (okThenErr 0 s0) 0 = .err ⟨7⟩ ∧
    [(Instr.drvWrite 1#8, 0), (.drvWrite 1#8, 2), (.drvExec .clear, 3), (.drvRead, 5), (.readBfAc, 7),
      (.diffApply [.setDD 0x03#8, .write 1#8], 10)].all
      (fun f => resultOf (exec f.1 (okThenErr f.2 s0)) == some (.error (.hwError ⟨7⟩))) = true := by decide

theorem wit_FaultRecordsTheHwError : s0.fault = none ∧ isNext (exec (.drvWrite 1#8) (okThenErr 2 s0)) = true ∧
    isNext (exec .drvReadAc s0) = true ∧ isNext (exec .canvasRender s0) = true := by decide

/-- A step while a fault is recorded; a step that leaves the bus untouched; a step of a pin operation. -/
theorem wit_steps :
    isNext (step ((s0.withFault (some ⟨7⟩)).withPending [.host 0x04#5 []])) = true ∧
    (after (step (s0.withPending [.host 0x04#5 []]))).map (fun t => (t.fault, t.bus.dir))
      = some (none, .uninitialized) ∧
    isNext (step (s0.withPending [.wire 0x241#10])) = true := by decide

theorem wit_OnlyCanvasInitWritesGap : isNext (exec (.canvasInit .skip) s0) = true ∧
    isNext (exec (.canvasWrite ['A'] (some .skip)) s0) = true := by decide

theorem wit_PinOperationsFrame :
    [Instr.drvExec .clear, .drvWrite 1#8, .drvReadAc, .drvRead, .busWrite 1#8, .busRead, .diffApply [.write 1#8],
      .clear, .returnHome, .entryMode .right true, .onOff true true true, .shift .display .right,
      .functionSet .two .f5x11, .setCgramAddr 0x3F#6, .setDdramAddr 0x7F#7, .readBfAc, .writeData 1#8,
      .readData].all (fun i => isNext (exec i s0)) = true := by decide

theorem wit_OneChangedByteGivesTwoItems : (List.replicate 64 0#8).length ≤ 64 ∧
    (1#8 : Byte) ≠ (Vector.replicate 16 0#8 : Image)[15] ∧ 63 < (List.replicate 64 0#8).length ∧
    (List.replicate 64 0#8)[63]? ≠ some 1#8 := by decide

/-- Changed bytes there are, of both images, at the ends of their ranges. -/
theorem wit_diffs : (List.replicate 64 0#8).length ≤ 64 ∧
    (cgChanges none (List.replicate 64 0#8)).head? = some (0, 0#8) ∧
    (cgChanges none (List.replicate 64 0#8)).getLast? = some (63, 0#8) ∧
    (ddChanges none (Vector.replicate 16 1#8)).getLast? = some (0x47, 1#8) := by decide

theorem wit_DiffApplyCompletes :
    driving.fault = none ∧ itemsFit cfg [.setCG 0x3F#8, .setDD 0x7F#8, .write 0xFF#8] ∧
    itemsFit masking.cfg [.setCG 0xFF#8] ∧ pinsOk (answering (List.replicate 16 .ok) driving) 15 ∧
    pinsOk (okThenErr 0 s0) 0 := by decide

theorem wit_UpdateDelayIsSumOfItems : resultOf (exec (.diffApply [.setDD 0x03#8]) s0) = some .unit := by decide

theorem wit_UpdateStopsAtFirstError :
    resultOf (exec (.diffApply [.setDD 0x03#8, .write 1#8]) (okThenErr 6 driving)) = some (.error (.hwError ⟨7⟩)) ∧
    resultOf (exec (.diffApply [.setDD 0x83#8]) driving)
      = some (.error (.addrRange (.setDisplayRamAddress 0x83#8))) := by decide

/-- Every hypothesis about UPDATE's three operations, one after the other. -/
def threeOperations (s : State) (pd : Option Image) (pc : Option (List Byte)) : Bool :=
  match after (exec .canvasRender s) with
  | none => false
  | some s1 =>
    match s1.host.result with
    | .images dd cg =>
      match after (exec (.diffCompute pd pc dd cg) s1) with
      | none => false
      | some s2 =>
        match s2.host.result with
        | .opList ops => isNext (exec (.diffApply ops) s2)
        | _ => false
    | _ => false

theorem wit_UpdateIsThreeOperations :
    threeOperations s0 (some ((Vector.replicate 16 0x20#8).set 3 0#8)) (some []) = true := by decide

theorem wit_devices : (deviced .dd 0x7F#7).fault = none ∧ pinsOk (deviced .dd 0x7F#7) 8 ∧
    (deviced .dd 0x7F#7).dev = some (devAt .dd 0x7F#7) ∧ (devAt .dd 0x7F#7).region = .dd ∧
    (deviced .cg 0x3F#7).dev = some (devAt .cg 0x3F#7) ∧ (devAt .cg 0x3F#7).region = .cg := by decide

/-- The same through DRV_EXEC: the last address of each field, a wider one that is masked, and a command that the
reference device does not model. -/
theorem wit_CommandsAtDevice :
    encodeCommand (deviced .dd 0x7F#7).cfg.addrPolicy (.setGlyphRamAddress 0x3F#8) ≠ none ∧
    encodeCommand (deviced .dd 0x7F#7).cfg.addrPolicy (.setDisplayRamAddress 0x7F#8) ≠ none ∧
    encodeCommand masking.cfg.addrPolicy (.setGlyphRamAddress 0x40#8) ≠ none ∧
    encodeCommand masking.cfg.addrPolicy (.setDisplayRamAddress 0x80#8) ≠ none ∧
    commandOf (.drvExec (.entryMode .right true)) = some (.entryMode .right true) ∧
    commandOf (.onOff true true true) = some (.onOff true true true) := by decide

/-- The pin operations of a data read from a sensing bus and of an address-counter read from a driving one, and no
more than those. -/
theorem wit_ReadsAtDevice :
    pinsOk (okThenErr 5 ((deviced .dd 0#7).withBusDir .sensingInput)) 5 ∧
    pinsOk (okThenErr 7 ((deviced .dd 0#7).withBusDir .drivingOutput)) 7 ∧
    (okThenErr 5 ((deviced .dd 0#7).withBusDir .sensingInput)).dev = some (devAt .dd 0#7) := by decide

theorem wit_OnlyWritesStoreAtDevice : isNext (exec .readData (deviced .cg 0x3F#7)) = true ∧
    isNext (exec (.setDdramAddr 0x40#7) (deviced .cg 0x3F#7)) = true := by decide

/-- A device that shows a previous DDRAM image and one byte of a CGRAM image. -/
def showing : RefDevice :=
  { ac := 0, region := .cg, inc := true, cgram := [(0, 5#8)]
    ddram := ((List.range 8).map fun a => (a, 0x20#8)) ++ (List.range 8).map fun a => (0x40 + a, 0x20#8) }

theorem wit_DeviceConvergesToImages :
    (s0.withDev (some showing)).dev = some showing ∧ showing.inc = true ∧
    showsDD showing (Vector.replicate 16 0x20#8) ∧ showsCG showing [5#8] ∧ ([5#8] : List Byte).length ≤ 64 ∧
    resultOf (exec (.diffApply (diffOps (some (Vector.replicate 16 0x20#8)) (some [5#8])
      (Vector.replicate 16 0x20#8) [5#8])) (s0.withDev (some showing))) = some .unit ∧
    resultOf (exec (.diffApply (diffOps (some (Vector.replicate 16 0x20#8)) (some [5#8])
      ((Vector.replicate 16 0x20#8).set 8 0x42#8) [5#8]))
      ((answering (List.replicate 11 .ok) s0).withDev (some showing))) = some .unit := by decide

/-- An update that ends `Ok` and one that ends in an error with the device still claimed; the addresses beside the
changed byte are no changed byte's. -/
theorem wit_UpdateLeavesOtherBytesAlone : showing.inc = true ∧
    ((after (exec (.diffApply (diffOps (some (Vector.replicate 16 0x20#8)) none
      ((Vector.replicate 16 0x20#8).set 8 0x42#8) [])) ((answering (List.replicate 11 .ok) s0).withDev
      (some showing)))).bind (fun t => t.dev)).isSome = true ∧
    ((after (exec (.diffApply (diffOps (some (Vector.replicate 16 0x20#8)) none
      ((Vector.replicate 16 0x20#8).set 8 0x42#8) [])) ((okThenErr 7 s0).withDev (some showing)))).bind
      (fun t => t.dev)).isSome = true ∧
    ddChanges (some (Vector.replicate 16 0x20#8)) ((Vector.replicate 16 0x20#8).set 8 0x42#8) = [(0x40, 0x42#8)] ∧
    cgChanges (some [5#8]) [] = [] := by decide

/-- A data write that completes, one that fails before E changes, and a list of every kind of item; the addresses
are those of R75, at the ends of both memories. -/
theorem wit_WritesStoreAtTheirAddressesOnly :
    (after (exec (.writeData 1#8) (deviced .dd 0x7F#7))).any (fun t => t.dev.isSome) = true ∧
    (after (exec (.drvWrite 1#8) (okThenErr 2 (deviced .cg 0x3F#7)))).any (fun t => t.dev.isSome) = true ∧
    (after (exec (.diffApply [.setCG 0x3F#8, .write 1#8, .write 2#8, .setDD 0x7F#8, .write 3#8])
      ((answering (List.replicate 26 .ok) s0).withDev (some showing)))).any (fun t => t.dev.isSome) = true ∧
    listStoresAt showing [.setCG 0x3F#8, .write 1#8, .write 2#8, .setDD 0x7F#8, .write 3#8]
      = [(.cg, 0x3F), (.cg, 0), (.dd, 0x7F)] := by decide

theorem wit_StepKeepsInvariant : State.Inv (withSlotsOf eightGlyphs) ∧
    isNext (step ((withSlotsOf eightGlyphs).withPending [.host 0x06#5 []])) = true :=
  ⟨⟨eightGlyphs_legal, by decide, by decide⟩, by decide⟩

end Sys2Proof.Machine.Test
end

namespace Sys2Proof.Machine

/-! ### One step, by what stands at the host port (00_scope.md R26, 20_memory.md R78) -/

theorem fetch_of_pending_cons {s : State} {r : Request} {rest : List Request} (h : s.host.pending = r :: rest) :
    fetch s = some (r, s.withPending rest) := by
  simp [fetch, h]

theorem step_of_pending_nil {s : State} (h : s.host.pending = []) : step s = .next s := by
  simp [step, fetch, h]

theorem step_of_decode_ok {s : State} {r : Request} {rest : List Request} {i : Instr}
    (h : s.host.pending = r :: rest) (hd : decode r = .ok i) : step s = exec i (s.withPending rest) := by
  simp [step, fetch_of_pending_cons h, hd]

theorem step_of_decode_error {s : State} {r : Request} {rest : List Request} {why : DecodeRefusal}
    (h : s.host.pending = r :: rest) (hd : decode r = .error why) : step s = .refused (.undecodable why) := by
  simp [step, fetch_of_pending_cons h, hd]

/-- Settles O6: the three cases of the host port, a request that decodes, one that does not, and none. -/
theorem stepRunsDecodedRequest : Obligations.StepRunsDecodedRequest := fun _ =>
  ⟨fun _ _ _ => step_of_decode_ok, fun _ _ _ => step_of_decode_error, step_of_pending_nil⟩

/-! ### The trace and the configuration (00_scope.md R25, 10_state.md R43) -/

/-- Every instruction, on every path that ends in a next state, completed or in an error. -/
theorem exec_appends_trace_keeps_cfg {i : Instr} {s t : State} (h : exec i s = .next t) :
    (∃ evs, t.trace = s.trace ++ evs) ∧ t.cfg = s.cfg := by
  rcases exec_next h with ⟨α, r, f, keeps, -, -, rfl⟩ | untouched
  · obtain ⟨cfg, -, -, -, trace, -⟩ := keeps.close f
    exact ⟨trace, cfg⟩
  · exact ⟨⟨[], by simp [untouched.trace]⟩, untouched.cfg⟩

/-- Settles O39: a step waits, or runs `exec` once the request is off the port; taking it off touches neither field. -/
theorem traceOnlyGrows : Obligations.TraceOnlyGrows := by
  intro s t h
  rcases step_next h with ⟨-, rfl⟩ | ⟨r, rest, i, -, -, run⟩
  · exact ⟨⟨[], by simp⟩, rfl⟩
  · simpa using exec_appends_trace_keeps_cfg run

end Sys2Proof.Machine

namespace Sys2Proof.Machine

/-! ### What each instruction writes of the cache and of the canvas (10_state.md R35, R38, R39) -/

/-- The slots an instruction leaves: three of them write the cache (R140, R142, R170). -/
def slotsAfter (i : Instr) (s : State) : List Glyph :=
  match i with
  | .cacheFlush => []
  | .cacheResolve g => (resolve s.cfg.rom s.cache.slots g).2
  | .canvasRender => renderSlots s.cfg.rom s.canvas.cells
  | _ => s.cache.slots

/-- The canvas an instruction leaves: three of them write it (R160, R162, R166). -/
def canvasAfter (i : Instr) (s : State) : Canvas :=
  match i with
  | .canvasInit gap => { cells := Vector.replicate 16 Glyph.blank, gap := gap }
  | .canvasWrite text ovr =>
    { s.canvas with cells := writeCells s.cfg (effGap s ovr) 0 text s.canvas.cells }
  | .canvasShiftLeft ovr =>
    { s.canvas with cells := shiftCells s.cfg.carry (effGap s ovr) s.canvas.cells }
  | _ => s.canvas

/-- A driver or bus operation writes neither the slots nor the canvas. -/
theorem guarded_keeps_slots_canvas {α : Type} {s t : State} {r : Ran α} {f : α → OpResult} (keeps : r.Keeps s)
    (h : unlessFaulted s (finish r f) = .next t) : t.cache.slots = s.cache.slots ∧ t.canvas = s.canvas := by
  obtain ⟨-, rfl⟩ := guarded_next h
  obtain ⟨-, cache, canvas, -⟩ := keeps.close f
  exact ⟨by rw [cache], canvas⟩

theorem ifCountLegal_of_lt {s : State} (h : cacheSlots < s.cache.slots.length)
    (run : Host.Outcome State Fault Refusal) : ifCountLegal s run = .fault .cacheCountIllegal :=
  if_neg (Nat.not_le.mpr h)

/-- An operation that reads the fill count and ends in a next state ran at a legal count. -/
theorem ifCountLegal_next {s t : State} {run : Host.Outcome State Fault Refusal}
    (h : ifCountLegal s run = .next t) : s.cache.slots.length ≤ cacheSlots ∧ run = .next t := by
  by_cases hl : s.cache.slots.length ≤ cacheSlots
  · exact ⟨hl, by rwa [ifCountLegal, fillCount, if_pos hl] at h⟩
  · rw [ifCountLegal_of_lt (Nat.not_le.mp hl)] at h; cases h

/-- Every next state of `exec` has the slots and the canvas its instruction leaves, on every path. -/
theorem exec_slots_canvas {i : Instr} {s t : State} (h : exec i s = .next t) :
    t.cache.slots = slotsAfter i s ∧ t.canvas = canvasAfter i s := by
  cases i
  case drvExec | clear | returnHome | entryMode | onOff | shift | functionSet | setCgramAddr | setDdramAddr =>
    exact guarded_keeps_slots_canvas (commandCycle_keeps _ _) h
  case drvWrite | writeData => exact guarded_keeps_slots_canvas (dataCycle_keeps _ _) h
  case drvRead | readData => exact guarded_keeps_slots_canvas (readCycle_keeps _) h
  case drvReadAc | readBfAc => exact guarded_keeps_slots_canvas (readAcCycle_keeps _) h
  case busWrite => exact guarded_keeps_slots_canvas (busPut_keeps _ _) h
  case busRead => exact guarded_keeps_slots_canvas (busGet_keeps _) h
  case diffApply ops =>
    cases ops with
    | nil => cases h; exact ⟨rfl, rfl⟩
    | cons item rest => exact guarded_keeps_slots_canvas (applyOps_keeps _ _) h
  case cacheResolve | cacheImage =>
    obtain ⟨-, run⟩ := ifCountLegal_next h
    cases run; exact ⟨rfl, rfl⟩
  case diffCompute =>
    simp only [exec, execDiffCompute] at h
    split at h
    · cases h; exact ⟨rfl, rfl⟩
    · cases h
  case glyphRender | glyphEq | glyphDistance | romSearch | cacheFlush | canvasInit | canvasWrite | canvasShiftLeft
      | canvasRender =>
    cases h; exact ⟨rfl, rfl⟩

/-! ### The invariant, clause by clause (10_state.md R37, R47) -/

theorem cacheLegal_resolveAll {rom : RomTable} (gs : List Glyph) : ∀ {slots : List Glyph}, cacheLegal rom slots →
    cacheLegal rom (resolveAll rom slots gs).2 := by
  induction gs with
  | nil => exact id
  | cons g rest ih => exact fun h => ih (cacheLegal_resolve g h)

/-- A render pass starts from an empty cache, so it needs no legal one before it (R170). -/
theorem cacheLegal_renderSlots (rom : RomTable) (cells : Cells) : cacheLegal rom (renderSlots rom cells) :=
  cacheLegal_resolveAll _ (cacheLegal_nil rom)

theorem cacheLegal_slotsAfter (i : Instr) {s : State} (h : cacheLegal s.cfg.rom s.cache.slots) :
    cacheLegal s.cfg.rom (slotsAfter i s) := by
  cases i
  case cacheFlush => exact cacheLegal_nil _
  case cacheResolve g => exact cacheLegal_resolve g h
  case canvasRender => exact cacheLegal_renderSlots _ _
  all_goals exact h

theorem rowsWithin_blank : rowsWithin (Vector.replicate 16 Glyph.blank) 0x3F#8 := by
  intro c r
  simp [Glyph.blank]

theorem rowsWithin_canvasAfter (i : Instr) {s : State} (h : rowsWithin s.canvas.cells 0x3F#8) :
    rowsWithin (canvasAfter i s).cells 0x3F#8 := by
  cases i
  case canvasInit => exact rowsWithin_blank
  case canvasWrite text ovr => exact rowsWithin_writeCells _ _ text _ _ h
  case canvasShiftLeft => exact rowsWithin_shiftCells _ _ _
  all_goals exact h

/-- Every instruction keeps the device's memories canonical and inside their address spaces, as far as the device
is still claimed. -/
theorem exec_keeps_dev_wf {i : Instr} {s t : State} (h : exec i s = .next t) (hd : ∀ d ∈ s.dev, d.wf) :
    ∀ d ∈ t.dev, d.wf := by
  rcases exec_next h with ⟨α, r, f, keeps, -, -, rfl⟩ | untouched
  · obtain ⟨-, -, -, -, -, dev⟩ := keeps.close f
    exact dev hd
  · rwa [untouched.dev]

theorem exec_keeps_inv {i : Instr} {s t : State} (h : exec i s = .next t) (inv : State.Inv s) : State.Inv t := by
  obtain ⟨legal, rows, dev⟩ := inv
  obtain ⟨slots, canvas⟩ := exec_slots_canvas h
  obtain ⟨-, cfg⟩ := exec_appends_trace_keeps_cfg h
  refine ⟨?_, ?_, exec_keeps_dev_wf h dev⟩
  · rw [cfg, slots]; exact cacheLegal_slotsAfter i legal
  · rw [canvas]; exact rowsWithin_canvasAfter i rows

/-- Settles O57: a step waits, or runs `exec` from a state that differs in its pending requests, which the
invariant does not read. -/
theorem stepKeepsInvariant : Obligations.StepKeepsInvariant := by
  intro s t inv h
  rcases step_next h with ⟨-, rfl⟩ | ⟨r, rest, i, -, -, run⟩
  · exact inv
  · exact exec_keeps_inv run inv

/-- The memories of the device at power-on list nothing (log entry 9). -/
theorem RefDevice.powerOn_wf : RefDevice.powerOn.wf :=
  ⟨.nil, List.forall_mem_nil _, .nil, List.forall_mem_nil _⟩

theorem resetWith_inv (cfg : Config) : State.Inv (State.resetWith cfg) := by
  refine ⟨cacheLegal_nil _, rowsWithin_blank, ?_⟩
  rintro d ⟨⟩
  exact RefDevice.powerOn_wf

/-- Settles O58: the open configuration is one of them. -/
theorem resetMeetsInvariant : Obligations.ResetMeetsInvariant := ⟨resetWith_inv, resetWith_inv _⟩

/-! ### The stored gap policy (10_state.md R39) -/

theorem canvasAfter_gap_of_ne {i : Instr} (hi : ∀ gap, i ≠ .canvasInit gap) (s : State) :
    (canvasAfter i s).gap = s.canvas.gap := by
  cases i
  case canvasInit gap => exact absurd rfl (hi gap)
  all_goals rfl

/-- Settles O41: the canvas a next state has is the one its instruction leaves. -/
theorem onlyCanvasInitWritesGap : Obligations.OnlyCanvasInitWritesGap := by
  intro i s t h
  obtain ⟨-, canvas⟩ := exec_slots_canvas h
  rw [canvas]
  exact ⟨fun gap hi => by rw [hi]; rfl, fun hi => canvasAfter_gap_of_ne hi s⟩

/-! ### The sticky fault (10_state.md R42, 60_exceptions.md R251, R253) -/

/-- Steps from a state with no fault, closed: `fault` and the result name the same `HwError`, or neither does. -/
theorem Ran.Keeps.close_fault_iff {α : Type} {s : State} {r : Ran α} (keeps : r.Keeps s) (hs : s.fault = none)
    {f : α → OpResult} (hf : ∀ v e, f v ≠ .error e) (e : HwErr) :
    (r.close f).fault = some e ↔ (r.close f).host.result = .error (.hwError e) := by
  match r, keeps with
  | .ok v t, ⟨_, fault, _⟩ => simp [fault, hs, hf]
  | .failed (.hwError e') t, ⟨_, fault, _⟩ => simp [fault]
  | .failed (.addrRange cmd) t, ⟨_, fault, _⟩ => simp [fault, hs]

/-- Settles O37: an operation with pin steps records what it raises, and one without them raises nothing. -/
theorem faultRecordsTheHwError : Obligations.FaultRecordsTheHwError := by
  intro i s t e hs h
  rcases exec_next h with ⟨α, r, f, keeps, hf, -, rfl⟩ | untouched
  · exact keeps.close_fault_iff hs hf e
  · simp [untouched.fault, hs, untouched.result]

/-- With a fault recorded, only an operation that touches no pin ends in a next state (R253). -/
theorem exec_next_of_fault {i : Instr} {s t : State} {e : HwErr} (hs : s.fault = some e) (h : exec i s = .next t) :
    PureStep s t := by
  rcases exec_next h with ⟨α, r, f, -, -, noFault, -⟩ | untouched
  · rw [hs] at noFault; cases noFault
  · exact untouched

theorem step_keeps_fault {s t : State} {e : HwErr} (hs : s.fault = some e) (h : step s = .next t) :
    t.fault = some e ∧ t.trace = s.trace := by
  rcases step_next h with ⟨-, rfl⟩ | ⟨r, rest, i, -, -, run⟩
  · exact ⟨hs, rfl⟩
  · have untouched : PureStep (s.withPending rest) t := exec_next_of_fault hs run
    exact ⟨untouched.fault.trans hs, untouched.trace⟩

/-- Settles O38: an operation that ends in a next state while a fault is recorded touches no pin; `rebuild` is the
reset state but for the trace, the oracles, the device and the requests. -/
theorem onlyResetClearsFault : Obligations.OnlyResetClearsFault :=
  ⟨fun _ _ _ => step_keeps_fault, fun _ => ⟨rfl, rfl, rfl, rfl, rfl, rfl, rfl, rfl, rfl⟩⟩

/-! ### An illegal fill count (10_state.md R47, R48, 93_implementation_defined.md row 33) -/

/-- Settles O15: both operations stand behind the check of the fill count. -/
theorem illegalFillCountStops : Obligations.IllegalFillCountStops := fun _ _ h =>
  ⟨ifCountLegal_of_lt h _, ifCountLegal_of_lt h _⟩

end Sys2Proof.Machine

namespace Sys2Proof.Machine

/-! ### The changed bytes and their device addresses (20_memory.md R62, 45_diff_updater.md R231, R232) -/

theorem devaddr_of_lt {i : Nat} (h : i < 8) : devaddr i = i := if_pos h

theorem devaddr_of_le {i : Nat} (h : 8 ≤ i) : devaddr i = i - 8 + 0x40 := if_neg (Nat.not_lt.mpr h)

/-- Rising cells have rising device addresses. -/
theorem devaddr_strictMono : StrictMono devaddr := by
  intro i j h
  unfold devaddr rowCells
  split <;> split <;> omega

theorem changedCG_iff (prev : Option (List Byte)) (j : Nat) (b : Byte) :
    changedCG prev j b = true ↔ ∀ p, prev = some p → p[j]? ≠ some b := by
  cases prev <;> simp [changedCG]

theorem changedDD_iff (prev : Option Image) (i : Fin 16) (b : Byte) :
    changedDD prev i b = true ↔ ∀ p, prev = some p → p[i] ≠ b := by
  cases prev <;> simp [changedDD]

theorem mem_cgChanges {prev : Option (List Byte)} {new : List Byte} {j : Nat} {b : Byte} :
    (j, b) ∈ cgChanges prev new ↔ new[j]? = some b ∧ changedCG prev j b = true := by
  rw [cgChanges, List.mem_filter, mem_zip_range]

theorem range_cellCount (new : Image) : List.range cellCount = List.range new.toList.length := by
  rw [Vector.length_toList, cellCount]

theorem mem_ddChanges {prev : Option Image} {new : Image} {a : Nat} {b : Byte} :
    (a, b) ∈ ddChanges prev new ↔ ∃ i : Fin 16, a = devaddr i ∧ b = new[i] ∧ changedDD prev i b = true := by
  simp only [ddChanges, range_cellCount new, List.mem_map, List.mem_filter, Prod.exists, mem_zip_range]
  constructor
  · rintro ⟨i, c, ⟨at_i, changed⟩, same⟩
    obtain ⟨rfl, rfl⟩ := Prod.mk.inj same
    obtain ⟨hi, rfl⟩ := List.getElem?_eq_some_iff.mp at_i
    exact ⟨⟨i, by simpa using hi⟩, rfl, by simp, changed⟩
  · rintro ⟨i, rfl, rfl, changed⟩
    exact ⟨i, new[i], ⟨by simp, changed⟩, rfl⟩

/-- The indices of any selection of a list's elements rise. -/
theorem pairwise_lt_index_filter {α : Type} (l : List α) (q : Nat × α → Bool) :
    ((((List.range l.length).zip l).filter q).map Prod.fst).Pairwise (· < ·) := by
  have indices : ((List.range l.length).zip l).map Prod.fst = List.range l.length :=
    List.map_fst_zip (by simp)
  have selected := (List.filter_sublist (p := q) (l := (List.range l.length).zip l)).map Prod.fst
  rw [indices] at selected
  exact List.pairwise_lt_range.sublist selected

theorem cgChanges_pairwise (prev : Option (List Byte)) (new : List Byte) :
    ((cgChanges prev new).map Prod.fst).Pairwise (· < ·) :=
  pairwise_lt_index_filter new _

theorem ddChanges_pairwise (prev : Option Image) (new : Image) :
    ((ddChanges prev new).map Prod.fst).Pairwise (· < ·) := by
  have addresses : (ddChanges prev new).map Prod.fst =
      ((((List.range new.toList.length).zip new.toList).filter fun e => changedDD prev e.1 e.2).map
        Prod.fst).map devaddr := by
    rw [ddChanges, range_cellCount new, List.map_map, List.map_map]; rfl
  rw [addresses]
  exact (pairwise_lt_index_filter _ _).map devaddr fun _ _ h => devaddr_strictMono h

/-- Settles O46: both lists are a selection from an image's bytes with their indices; an index past the end of the
previous CGRAM image reads as no byte, so it counts as changed. -/
theorem changedBytes : Obligations.ChangedBytes := by
  intro pd pc nd nc
  refine ⟨fun i _ => ⟨devaddr_of_lt, devaddr_of_le⟩, fun j b => ?_, fun a b => ?_, cgChanges_pairwise pc nc,
    ddChanges_pairwise pd nd⟩
  · have past (p : List Byte) : p[j]? ≠ some b ↔ p.length ≤ j ∨ p[j]? ≠ some b :=
      ⟨.inr, fun h => h.elim (fun len => by simp [List.getElem?_eq_none len]) id⟩
    rw [mem_cgChanges, changedCG_iff]
    simp only [← past]
  · rw [mem_ddChanges]
    refine exists_congr fun i => and_congr_right fun _ => and_congr_right fun value => ?_
    rw [changedDD_iff, value]

end Sys2Proof.Machine

namespace Sys2Proof.Machine

/-! ### The reference device's counter and memories (20_memory.md R75, R76) -/

@[simp] theorem RefDevice.writeData_ac (d : RefDevice) (b : Byte) : (d.writeData b).ac = d.nextAc := by
  unfold RefDevice.writeData; split <;> rfl

@[simp] theorem RefDevice.writeData_region (d : RefDevice) (b : Byte) : (d.writeData b).region = d.region := by
  unfold RefDevice.writeData; split <;> rfl

@[simp] theorem RefDevice.writeData_inc (d : RefDevice) (b : Byte) : (d.writeData b).inc = d.inc := by
  unfold RefDevice.writeData; split <;> rfl

theorem RefDevice.writeData_of_dd {d : RefDevice} (h : d.region = .dd) (b : Byte) :
    d.writeData b = { d with ddram := d.ddram.write d.ac.toNat b, ac := d.nextAc } := by
  simp only [RefDevice.writeData, h]

theorem RefDevice.writeData_of_cg {d : RefDevice} (h : d.region = .cg) (b : Byte) :
    d.writeData b = { d with cgram := d.cgram.write d.cgAddress b, ac := d.nextAc } := by
  simp only [RefDevice.writeData, h]

/-- One step of the seven-bit counter, up or down. -/
theorem counterStep_toNat (inc : Bool) (ac : BitVec 7) :
    (if inc then ac + 1 else ac - 1).toNat = (if inc then ac.toNat + 1 else ac.toNat + 127) % 128 := by
  cases inc
  · simp only [Bool.false_eq_true, if_false]; bv_omega
  · simp only [if_true]; bv_omega

/-- In display RAM the counter wraps at 128. -/
theorem RefDevice.nextAc_toNat_of_dd {d : RefDevice} (h : d.region = .dd) :
    d.nextAc.toNat = (if d.inc then d.ac.toNat + 1 else d.ac.toNat + 127) % 128 := by
  simp only [RefDevice.nextAc, h, counterStep_toNat]

/-- In glyph RAM the counter wraps at 64: its low six bits are what a step of seven bits leaves in them. -/
theorem RefDevice.nextAc_toNat_of_cg {d : RefDevice} (h : d.region = .cg) :
    d.nextAc.toNat = (if d.inc then d.ac.toNat + 1 else d.ac.toNat + 63) % 64 := by
  have low (x : BitVec 7) : (x &&& 0x3F#7).toNat = x.toNat % 64 := by
    rw [BitVec.toNat_and]; exact Nat.and_two_pow_sub_one_eq_mod _ 6
  simp only [RefDevice.nextAc, h, low, counterStep_toNat]
  split <;> omega

/-! ### Command words at the reference device (R74, R77) -/

theorem encodeCommand_of_fits {cmd : Command} (h : addressFits cmd = true) (policy : AddrPolicy) :
    encodeCommand policy cmd = some (commandByte cmd) := by
  cases policy
  · exact if_pos h
  · rfl

/-- A 6-bit address fits the field of the glyph RAM command. -/
theorem addressFits_cgram (a : BitVec 6) : addressFits (.setGlyphRamAddress (a.setWidth 8)) = true := by
  revert a; decide

/-- A 7-bit address fits the field of the display RAM command. -/
theorem addressFits_ddram (a : BitVec 7) : addressFits (.setDisplayRamAddress (a.setWidth 8)) = true := by
  revert a; decide

/-- A wire row's command byte selects that row. -/
theorem decodeWire_of_commandOf {i : Instr} {cmd : Command} (h : commandOf i = some cmd)
    (wire : ∀ c, i ≠ .drvExec c) : decodeWire (wireWord false false (commandByte cmd)) = some i := by
  rw [decodeWire_command]
  cases i <;> cases h
  case drvExec => exact absurd rfl (wire cmd)
  case clear | returnHome => rfl
  case entryMode d v => cases d <;> cases v <;> rfl
  case onOff d c k => cases d <;> cases c <;> cases k <;> rfl
  case shift g d => cases g <;> cases d <;> rfl
  case functionSet n f => cases n <;> cases f <;> rfl
  case setCgramAddr a => exact decodeCommand_cgram a
  case setDdramAddr a => exact decodeCommand_ddram a

theorem RefDevice.accept_entryMode (d : RefDevice) (dir : Dir) :
    d.accept (wireWord false false (commandByte (.entryMode dir false))) = some { d with inc := dir.isRight } := by
  rw [RefDevice.accept, decodeWire_of_commandOf (i := .entryMode dir false) rfl (by simp)]

/-- The commands that the reference device does not model. -/
theorem RefDevice.accept_unmodelled (d : RefDevice) {cmd : Command}
    (h : cmd = .clear ∨ cmd = .returnHome ∨ (∃ x y z, cmd = .onOff x y z) ∨ (∃ g x, cmd = .shift g x) ∨
      (∃ n f, cmd = .functionSet n f) ∨ ∃ x, cmd = .entryMode x true) :
    d.accept (wireWord false false (commandByte cmd)) = none := by
  rw [RefDevice.accept]
  rcases h with rfl | rfl | ⟨x, y, z, rfl⟩ | ⟨g, x, rfl⟩ | ⟨n, f, rfl⟩ | ⟨x, rfl⟩
  · rw [decodeWire_of_commandOf (i := .clear) rfl (by simp)]
  · rw [decodeWire_of_commandOf (i := .returnHome) rfl (by simp)]
  · rw [decodeWire_of_commandOf (i := .onOff x y z) rfl (by simp)]
  · rw [decodeWire_of_commandOf (i := .shift g x) rfl (by simp)]
  · rw [decodeWire_of_commandOf (i := .functionSet n f) rfl (by simp)]
  · rw [decodeWire_of_commandOf (i := .entryMode x true) rfl (by simp)]

/-! ### Driver operations that complete, seen from the reference device (R73) -/

/-- The pin operations of a write cycle, as the obligations count them. -/
theorem writePins_length_eq_ite (rs : Bool) (now : BusDir) (b : Byte) :
    (writePins rs now b).length = if now = .drivingOutput then 5 else 6 := by
  rw [writePins_length, turnEvents_out_length_add]

/-- A driver or bus operation whose steps complete, from a state with no fault. -/
theorem guarded_completes {α : Type} {s t : State} {r : Ran α} {v : α} (hf : s.fault = none) (run : r = .ok v t)
    (f : α → OpResult) : unlessFaulted s (finish r f) = .next (t.withResult (f v)) := by
  rw [unlessFaulted_of_none hf, run]; rfl

theorem driverWrite_at_device {s : State} {d : RefDevice} (b : Byte) (hf : s.fault = none)
    (hp : pinsOk s (if s.bus.dir = .drivingOutput then 5 else 6)) (hd : s.dev = some d) :
    ∃ t, driverWrite b s = .next t ∧ t.dev = some (d.writeData b) := by
  obtain ⟨t, run, -, -, -, dev⟩ := dataCycle_emits b (by rwa [writePins_length_eq_ite])
  refine ⟨_, guarded_completes hf run _, ?_⟩
  rw [State.withResult_dev, dev, hd, Option.bind_some, RefDevice.accept_data]

theorem driverExec_at_device {s : State} {d : RefDevice} {cmd : Command} (hf : s.fault = none)
    (hp : pinsOk s (if s.bus.dir = .drivingOutput then 5 else 6)) (hd : s.dev = some d)
    (encodes : encodeCommand s.cfg.addrPolicy cmd ≠ none) :
    ∃ t, driverExec cmd s = .next t ∧ t.dev = d.accept (wireWord false false (commandByte cmd)) := by
  obtain ⟨b, hb⟩ := Option.ne_none_iff_exists'.mp encodes
  obtain ⟨t, run, -, -, -, dev⟩ := commandCycle_emits hb (by rwa [writePins_length_eq_ite])
  refine ⟨_, guarded_completes hf run _, ?_⟩
  rw [State.withResult_dev, dev, hd, Option.bind_some, encodeCommand_eq hb]

theorem driverRead_at_device {s : State} {d : RefDevice} (hf : s.fault = none)
    (hp : pinsOk s (if s.bus.dir = .sensingInput then 5 else 6)) (hd : s.dev = some d) :
    ∃ t, driverRead s = .next t ∧ t.dev = some d.readData := by
  obtain ⟨t, run, -, -, -, dev⟩ := readCycle_emits
    (by rwa [readPins_length, turnEvents_sense_length_add])
  refine ⟨_, guarded_completes hf run _, ?_⟩
  rw [State.withResult_dev, dev, hd, Option.bind_some, RefDevice.accept_readData]

theorem driverReadAc_at_device {s : State} {d : RefDevice} (hf : s.fault = none)
    (hp : pinsOk s (if s.bus.dir = .drivingOutput then 7 else 8)) (hd : s.dev = some d) :
    ∃ t, driverReadAc s = .next t ∧ t.dev = some d := by
  obtain ⟨t, run, -, -, -, dev⟩ := readAcCycle_emits
    (by rwa [readAcPins_length, turnEvents_out_length_add])
  refine ⟨_, guarded_completes hf run _, ?_⟩
  rw [State.withResult_dev, dev, hd, Option.bind_some, RefDevice.accept_readAc]

/-- Settles O52: the device latches `writeData`, which stores at the counter, in the region addressed last. -/
theorem dataWriteReachesDevice : Obligations.DataWriteReachesDevice := by
  intro s b i d hi hf hp hd
  have same : exec i s = driverWrite b s := by rcases hi with rfl | rfl <;> rfl
  obtain ⟨t, run, dev⟩ := driverWrite_at_device b hf hp hd
  refine ⟨t, _, same.trans run, dev, RefDevice.writeData_region d b, RefDevice.writeData_inc d b, ?_, ?_⟩
  · intro region
    rw [RefDevice.writeData_of_dd region]
    exact ⟨Memory.read_write_same _ _ _, fun _ other => Memory.read_write_other _ _ other, fun _ => rfl,
      RefDevice.nextAc_toNat_of_dd region⟩
  · intro region
    rw [RefDevice.writeData_of_cg region]
    exact ⟨Memory.read_write_same _ _ _, fun _ other => Memory.read_write_other _ _ other, fun _ => rfl,
      RefDevice.nextAc_toNat_of_cg region⟩

/-- Settles O53: every command is its byte latched by the device; an address wider than its field reaches the
device as an item of an operation list with the same address does. -/
theorem commandsAtDevice : Obligations.CommandsAtDevice := by
  intro s d hf hp hd
  have fits {cmd : Command} (h : addressFits cmd = true) : encodeCommand s.cfg.addrPolicy cmd ≠ none := by
    simp [encodeCommand_of_fits h]
  have latched {cmd : Command} (encodes : encodeCommand s.cfg.addrPolicy cmd ≠ none) {o : Option RefDevice}
      (accepted : d.accept (wireWord false false (commandByte cmd)) = o) {i : Instr}
      (hi : commandOf i = some cmd) : ∃ t, exec i s = .next t ∧ t.dev = o := by
    rw [exec_of_commandOf hi, ← accepted]
    exact driverExec_at_device hf hp hd encodes
  refine ⟨fun a => latched (fits (addressFits_cgram a)) (d.accept_setCgramAddr a) rfl,
    fun a => latched (fits (addressFits_ddram a)) (d.accept_setDdramAddr a) rfl,
    fun a encodes => latched encodes (accept_item d (.setCG a)) rfl,
    fun a encodes => latched encodes (accept_item d (.setDD a)) rfl, ?_, ?_⟩
  · intro dir i hi
    have direction : dir.isRight = decide (dir = .right) := by cases dir <;> rfl
    rw [← direction]
    exact latched (fits rfl) (d.accept_entryMode dir) (by rcases hi with rfl | rfl <;> rfl)
  · intro i cmd hi unmodelled
    refine latched (fits ?_) (d.accept_unmodelled unmodelled) hi
    rcases unmodelled with rfl | rfl | ⟨x, y, z, rfl⟩ | ⟨g, x, rfl⟩ | ⟨n, f, rfl⟩ | ⟨x, rfl⟩ <;> rfl

/-- Settles O54: the device latches a data read, which moves its counter alone, or an address-counter read, which
changes nothing. -/
theorem readsAtDevice : Obligations.ReadsAtDevice := by
  intro s d hf hd
  constructor
  · intro i hi hp
    have same : exec i s = driverRead s := by rcases hi with rfl | rfl <;> rfl
    rw [same, RefDevice.writeData_ac]
    exact driverRead_at_device hf hp hd
  · intro i hi hp
    have same : exec i s = driverReadAc s := by rcases hi with rfl | rfl <;> rfl
    rw [same]
    exact driverReadAc_at_device hf hp hd

end Sys2Proof.Machine

namespace Sys2Proof.Machine

/-! ### The device on every path of a driver operation (R73, 45_diff_updater.md R239, log entry 11) -/

/-- Where the steps fail, the device is as it was, or nothing is left to claim of it. -/
def Ran.FailureKeepsDevice {α : Type} (s : State) (r : Ran α) : Prop :=
  ∀ e t, r = .failed e t → t.dev = s.dev ∨ t.dev = none

/-- Steps that latch the word `w`: where they complete the device has accepted it, and where they fail the device
is as it was, or nothing is left to claim of it. -/
def Ran.Latches {α : Type} (s : State) (w : BitVec 10) : Ran α → Prop
  | .ok _ t => t.dev = s.dev.bind fun d => d.accept w
  | .failed _ t => t.dev = s.dev ∨ t.dev = none

theorem Ran.KeepsDevice.failureKeepsDevice {α β : Type} {s : State} {r : Ran α} {k : α → State → Ran β}
    (h : r.KeepsDevice s) (hk : ∀ v t, (k v t).FailureKeepsDevice t) : (r.andThen k).FailureKeepsDevice s := by
  intro e u failed
  cases r with
  | ok v t =>
    have kept : t.dev = s.dev := h
    exact kept ▸ hk v t e u failed
  | failed e' t => cases failed; exact h

theorem Ran.KeepsDevice.close_dev {α : Type} {s : State} {r : Ran α} (h : r.KeepsDevice s) (f : α → OpResult) :
    (r.close f).dev = s.dev ∨ (r.close f).dev = none := by
  cases r with
  | ok v t => exact .inl h
  | failed e t => exact h

theorem Ran.Latches.close_dev {α : Type} {s : State} {w : BitVec 10} {r : Ran α} (h : r.Latches s w)
    (f : α → OpResult) : (r.close f).dev = s.dev ∨ (r.close f).dev = none ∨
      (r.close f).dev = s.dev.bind fun d => d.accept w := by
  cases r with
  | ok v t => exact .inr (.inr h)
  | failed e t => exact Or.imp_right .inl h

theorem turnBus_keepsDevice (d : DataDir) (s : State) : (turnBus d s).KeepsDevice s := by
  by_cases hd : s.bus.dir = d.busDir
  · rw [turnBus_same hd]; rfl
  · cases ha : pinAnswerAt s 0 with
    | ok => rw [turnBus_ok hd ha]; rfl
    | err e => rw [turnBus_err hd ha]; exact .inl rfl

theorem sampleBus_keepsDevice (s : State) : (sampleBus s).KeepsDevice s := by
  cases ha : pinAnswerAt s 0 with
  | ok => rw [sampleBus_ok ha]; rfl
  | err e => rw [sampleBus_err ha]; exact .inl rfl

theorem busGet_keepsDevice (s : State) : (busGet s).KeepsDevice s :=
  (turnBus_keepsDevice _ s).andThen fun _ t => sampleBus_keepsDevice t

theorem selectLines_keepsDevice (rs rw : Bool) (s : State) : (selectLines rs rw s).KeepsDevice s :=
  (setLine_keepsDevice _ _ (by simp) s).andThen fun _ t => setLine_keepsDevice _ _ (by simp) t

theorem raiseEnable_keepsDevice (s : State) : (setLine .e true s).KeepsDevice s :=
  setLine_keepsDevice _ _ (by simp) s

theorem dummyWrite_keepsDevice (here : DummyPosition) (s : State) : (dummyWrite here s).KeepsDevice s := by
  unfold dummyWrite
  split
  · exact busPut_keepsDevice _ s
  · exact rfl

/-- A capture can fail at the fall of E, and then nothing is left to claim, or before it. -/
theorem captureByte_failureKeepsDevice (wait : Nat) (s : State) : (captureByte wait s).FailureKeepsDevice s := by
  refine (busGet_keepsDevice s).failureKeepsDevice fun v t e u failed => ?_
  cases ha : pinAnswerAt t 0 with
  | ok => rw [setLine_ok _ _ ha] at failed; cases failed
  | err e' => rw [setLine_err _ _ ha] at failed; cases failed; exact .inr rfl

theorem readCycle_failureKeepsDevice (s : State) : (readCycle s).FailureKeepsDevice s :=
  (selectLines_keepsDevice _ _ s).failureKeepsDevice fun _ _ =>
  (raiseEnable_keepsDevice _).failureKeepsDevice fun _ _ => captureByte_failureKeepsDevice _ _

theorem readAcCycle_failureKeepsDevice (s : State) : (readAcCycle s).FailureKeepsDevice s :=
  (selectLines_keepsDevice _ _ s).failureKeepsDevice fun _ _ =>
  (dummyWrite_keepsDevice _ _).failureKeepsDevice fun _ _ =>
  (raiseEnable_keepsDevice _).failureKeepsDevice fun _ _ =>
  (dummyWrite_keepsDevice _ _).failureKeepsDevice fun _ _ => captureByte_failureKeepsDevice _ _

/-- Steps that latch `w` where all their pin operations are answered `Ok` latch it wherever they complete. -/
theorem FailsAt.latches {α : Type} {s : State} {w : BitVec 10} {r : Ran α} {pins : List Event}
    (fails : FailsAt s r pins)
    (completes : pinsOk s pins.length → ∃ v t, r = .ok v t ∧ t.dev = s.dev.bind fun d => d.accept w)
    (failure : r.FailureKeepsDevice s) : r.Latches s w := by
  cases run : r with
  | ok v t =>
    obtain ⟨v', t', run', dev⟩ := completes (fails.pinsOk_of_ok run)
    cases run.symm.trans run'
    exact dev
  | failed e t => exact failure e t run

theorem writeCycle_latches (rs : Bool) (b : Byte) (wait : Nat) (s : State) :
    (writeCycle rs b wait s).Latches s (wireWord rs false b) := by
  refine (writeCycle_fails rs b wait s).latches (fun ok => ?_) fun e t failed => writeCycle_failed_dev failed
  obtain ⟨t, run, -, -, -, dev⟩ := writeCycle_emits rs b wait ok
  exact ⟨_, t, run, dev⟩

theorem readCycle_latches (s : State) : (readCycle s).Latches s (wireWord true true 0#8) := by
  refine (readCycle_fails s).latches (fun ok => ?_) (readCycle_failureKeepsDevice s)
  obtain ⟨t, run, -, -, -, dev⟩ := readCycle_emits ok
  exact ⟨_, t, run, dev⟩

theorem readAcCycle_latches (s : State) : (readAcCycle s).Latches s (wireWord false true 0#8) := by
  refine (readAcCycle_fails s).latches (fun ok => ?_) (readAcCycle_failureKeepsDevice s)
  obtain ⟨t, run, -, -, -, dev⟩ := readAcCycle_emits ok
  exact ⟨_, t, run, dev⟩

theorem commandCycle_latches (cmd : Command) (s : State) :
    (commandCycle cmd s).Latches s (wireWord false false (commandByte cmd)) := by
  unfold commandCycle
  split
  · exact .inl rfl
  next b hb =>
    rw [encodeCommand_eq hb]
    exact writeCycle_latches _ _ _ _

/-! ### The frame of device memory (R74 to R77) -/

/-- The word is no data write, so a device that latches it stores nothing. -/
def storesNothing (w : BitVec 10) : Prop := ∀ b, decodeWire w ≠ some (.writeData b)

theorem decodeCommand_ne_writeData (c b : Byte) : decodeCommand c ≠ some (.writeData b) := by
  unfold decodeCommand
  split_ifs <;> simp

theorem storesNothing_command (c : Byte) : storesNothing (wireWord false false c) := fun b => by
  rw [decodeWire_command]; exact decodeCommand_ne_writeData c b

theorem storesNothing_readData : storesNothing (wireWord true true 0#8) := fun b => by
  rw [decodeWire_readData]; simp

theorem storesNothing_readAc : storesNothing (wireWord false true 0#8) := fun b => by
  rw [decodeWire_readAc]; simp

theorem keepsDeviceMemory_of_dev {s t : State} (h : t.dev = s.dev ∨ t.dev = none) : keepsDeviceMemory s t := by
  intro d d' hd hd'
  have same : t.dev = s.dev := h.resolve_right (by simp [hd'])
  rw [same, hd] at hd'
  cases hd'
  exact fun _ => ⟨rfl, rfl⟩

theorem keepsDeviceMemory_of_accept {s t : State} {w : BitVec 10} (hw : storesNothing w)
    (h : t.dev = s.dev.bind fun d => d.accept w) : keepsDeviceMemory s t := by
  intro d d' hd hd'
  rw [hd, Option.bind_some, hd'] at h
  rcases RefDevice.accept_cases h.symm with ⟨b, isWrite, -⟩ | ⟨ddram, cgram⟩
  · exact absurd isWrite (hw b)
  · exact fun _ => ⟨by rw [ddram], by rw [cgram]⟩

/-- A driver operation that latches no data write keeps device memory on every path. -/
theorem guarded_keepsDeviceMemory {α : Type} {s t : State} {w : BitVec 10} {r : Ran α} {f : α → OpResult}
    (hw : storesNothing w) (latches : r.Latches s w) (h : unlessFaulted s (finish r f) = .next t) :
    keepsDeviceMemory s t := by
  obtain ⟨-, rfl⟩ := guarded_next h
  rcases latches.close_dev f with kept | gone | accepted
  · exact keepsDeviceMemory_of_dev (.inl kept)
  · exact keepsDeviceMemory_of_dev (.inr gone)
  · exact keepsDeviceMemory_of_accept hw accepted

/-- A bus operation brings about no fall of E. -/
theorem guarded_keepsDevice {α : Type} {s t : State} {r : Ran α} {f : α → OpResult} (keeps : r.KeepsDevice s)
    (h : unlessFaulted s (finish r f) = .next t) : keepsDeviceMemory s t := by
  obtain ⟨-, rfl⟩ := guarded_next h
  exact keepsDeviceMemory_of_dev (keeps.close_dev f)

/-- Settles O55: the other driver operations latch a command or a read, the bus operations move no control line,
and the rest leave the device as it was. -/
theorem onlyWritesStoreAtDevice : Obligations.OnlyWritesStoreAtDevice := by
  intro i s t notDrv notWire notApply h
  cases i
  case drvWrite b => exact absurd rfl (notDrv b)
  case writeData b => exact absurd rfl (notWire b)
  case diffApply ops => exact absurd rfl (notApply ops)
  case drvExec | clear | returnHome | entryMode | onOff | shift | functionSet | setCgramAddr | setDdramAddr =>
    exact guarded_keepsDeviceMemory (storesNothing_command _) (commandCycle_latches _ s) h
  case drvRead | readData => exact guarded_keepsDeviceMemory storesNothing_readData (readCycle_latches s) h
  case drvReadAc | readBfAc => exact guarded_keepsDeviceMemory storesNothing_readAc (readAcCycle_latches s) h
  case busWrite b => exact guarded_keepsDevice (busPut_keepsDevice b s) h
  case busRead => exact guarded_keepsDevice (busGet_keepsDevice s) h
  case cacheResolve | cacheImage =>
    obtain ⟨-, run⟩ := ifCountLegal_next h
    cases run; exact keepsDeviceMemory_of_dev (.inl rfl)
  case diffCompute =>
    simp only [exec, execDiffCompute] at h
    split at h
    · cases h; exact keepsDeviceMemory_of_dev (.inl rfl)
    · cases h
  case glyphRender | glyphEq | glyphDistance | romSearch | cacheFlush | canvasInit | canvasWrite | canvasShiftLeft
      | canvasRender =>
    cases h; exact keepsDeviceMemory_of_dev (.inl rfl)

end Sys2Proof.Machine

namespace Sys2Proof.Machine

/-! ### Where the writes of an operation list store (R75, 45_diff_updater.md R234, R239) -/

/-- An item that fails leaves the device as it was, or nothing to claim of it. -/
theorem applyItem_failed_dev {item : DiffOp} {s t : State} {e : OpError} (h : applyItem item s = .failed e t) :
    t.dev = s.dev ∨ t.dev = none := by
  rcases applyItem_cases item s with ⟨cmd, run⟩ | run
  · cases run.symm.trans h; exact .inl rfl
  · exact writeCycle_failed_dev (run.symm.trans h)

/-- What a list does to the device: it has taken every item where the list completes, and the first items up to one
of them where it fails, unless nothing is left to claim of it. -/
def Ran.TookItems (d : RefDevice) (ops : List DiffOp) : Ran Unit → Prop
  | .ok _ t => t.dev = some (ops.foldl itemEffect d)
  | .failed _ t => t.dev = none ∨ ∃ done, done <+: ops ∧ t.dev = some (done.foldl itemEffect d)

theorem applyOps_tookItems (ops : List DiffOp) : ∀ {s : State} {d : RefDevice}, s.dev = some d →
    (applyOps ops s).TookItems d ops := by
  induction ops with
  | nil => exact id
  | cons item rest ih =>
    intro s d hd
    rw [applyOps]
    cases run : applyItem item s with
    | failed e t =>
      rcases applyItem_failed_dev run with kept | gone
      · exact .inr ⟨[], ⟨_, rfl⟩, kept.trans hd⟩
      · exact .inl gone
    | ok v t =>
      obtain ⟨-, -, -, taken⟩ := applyItem_ok run
      rw [hd, Option.bind_some, accept_item] at taken
      have after := ih taken
      rw [Ran.andThen_ok]
      cases run' : applyOps rest t with
      | ok v u => rw [run'] at after; exact after
      | failed e u =>
        rw [run'] at after
        rcases after with gone | ⟨done, front, dev⟩
        · exact .inl gone
        · exact .inr ⟨item :: done, List.cons_prefix_cons.mpr ⟨rfl, front⟩, dev⟩

/-- From `d` to `d'` no byte changed but at the addresses `places`. -/
def StoresOnlyAt (places : List (Region × Nat)) (d d' : RefDevice) : Prop :=
  (∀ a, (Region.dd, a) ∉ places → d'.ddram.read a = d.ddram.read a) ∧
  ∀ a, (Region.cg, a) ∉ places → d'.cgram.read a = d.cgram.read a

theorem StoresOnlyAt.mono {p q : List (Region × Nat)} {d d' : RefDevice} (h : StoresOnlyAt p d d') (sub : p ⊆ q) :
    StoresOnlyAt q d d' :=
  ⟨fun a other => h.1 a fun listed => other (sub listed), fun a other => h.2 a fun listed => other (sub listed)⟩

theorem StoresOnlyAt.trans {p q : List (Region × Nat)} {d d' d'' : RefDevice} (h : StoresOnlyAt p d d')
    (h' : StoresOnlyAt q d' d'') : StoresOnlyAt (p ++ q) d d'' := by
  obtain ⟨dd, cg⟩ := h
  obtain ⟨dd', cg'⟩ := h'
  constructor <;> intro a other <;> rw [List.mem_append, not_or] at other
  · exact (dd' a other.2).trans (dd a other.1)
  · exact (cg' a other.2).trans (cg a other.1)

theorem writeData_storesOnlyAt (d : RefDevice) (b : Byte) : StoresOnlyAt [storesAt d] d (d.writeData b) := by
  obtain ⟨dd, cg⟩ := read_writeData_other d b
  exact ⟨fun a other => dd a (by simpa using other), fun a other => cg a (by simpa using other)⟩

theorem listStoresAt_append (before after : List DiffOp) : ∀ d : RefDevice,
    listStoresAt d (before ++ after) = listStoresAt d before ++ listStoresAt (before.foldl itemEffect d) after := by
  induction before with
  | nil => intro d; rfl
  | cons item rest ih =>
    intro d
    cases item with
    | write b => exact congrArg (storesAt d :: ·) (ih _)
    | setCG a | setDD a => exact ih _

/-- The items of a list store where their data writes find the counter; address-sets store nothing. -/
theorem foldl_itemEffect_storesOnlyAt (ops : List DiffOp) : ∀ d : RefDevice,
    StoresOnlyAt (listStoresAt d ops) d (ops.foldl itemEffect d) := by
  induction ops with
  | nil => exact fun _ => ⟨fun _ _ => rfl, fun _ _ => rfl⟩
  | cons item rest ih =>
    intro d
    cases item with
    | write b => exact (writeData_storesOnlyAt d b).trans (ih _)
    | setCG a | setDD a => exact ih _

/-- However many items of a list the device has taken, it stored at the list's addresses only. -/
theorem storesOnlyAt_of_front {done ops : List DiffOp} (front : done <+: ops) (d : RefDevice) :
    StoresOnlyAt (listStoresAt d ops) d (done.foldl itemEffect d) := by
  obtain ⟨rest, rfl⟩ := front
  rw [listStoresAt_append]
  exact (foldl_itemEffect_storesOnlyAt done d).mono (List.subset_append_left _ _)

/-- DIFF_APPLY ends as its items do, the empty list too. -/
theorem diffApply_next {ops : List DiffOp} {s t : State} (h : exec (.diffApply ops) s = .next t) :
    t = (applyOps ops s).close fun _ => .unit := by
  cases ops with
  | nil => cases h; rfl
  | cons item rest => exact (guarded_next h).2

/-- A data write on every path: the device has stored, or it stands as it was after an error. -/
theorem driverWrite_dev {b : Byte} {s t : State} {d d' : RefDevice} (hd : s.dev = some d) (hd' : t.dev = some d')
    (h : driverWrite b s = .next t) : (d' = d.writeData b ∧ t.host.result = .unit) ∨ d' = d := by
  obtain ⟨-, rfl⟩ := guarded_next h
  have latches : (dataCycle b s).Latches s _ := writeCycle_latches true b _ s
  cases run : dataCycle b s with
  | ok v u =>
    rw [run, Ran.Latches, hd, Option.bind_some, RefDevice.accept_data] at latches
    rw [run] at hd'
    exact .inl ⟨Option.some.inj (hd'.symm.trans latches), rfl⟩
  | failed e u =>
    rw [run] at latches hd'
    rcases latches with kept | gone
    · exact .inr (Option.some.inj (hd'.symm.trans (kept.trans hd)))
    · exact absurd (hd'.symm.trans gone) (by simp)

/-- A list on every path: the device has taken its first items, all of them where the list ends `Ok`. -/
theorem diffApply_dev {ops : List DiffOp} {s t : State} {d d' : RefDevice} (hd : s.dev = some d)
    (hd' : t.dev = some d') (h : exec (.diffApply ops) s = .next t) :
    ∃ done, done <+: ops ∧ d' = done.foldl itemEffect d ∧ (t.host.result = .unit → done = ops) := by
  obtain rfl := diffApply_next h
  have took := applyOps_tookItems ops hd
  cases run : applyOps ops s with
  | ok v u =>
    rw [run] at took hd'
    exact ⟨ops, ⟨[], List.append_nil _⟩, Option.some.inj (hd'.symm.trans took), fun _ => rfl⟩
  | failed e u =>
    rw [run] at took hd'
    rcases took with gone | ⟨done, front, dev⟩
    · exact absurd (hd'.symm.trans gone) (by simp)
    · exact ⟨done, front, Option.some.inj (hd'.symm.trans dev), fun unit => by simp at unit⟩

/-- Settles O60: a data write latches `writeData` or leaves the device as it was, and a list leaves a device that
has taken its first items. -/
theorem writesStoreAtTheirAddressesOnly : Obligations.WritesStoreAtTheirAddressesOnly := by
  intro s t d d' hd hd'
  constructor
  · intro i b hi h
    have same : exec i s = driverWrite b s := by rcases hi with rfl | rfl <;> rfl
    rcases driverWrite_dev hd hd' (same ▸ h) with ⟨rfl, unit⟩ | rfl
    · obtain ⟨dd, cg⟩ := read_writeData_other d b
      exact ⟨dd, cg, fun e error => by simp [unit] at error⟩
    · exact ⟨fun _ _ => rfl, fun _ _ => rfl, fun _ _ => rfl⟩
  · intro ops h
    obtain ⟨done, front, rfl, whole⟩ := diffApply_dev hd hd' h
    obtain ⟨dd, cg⟩ := storesOnlyAt_of_front front d
    exact ⟨dd, cg, fun unit => by rw [whole unit]⟩

end Sys2Proof.Machine

namespace Sys2Proof

/-! ### Host requests: each selector's reader takes its operand bytes whole (30_encoding.md R104) -/

/-- A reader that reads back what its writer puts in front of any bytes leaves none of the writer's own. -/
theorem get_put_whole {α : Type} {get : List Byte → Option (α × List Byte)} {put : α → List Byte}
    (h : ∀ x rest, get (put x ++ rest) = some (x, rest)) (x : α) : get (put x) = some (x, []) := by
  simpa using h x []

theorem readOperands_of_encode {i : Instr} {op : BitVec 5} {bytes : List Byte} (h : encode i = .host op bytes) :
    readOperands op.toNat bytes = some (some (i, [])) := by
  cases i <;> cases h
  case cacheFlush | cacheImage | canvasRender | drvReadAc | drvRead | busRead | drvWrite | busWrite => rfl
  case glyphRender c => simp [readOperands, get_put_whole getChar_put]
  case glyphEq g1 g2 | glyphDistance g1 g2 => simp [readOperands, getGlyph_put, get_put_whole getGlyph_put]
  case romSearch g | cacheResolve g => simp [readOperands, get_put_whole getGlyph_put]
  case canvasInit gap => simp [readOperands, get_put_whole getGap_put]
  case canvasWrite text ovr =>
    simp [readOperands, getList_put getChar_put, get_put_whole (getOption_put getGap_put)]
  case canvasShiftLeft ovr => simp [readOperands, get_put_whole (getOption_put getGap_put)]
  case drvExec cmd => simp [readOperands, get_put_whole getCommand_put]
  case diffCompute prevDD prevCG newDD newCG =>
    simp [readOperands, getOption_put getImage_put, getOption_put (getList_put getByte_put), getImage_put,
      get_put_whole (getList_put getByte_put)]
  case diffApply ops => simp [readOperands, get_put_whole (getList_put getDiffOp_put)]

theorem decodeHost_of_readOperands {op : BitVec 5} {bytes : List Byte} {i : Instr}
    (read : readOperands op.toNat bytes = some (some (i, []))) (wf : i.wellFormed = true) :
    decodeHost op bytes = .ok i := by
  simp [decodeHost, read, wf]

/-- Past the 19 selectors of R104 there is no reader. -/
theorem readOperands_of_reserved {op : Nat} (h : 0x13 ≤ op) (bytes : List Byte) : readOperands op bytes = none := by
  unfold readOperands
  split
  case h_20 => rfl
  all_goals omega

theorem decode_of_reserved {op : BitVec 5} (h : 0x13 ≤ op.toNat) (bytes : List Byte) :
    decode (.host op bytes) = .error (.reservedSelector op) := by
  simp only [decode, decodeHost, readOperands_of_reserved h]

/-! ### Wire requests (R91) -/

theorem decodeWire_of_encode {i : Instr} {w : BitVec 10} (h : encode i = .wire w) : decodeWire w = some i := by
  cases i <;> cases h
  case readBfAc => exact decodeWire_readAc _
  case writeData b => exact decodeWire_data b
  case readData => exact decodeWire_readData _
  all_goals exact Machine.decodeWire_of_commandOf rfl (by simp)

/-- Settles O1: an instruction's request is a selector with operand bytes, each read back by its reader, or a wire
word, read back by RS, RW and the command byte. -/
theorem decodeInvertsEncode : Obligations.DecodeInvertsEncode := by
  intro i wf
  cases request : encode i with
  | host op bytes => exact decodeHost_of_readOperands (readOperands_of_encode request) wf
  | wire w => simp only [decode, decodeWire_of_encode request]

/-- Settles O2: the decoder evaluates on each word. -/
theorem specWordsDecode : Obligations.SpecWordsDecode :=
  ⟨rfl, rfl, rfl, rfl, rfl, rfl, rfl⟩

/-! ### Command bytes (R92 to R100) -/

/-- Masking to the low `k` bits keeps a byte that fits them. -/
theorem and_lowMask_of_lt {a : Byte} {k : Nat} (hk : k ≤ 8) (h : a.toNat < 2 ^ k) :
    a &&& BitVec.ofNat 8 (2 ^ k - 1) = a := by
  have mask : 2 ^ k - 1 < 2 ^ 8 :=
    (Nat.sub_lt (by positivity) (by decide)).trans_le (Nat.pow_le_pow_right (by decide) hk)
  apply BitVec.eq_of_toNat_eq
  rw [BitVec.toNat_and, BitVec.toNat_ofNat, Nat.mod_eq_of_lt mask, Nat.and_two_pow_sub_one_of_lt_two_pow h]

/-- Settles O3: the operands of a command without an address are single bits, checked at every value; an address that
fits its field passes the field's mask unchanged. -/
theorem commandByteLayouts : Obligations.CommandByteLayouts := by
  refine ⟨rfl, rfl, ?_, by decide, ?_, ?_, ?_, ?_⟩
  · intro d s; cases d <;> cases s <;> rfl
  · intro t d; cases t <;> cases d <;> rfl
  · intro n f; cases n <;> cases f <;> rfl
  · intro a fits
    exact congrArg (0x40#8 ||| ·) (and_lowMask_of_lt (k := 6) (by decide) (Nat.lt_succ_of_le fits))
  · intro a fits
    exact congrArg (0x80#8 ||| ·) (and_lowMask_of_lt (k := 7) (by decide) (Nat.lt_succ_of_le fits))

/-- The bits of a byte from its highest set bit `k` up. -/
theorem getLsbD_of_highest {b : Byte} {k : Nat} (low : 2 ^ k ≤ b.toNat) (high : b.toNat < 2 ^ (k + 1)) :
    b.getLsbD k = true ∧ ∀ j, k < j → b.getLsbD j = false :=
  ⟨Nat.testBit_of_two_pow_le_and_two_pow_add_one_gt low high, fun j hj =>
    Nat.testBit_lt_two_pow (high.trans_le (Nat.pow_le_pow_right (by decide) hj))⟩

@[simp] theorem Dir.ofBit_eq_right_iff (v : Bool) : Dir.ofBit v = .right ↔ v = true := by cases v <;> decide

@[simp] theorem ShiftTarget.ofBit_eq_display_iff (v : Bool) : ShiftTarget.ofBit v = .display ↔ v = true := by
  cases v <;> decide

@[simp] theorem LineCount.ofBit_eq_two_iff (v : Bool) : LineCount.ofBit v = .two ↔ v = true := by
  cases v <;> decide

@[simp] theorem FontSize.ofBit_eq_f5x11_iff (v : Bool) : FontSize.ofBit v = .f5x11 ↔ v = true := by
  cases v <;> decide

/-- Settles O4: each range of bytes has one highest set bit, which the decoder's tests meet first. -/
theorem highestSetBitSelectsCommand : Obligations.HighestSetBitSelectsCommand := by
  refine ⟨rfl, rfl, fun b => ⟨?_, ?_, ?_, ?_, ?_, ?_, ?_⟩⟩
  · intro low
    obtain ⟨top, -⟩ := getLsbD_of_highest (k := 7) low b.isLt
    simp [decodeCommand, top, -BitVec.getLsbD_eq_getElem]
  · intro low high
    obtain ⟨top, above⟩ := getLsbD_of_highest (k := 6) low high
    simp [decodeCommand, top, above, -BitVec.getLsbD_eq_getElem]
  · intro low high
    obtain ⟨top, above⟩ := getLsbD_of_highest (k := 5) low high
    exact ⟨.ofBit (b.getLsbD 3), .ofBit (b.getLsbD 2),
      by simp [decodeCommand, top, above, -BitVec.getLsbD_eq_getElem], LineCount.ofBit_eq_two_iff _,
      FontSize.ofBit_eq_f5x11_iff _⟩
  · intro low high
    obtain ⟨top, above⟩ := getLsbD_of_highest (k := 4) low high
    exact ⟨.ofBit (b.getLsbD 3), .ofBit (b.getLsbD 2),
      by simp [decodeCommand, top, above, -BitVec.getLsbD_eq_getElem], ShiftTarget.ofBit_eq_display_iff _,
      Dir.ofBit_eq_right_iff _⟩
  · intro low high
    obtain ⟨top, above⟩ := getLsbD_of_highest (k := 3) low high
    simp [decodeCommand, top, above, -BitVec.getLsbD_eq_getElem]
  · intro low high
    obtain ⟨top, above⟩ := getLsbD_of_highest (k := 2) low high
    exact ⟨.ofBit (b.getLsbD 1), by simp [decodeCommand, top, above, -BitVec.getLsbD_eq_getElem],
      Dir.ofBit_eq_right_iff _⟩
  · intro low high
    obtain ⟨top, above⟩ := getLsbD_of_highest (k := 1) low high
    simp [decodeCommand, top, above, -BitVec.getLsbD_eq_getElem]

end Sys2Proof

namespace Sys2Proof.Machine

/-- Settles O5: a reserved selector has no reader, so its request does not decode, whatever its operand bytes. -/
theorem reservedSelectorsRefused : Obligations.ReservedSelectorsRefused :=
  fun _ _ bytes _ pending reserved => step_of_decode_error pending (decode_of_reserved reserved bytes)

/-! ### The driver's operations where they complete (43_protocol.md R195, R197, R199) -/

/-- What steps that emitted `evs` leave once their result is handed over. -/
theorem Emitted.withResult {s t : State} {evs : List Event} {n : Nat} (e : Emitted s t evs n) (r : OpResult) :
    (t.withResult r).trace = s.trace ++ evs ∧ (t.withResult r).fault = s.fault ∧ keepsBlock s (t.withResult r) :=
  ⟨e.trace, e.fault, e.cfg, e.cache, e.canvas, congrArg (·.pending) e.host⟩

/-- Settles O28: the write cycle with RS high, closed by `unit`. -/
theorem drvWriteCompletes : Obligations.DrvWriteCompletes := by
  intro s b i hi hf hp
  have same : exec i s = driverWrite b s := by rcases hi with rfl | rfl <;> rfl
  obtain ⟨t, run, emits, lines, bus, -⟩ := dataCycle_emits b (by rwa [writePins_length_eq_ite])
  obtain ⟨trace, fault, block⟩ := emits.withResult .unit
  refine ⟨_, same.trans (guarded_completes hf run _), ?_, lines, bus, rfl, fault.trans hf, block⟩
  rw [trace]
  simp [writePins, turnEvents_out]

/-- Settles O30: the read cycle of DRV_READ, closed by the sampled byte. -/
theorem drvReadCompletes : Obligations.DrvReadCompletes := by
  intro s i hi hf hp
  have same : exec i s = driverRead s := by rcases hi with rfl | rfl <;> rfl
  obtain ⟨t, run, emits, lines, bus, -⟩ := readCycle_emits (by rwa [readPins_length, turnEvents_sense_length_add])
  obtain ⟨trace, fault, block⟩ := emits.withResult (.byte (sampleAt s 0))
  refine ⟨_, same.trans (guarded_completes hf run _), ?_, lines, bus, rfl, fault.trans hf, block⟩
  rw [trace]
  simp [readPins, turnEvents_sense]

/-- Settles O29: the read cycle of DRV_READ_AC, closed by the sampled byte; its events are the obligation's at either
position of the dummy write. -/
theorem drvReadAcCompletes : Obligations.DrvReadAcCompletes := by
  intro s i hi hf hp
  have same : exec i s = driverReadAc s := by rcases hi with rfl | rfl <;> rfl
  obtain ⟨t, run, emits, lines, bus, -⟩ := readAcCycle_emits (by rwa [readAcPins_length, turnEvents_out_length_add])
  obtain ⟨trace, fault, block⟩ := emits.withResult (.byte (sampleAt s 0))
  refine ⟨_, same.trans (guarded_completes hf run _), ?_, lines, bus, rfl, fault.trans hf, block⟩
  rw [trace]
  cases position : s.cfg.dummy <;> simp [readAcPins, turnEvents_out]

/-! ### UPDATE (30_encoding.md R107) -/

theorem diffCompute_next {pd : Option Image} {pc : Option (List Byte)} {nd : Image} {nc : List Byte} {s t : State}
    (h : exec (.diffCompute pd pc nd nc) s = .next t) : t = s.withResult (.opList (diffOps pd pc nd nc)) := by
  by_cases fits : nc.length ≤ cgramBytes
  · simpa [exec, execDiffCompute, fits, done] using h.symm
  · simp [exec, execDiffCompute, fits] at h

/-- Settles O51: the images and the list that the three operations hand over are those `update` passes on. -/
theorem updateIsThreeOperations : Obligations.UpdateIsThreeOperations := by
  intro s s1 s2 s3 pd pc dd cg ops rendered images computed list applied
  cases rendered
  cases images
  obtain rfl := diffCompute_next computed
  cases list
  simp only [exec] at computed applied
  simp only [update, execCanvasRender, done, computed, applied]

end Sys2Proof.Machine

namespace Sys2Proof.Machine

/-! ### The glyph ROM's operations (40_glyph_rom.md R120 to R125) -/

theorem renderGlyph_of_mem {f : FontTable} {c : Char} {g : Glyph} (h : (c, g) ∈ f.entries) : renderGlyph f c = g := by
  rw [renderGlyph, lookup_of_mem (font_is_legal f).1 h]

theorem renderGlyph_of_not_mem {f : FontTable} {c : Char} (h : ∀ g, (c, g) ∉ f.entries) :
    renderGlyph f c = Glyph.blank := by
  rw [renderGlyph, lookup_of_not_mem h]

/-- Settles O8: a legal font lists a character once and no row above `0x1F`. -/
theorem glyphRenderGivesFontGlyphOrBlank : Obligations.GlyphRenderGivesFontGlyphOrBlank := by
  intro s c
  have renders : exec (.glyphRender c) s = .next (s.withResult (.glyph (renderGlyph s.cfg.font c))) := rfl
  refine ⟨fun g listed => ⟨?_, (font_is_legal _).2 _ listed⟩, fun unlisted => ?_⟩
  · rw [renders, renderGlyph_of_mem listed]
  · rw [renders, renderGlyph_of_not_mem unlisted]; rfl

/-- Settles O9: the row-by-row comparison is `glyphEq_eq`'s equality of glyphs. -/
theorem glyphEqIsExactEquality : Obligations.GlyphEqIsExactEquality := by
  intro s g1 g2
  rw [← glyphEq_eq]
  rfl

/-- The number of visible pixels that differ in row `r` (R123). -/
def rowDistance (g1 g2 : Glyph) (r : Fin 8) : Nat :=
  (List.finRange 5).countP fun k : Fin 5 => g1[r].getLsbD k != g2[r].getLsbD k

theorem rowDistance_le (g1 g2 : Glyph) (r : Fin 8) : rowDistance g1 g2 r ≤ 5 :=
  List.countP_le_length

theorem rowDistance_eq_zero_iff {g1 g2 : Glyph} {r : Fin 8} :
    rowDistance g1 g2 r = 0 ↔ ∀ k : Fin 5, g1[r].getLsbD k = g2[r].getLsbD k := by
  simp [rowDistance, List.countP_eq_zero, -BitVec.getLsbD_eq_getElem]

theorem popcount_xor_visible (g1 g2 : Glyph) (r : Fin 8) :
    popcount ((g1[r] ^^^ g2[r]) &&& 0x1F#8) = rowDistance g1 g2 r := by
  simp only [popcount_visible, BitVec.getLsbD_xor, Bool.bne_eq_xor, rowDistance]

theorem zip_toList_eq_map_finRange (g1 g2 : Glyph) :
    g1.toList.zip g2.toList = (List.finRange 8).map fun r => (g1[r], g2[r]) := by
  apply List.ext_getElem <;> simp

theorem glyphDistance_eq_sum (g1 g2 : Glyph) :
    glyphDistance g1 g2 = ((List.finRange 8).map (rowDistance g1 g2)).sum := by
  rw [glyphDistance, zip_toList_eq_map_finRange, List.map_map]
  exact congrArg List.sum (List.map_congr_left fun r _ => popcount_xor_visible g1 g2 r)

theorem glyphDistance_le (g1 g2 : Glyph) : glyphDistance g1 g2 ≤ 40 := by
  have rows := List.sum_le_card_nsmul ((List.finRange 8).map (rowDistance g1 g2)) 5
    (List.forall_mem_map.mpr fun r _ => rowDistance_le g1 g2 r)
  simpa [glyphDistance_eq_sum] using rows

theorem glyphDistance_eq_zero_iff {g1 g2 : Glyph} :
    glyphDistance g1 g2 = 0 ↔ ∀ (r : Fin 8) (k : Fin 5), g1[r].getLsbD k = g2[r].getLsbD k := by
  simp only [glyphDistance_eq_sum, List.sum_eq_zero_iff, List.forall_mem_map, List.mem_finRange, forall_const,
    rowDistance_eq_zero_iff]

/-- Settles O10: the distance is the sum of the eight rows' distances, each at most 5. -/
theorem glyphDistanceCountsVisiblePixels : Obligations.GlyphDistanceCountsVisiblePixels := fun _ g1 g2 =>
  ⟨glyphDistance g1 g2, rfl, glyphDistance_eq_sum g1 g2, glyphDistance_le g1 g2, glyphDistance_eq_zero_iff⟩

/-- Settles O11: a legal ROM lists a glyph once and lists the blank one. -/
theorem romSearchIsExactMatch : Obligations.RomSearchIsExactMatch := by
  intro s g
  have searches : exec (.romSearch g) s = .next (s.withResult (.address (romSearch s.cfg.rom g))) := rfl
  refine ⟨fun a listed => ?_, fun unlisted => ?_, blankAddr_mem _⟩
  · rw [searches, romSearch_mem listed]
  · rw [searches, romSearch_not_mem unlisted]

end Sys2Proof.Machine

namespace Sys2Proof.Machine

/-! ### The glyph cache's operations at a legal fill count (41_glyph_cache.md R140, R142, R146) -/

theorem ifCountLegal_of_le {s : State} (h : s.cache.slots.length ≤ cacheSlots)
    (run : Host.Outcome State Fault Refusal) : ifCountLegal s run = run :=
  if_pos h

/-- CACHE_RESOLVE hands over what `resolve` answers on the slots, and leaves the slots `resolve` leaves. -/
theorem exec_cacheResolve {s : State} {g : Glyph} {code : Byte} {slots : List Glyph}
    (legal : s.cache.slots.length ≤ cacheSlots) (answer : resolve s.cfg.rom s.cache.slots g = (code, slots)) :
    exec (.cacheResolve g) s = .next ((s.withSlots slots).withResult (.byte code)) := by
  simp [exec, execCacheResolve, ifCountLegal_of_le legal, answer, done]

theorem exec_cacheImage {s : State} (legal : s.cache.slots.length ≤ cacheSlots) :
    exec .cacheImage s = .next (s.withResult (.bytes (flattenSlots s.cache.slots))) :=
  ifCountLegal_of_le legal _

/-- Settles O12: the four steps are the answers `resolve_rom`, `resolve_hit` and `resolve_miss` give on the slots. -/
theorem cacheResolveFourSteps : Obligations.CacheResolveFourSteps := by
  intro s g legal
  refine ⟨fun a listed => exec_cacheResolve legal (resolve_rom _ (romSearch_mem listed)), fun unlisted => ?_⟩
  have notRom := romSearch_not_mem unlisted
  exact ⟨fun i held first => exec_cacheResolve legal (resolve_hit notRom held first),
    fun absent room => exec_cacheResolve legal ((resolve_miss notRom absent).trans (if_pos room)),
    fun absent full => exec_cacheResolve legal ((resolve_miss notRom absent).trans (if_neg full.not_lt))⟩

/-- Settles O14: the image is the flattened slots. -/
theorem cacheImageFlattensSlots : Obligations.CacheImageFlattensSlots := fun s legal =>
  ⟨flattenSlots s.cache.slots, exec_cacheImage legal, flattenSlots_length _, flattenSlots_getElem? _⟩

/-- Settles O13: CACHE_FLUSH reads neither the slots nor their count. -/
theorem cacheFlushFreesEverySlot : Obligations.CacheFlushFreesEverySlot := fun _ => rfl

/-! ### Slot codes within a pass (41_glyph_cache.md R148) -/

theorem slotCode_inj {i j : Nat} (hi : i < cacheSlots) (hj : j < cacheSlots) : slotCode i = slotCode j ↔ i = j := by
  simp only [cacheSlots] at hi hj
  refine ⟨fun same => ?_, congrArg slotCode⟩
  have bytes : i % 256 = j % 256 := by simpa [slotCode] using congrArg BitVec.toNat same
  omega

theorem resolve_of_mem {rom : RomTable} {slots : List Glyph} {g : Glyph} (notRom : romSearch rom g = none)
    (held : g ∈ slots) : resolve rom slots g = (slotCode (slots.idxOf g), slots) := by
  rcases resolve_cases rom slots g with ⟨a, isRom, -⟩ | ⟨-, -, hit⟩ | ⟨-, absent, -⟩ | ⟨-, absent, -⟩
  · simp [notRom] at isRom
  · exact hit
  · exact absurd held absent
  · exact absurd held absent

/-- A glyph that has a slot once it is resolved, found or just allocated, has that slot's code. -/
theorem resolve_code_of_mem_resolve {rom : RomTable} {slots : List Glyph} {g : Glyph}
    (notRom : romSearch rom g = none) (held : g ∈ (resolve rom slots g).2) :
    (resolve rom slots g).1 = slotCode ((resolve rom slots g).2.idxOf g) := by
  rcases resolve_cases rom slots g with ⟨a, isRom, -⟩ | ⟨-, -, hit⟩ | ⟨-, absent, -, new⟩ | ⟨-, absent, -, full⟩
  · simp [notRom] at isRom
  · rw [hit]
  · rw [new, List.idxOf_append_of_notMem absent]; simp
  · rw [full] at held; exact absurd held absent

/-- The slots only grow at their end, over any sequence of resolutions (R141). -/
theorem resolveAll_grows (rom : RomTable) (gs : List Glyph) :
    ∀ slots : List Glyph, slots <+: (resolveAll rom slots gs).2 := by
  induction gs with
  | nil => exact List.prefix_refl
  | cons g rest ih => exact fun slots => (resolve_grows rom slots g).trans (ih _)

/-- Two glyphs that have slots of a legal cache have different codes: their slots differ. -/
theorem resolve_code_inj {rom : RomTable} {slots : List Glyph} {g h : Glyph} (legal : cacheLegal rom slots)
    (hg : g ∈ slots) (hh : h ∈ slots) : (resolve rom slots g).1 = (resolve rom slots h).1 ↔ g = h := by
  obtain ⟨-, notRom, count⟩ := legal
  have slotOf {x : Glyph} (hx : x ∈ slots) : slots.idxOf x < cacheSlots :=
    (List.idxOf_lt_length_of_mem hx).trans_le count
  rw [resolve_of_mem (notRom g hg) hg, resolve_of_mem (notRom h hh) hh, slotCode_inj (slotOf hg) (slotOf hh),
    List.idxOf_inj hg]

/-- Settles O16: later resolutions only add slots after those assigned, so a glyph keeps its slot; and the cache they
leave is legal, where different glyphs have different codes. -/
theorem slotCodesAreStableAndDistinct : Obligations.SlotCodesAreStableAndDistinct := by
  intro rom slots g others legal notRom held
  have grows := resolveAll_grows rom others (resolve rom slots g).2
  have heldLater := grows.subset held
  have stable : (resolve rom (resolveAll rom (resolve rom slots g).2 others).2 g).1 = (resolve rom slots g).1 := by
    rw [resolve_of_mem notRom heldLater, resolve_code_of_mem_resolve notRom held, grows.idxOf_eq_of_mem held]
  refine ⟨stable, fun h hh different same => different ?_⟩
  have legalLater := cacheLegal_resolveAll others (cacheLegal_resolve g legal)
  exact (resolve_code_inj legalLater hh heldLater).mp (same.trans stable.symm)

end Sys2Proof.Machine

namespace Sys2Proof.Machine

/-! ### The canvas operations' next states (42_canvas.md R160, R162, R166) -/

/-- Settles O18: construction reads nothing of the state. -/
theorem canvasInitBlanksEveryCell : Obligations.CanvasInitBlanksEveryCell := fun _ _ => rfl

theorem exec_canvasWrite (text : List Char) (ovr : Option Gap) (s : State) :
    exec (.canvasWrite text ovr) s =
      .next ((s.withCells (writeCells s.cfg (effGap s ovr) 0 text s.canvas.cells)).withResult .unit) :=
  rfl

theorem exec_canvasShiftLeft (ovr : Option Gap) (s : State) :
    exec (.canvasShiftLeft ovr) s =
      .next ((s.withCells (shiftCells s.cfg.carry (effGap s ovr) s.canvas.cells)).withResult .unit) :=
  rfl

/-- Settles O21: every bit is `shiftRow_bit`'s, in the row `shiftCells_row` gives. -/
theorem shiftLeftBitByBit : Obligations.ShiftLeftBitByBit := by
  intro s ovr
  refine ⟨_, exec_canvasShiftLeft ovr s, fun c r k => ?_⟩
  rw [shiftCells_row]
  exact shiftRow_bit _ _ _ _ k

/-! ### A text, by its last character (R162 to R164) -/

theorem writeCells_nil (cfg : Config) (p : Gap) (k : Nat) (cells : Cells) : writeCells cfg p k [] cells = cells := rfl

theorem writeCells_skip_append (cfg : Config) (text : List Char) (c : Char) (cells : Cells) :
    writeCells cfg .skip 0 (text ++ [c]) cells =
      (shiftCells cfg.carry .skip (writeCells cfg .skip 0 text cells)).set (text.length % 16)
        (renderGlyph cfg.font c) (Nat.mod_lt _ (by decide)) := by
  rw [writeCells_append]
  simp [writeCells]

theorem writeCells_hide_append (cfg : Config) (text : List Char) (c : Char) (cells : Cells) :
    writeCells cfg .hide 0 (text ++ [c]) cells =
      (writeCells cfg .hide 0 text cells).set (text.length % 16)
        (renderGlyph cfg.font c) (Nat.mod_lt _ (by decide)) := by
  rw [writeCells_append]
  simp [writeCells]

/-- Settles O20: the loop's last round is the last character's shift and write. -/
theorem canvasWriteUnderSkip : Obligations.CanvasWriteUnderSkip := by
  intro s ovr skip
  refine ⟨?_, fun text c => ⟨_, exec_canvasWrite text ovr s, ?_⟩⟩
  · rw [exec_canvasWrite, writeCells_nil, State.withCells_self]
  · rw [exec_canvasWrite, skip, writeCells_skip_append]

/-- The last character of a text whose position is `i` modulo 16, with its position (R162). -/
def lastWriter (text : List Char) (i : Fin 16) : Option (Char × Nat) :=
  (text.zipIdx.filter fun e => e.2 % 16 == i.val).getLast?

theorem lastWriter_append (text : List Char) (c : Char) (i : Fin 16) :
    lastWriter (text ++ [c]) i = if text.length % 16 = i then some (c, text.length) else lastWriter text i := by
  by_cases here : text.length % 16 = i <;> simp [lastWriter, List.zipIdx_append, here]

/-- The last writer of a cell wins, and a cell with no writer keeps its glyph. -/
theorem writeCells_hide_cell (cfg : Config) (cells : Cells) (i : Fin 16) (text : List Char) :
    (writeCells cfg .hide 0 text cells)[i] =
      ((lastWriter text i).map fun e => renderGlyph cfg.font e.1).getD cells[i] := by
  induction text using List.reverseRecOn with
  | nil => rfl
  | append_singleton text c ih =>
    rw [writeCells_hide_append, lastWriter_append]
    by_cases here : text.length % 16 = i
    · simp [here]
    · simpa [here, Vector.getElem_set_ne] using ih

/-- Settles O19: `writeCells_hide_cell`, by whether the cell has a writer. -/
theorem canvasWriteUnderHide : Obligations.CanvasWriteUnderHide := by
  intro s text ovr hide
  refine ⟨_, exec_canvasWrite text ovr s, fun i => ?_⟩
  rw [hide, writeCells_hide_cell, lastWriter]
  cases (text.zipIdx.filter fun e => e.2 % 16 == i.val).getLast? <;> rfl

end Sys2Proof.Machine

namespace Sys2Proof.Machine

/-! ### Bits of a canvas whose rows lie within the mask (42_canvas.md R166) -/

/-- The number of bits a shifted row keeps (R166). -/
def maskWidth (p : Gap) : Nat := if p = .skip then 5 else 6

theorem maskWidth_pos (p : Gap) : 0 < maskWidth p := by cases p <;> decide

theorem maskWidth_lt (p : Gap) : maskWidth p < 8 := by cases p <;> decide

theorem rowMask_toNat (p : Gap) : (rowMask p).toNat = 2 ^ maskWidth p - 1 := by cases p <;> decide

theorem bit_of_le_rowMask {p : Gap} {row : Byte} (h : row ≤ rowMask p) {k : Nat} (hk : maskWidth p ≤ k) :
    row.getLsbD k = false := by
  have small : row.toNat < 2 ^ maskWidth p := by
    have := BitVec.le_def.mp h
    have := Nat.two_pow_pos (maskWidth p)
    rw [rowMask_toNat] at *
    omega
  exact Nat.testBit_lt_two_pow (small.trans_le (Nat.pow_le_pow_right (by decide) hk))

theorem rowsWithin_rowMask_shiftCells (reading : CarryReading) (p : Gap) (cells : Cells) :
    rowsWithin (shiftCells reading p cells) (rowMask p) := by
  intro c r
  rw [shiftCells_row]
  exact shiftRow_le reading p _ _

theorem rowsWithin_shiftTimes (reading : CarryReading) (p : Gap) (n : Nat) : ∀ {cells : Cells},
    rowsWithin cells (rowMask p) → rowsWithin (shiftTimes reading p n cells) (rowMask p) := by
  induction n with
  | zero => exact id
  | succ n ih => exact fun _ => ih (rowsWithin_rowMask_shiftCells reading p _)

/-- Two canvases within the mask are equal when their bits below its width are. -/
theorem cells_ext_of_rowsWithin {p : Gap} {cells other : Cells} (hc : rowsWithin cells (rowMask p))
    (ho : rowsWithin other (rowMask p))
    (same : ∀ (c : Fin 16) (r : Fin 8) (k : Nat), k < maskWidth p → cells[c][r].getLsbD k = other[c][r].getLsbD k) :
    cells = other := by
  refine Vector.ext fun c hc16 => Vector.ext fun r hr8 => BitVec.eq_of_getLsbD_eq fun k _ => ?_
  by_cases low : k < maskWidth p
  · exact same ⟨c, hc16⟩ ⟨r, hr8⟩ k low
  · have high := Nat.not_lt.mp low
    exact (bit_of_le_rowMask (hc ⟨c, hc16⟩ ⟨r, hr8⟩) high).trans
      (bit_of_le_rowMask (ho ⟨c, hc16⟩ ⟨r, hr8⟩) high).symm

/-! ### A shift that loses no bit rotates every row string (R167, R168) -/

/-- The carried bit is the top bit of the mask, so that what leaves a cell enters the one before it. -/
abbrev losesNoBit (reading : CarryReading) (p : Gap) : Prop := carryBit reading p = maskWidth p - 1

theorem losesNoBit_hide (reading : CarryReading) : losesNoBit reading .hide := by cases reading <;> rfl

theorem losesNoBit_widthBit (p : Gap) : losesNoBit .widthBit p := by cases p <;> rfl

theorem shiftCells_bit_zero (reading : CarryReading) (p : Gap) (cells : Cells) (c : Fin 16) (r : Fin 8) :
    (shiftCells reading p cells)[c][r].getLsbD 0 = cells[c + 1][r].getLsbD (carryBit reading p) := by
  rw [shiftCells_row, shiftRow, getLsbD_shift_or _ _ _ _ _ (by decide), if_pos rfl]

theorem shiftCells_bit_succ (reading : CarryReading) (p : Gap) (cells : Cells) (c : Fin 16) (r : Fin 8) {k : Nat}
    (hk : k + 1 < maskWidth p) :
    (shiftCells reading p cells)[c][r].getLsbD (k + 1) = cells[c][r].getLsbD k := by
  have hk8 : k + 1 < 8 := hk.trans (maskWidth_lt p)
  rw [shiftCells_row, shiftRow, getLsbD_shift_or _ _ _ _ _ hk8, rowMask_bit p hk8, ← maskWidth]
  simp [hk]

/-- One place further in a row string is the next bit of the same cell, or the top bit of the next cell. -/
theorem rowString_getElem?_next {width : Nat} (cells : Cells) (r : Fin 8) (c : Fin 16) {j : Nat} (hj : j < width) :
    (rowString width cells r)[(c * width + j + 1) % (16 * width)]? =
      some (if j + 1 < width then cells[c][r].getLsbD (width - 1 - (j + 1))
        else cells[c + 1][r].getLsbD (width - 1)) := by
  split
  case isTrue inside =>
    have place : (c * width + j + 1) % (16 * width) = c * width + (j + 1) := by
      refine Nat.mod_eq_of_lt ?_
      have := Nat.mul_le_mul_right width (show c.val + 1 ≤ 16 from c.isLt)
      rw [Nat.add_mul] at this
      omega
    rw [place, rowString_getElem? _ _ _ _ inside]
  case isFalse last =>
    have place : (c * width + j + 1) % (16 * width) = (c + 1 : Fin 16) * width + 0 := by
      rw [show c * width + j + 1 = (c + 1) * width by rw [Nat.add_mul]; omega, Nat.mul_mod_mul_right, Fin.val_add]
      rfl
    rw [place, rowString_getElem? _ _ _ _ (by omega), Nat.sub_zero]

theorem rowString_shiftCells {reading : CarryReading} {p : Gap} (h : losesNoBit reading p) (cells : Cells) (r : Fin 8) :
    rowString (maskWidth p) (shiftCells reading p cells) r = (rowString (maskWidth p) cells r).rotate 1 := by
  have hpos := maskWidth_pos p
  refine List.ext_getElem? fun i => ?_
  by_cases hi : i < 16 * maskWidth p
  case neg => rw [List.getElem?_eq_none, List.getElem?_eq_none] <;> simp [rowString_length] <;> omega
  obtain ⟨c, j, hj, rfl⟩ : ∃ (c : Fin 16) (j : Nat), j < maskWidth p ∧ i = c * maskWidth p + j :=
    ⟨⟨i / maskWidth p, Nat.div_lt_of_lt_mul (by rwa [Nat.mul_comm])⟩, i % maskWidth p, Nat.mod_lt _ hpos,
      (Nat.div_add_mod' i _).symm⟩
  rw [List.getElem?_rotate (by rwa [rowString_length]), rowString_length, rowString_getElem? _ _ _ _ hj,
    rowString_getElem?_next _ _ _ hj]
  split
  case isTrue inside =>
    rw [show maskWidth p - 1 - j = maskWidth p - 1 - (j + 1) + 1 by omega, shiftCells_bit_succ _ _ _ _ _ (by omega)]
  case isFalse last => rw [show maskWidth p - 1 - j = 0 by omega, shiftCells_bit_zero, h]

theorem rowString_shiftTimes {reading : CarryReading} {p : Gap} (h : losesNoBit reading p) (r : Fin 8) (n : Nat) :
    ∀ cells : Cells, rowString (maskWidth p) (shiftTimes reading p n cells) r =
      (rowString (maskWidth p) cells r).rotate n := by
  induction n with
  | zero => exact fun cells => (List.rotate_zero _).symm
  | succ n ih => exact fun cells => by rw [shiftTimes, ih, rowString_shiftCells h, List.rotate_rotate, Nat.add_comm]

/-- Settles O22: under `Hide` no bit is lost, whatever the reading and the rows. -/
theorem hideShiftRotatesRowStrings : Obligations.HideShiftRotatesRowStrings := by
  intro s ovr _ hide
  refine ⟨_, exec_canvasShiftLeft ovr s, fun r => ?_⟩
  rw [hide]
  exact rowString_shiftCells (losesNoBit_hide _) _ r

/-- A canvas within the mask is determined by its row strings. -/
theorem cells_eq_of_rowString {p : Gap} {cells other : Cells} (hc : rowsWithin cells (rowMask p))
    (ho : rowsWithin other (rowMask p))
    (same : ∀ r : Fin 8, rowString (maskWidth p) cells r = rowString (maskWidth p) other r) : cells = other := by
  refine cells_ext_of_rowsWithin hc ho fun c r k hk => ?_
  have at_k := congrArg (·[c * maskWidth p + (maskWidth p - 1 - k)]?) (same r)
  have low : maskWidth p - 1 - k < maskWidth p := by omega
  simp only [rowString_getElem? _ _ _ _ low, Option.some.injEq] at at_k
  rwa [show maskWidth p - 1 - (maskWidth p - 1 - k) = k by omega] at at_k

/-- As many shifts as a row string has bits bring every bit back. -/
theorem shiftTimes_restores {reading : CarryReading} {p : Gap} (h : losesNoBit reading p) {cells : Cells}
    (hc : rowsWithin cells (rowMask p)) : shiftTimes reading p (16 * maskWidth p) cells = cells := by
  refine cells_eq_of_rowString (rowsWithin_shiftTimes reading p _ hc) hc fun r => ?_
  rw [rowString_shiftTimes h, ← rowString_length (maskWidth p) cells r, List.rotate_length]

/-- One pixel, at the front of row 0. -/
def onePixel : Cells := (Vector.replicate 16 Glyph.blank).set 0 (Glyph.blank.set 0 0x20#8)

theorem rowString_onePixel : rowString 6 onePixel 0 = true :: List.replicate 95 false := by decide

/-- A rotation by less than the whole string moves the only 1 bit away from the front. -/
theorem rotate_onePixel_ne {n : Nat} (hpos : 0 < n) (hn : n < 96) :
    (rowString 6 onePixel 0).rotate n ≠ rowString 6 onePixel 0 := by
  intro same
  obtain ⟨m, rfl⟩ : ∃ m, n = m + 1 := ⟨n - 1, by omega⟩
  have front : ((rowString 6 onePixel 0).rotate (m + 1))[0]? = (rowString 6 onePixel 0)[0]? := by rw [same]
  rw [List.getElem?_rotate (by rw [rowString_length]; decide), rowString_length, Nat.zero_add, Nat.mod_eq_of_lt hn,
    rowString_onePixel, List.getElem?_cons_succ, List.getElem?_replicate] at front
  simp [show m < 95 by omega] at front

/-- Settles O23: `shiftTimes_restores`, and one pixel, whose row string needs all 96 rotations. -/
theorem hideShiftsRestoreAfter96 : Obligations.HideShiftsRestoreAfter96 := by
  refine ⟨fun reading cells hc => shiftTimes_restores (losesNoBit_hide reading) hc, onePixel, by decide, ?_⟩
  intro reading n hpos hn restored
  refine rotate_onePixel_ne hpos hn ?_
  have rotates := rowString_shiftTimes (losesNoBit_hide reading) 0 n onePixel
  rw [restored] at rotates
  exact rotates.symm

/-! ### The fixed hidden bit under `Skip` (R18, R168) -/

/-- The lowest `n` bits of every row are 0. -/
def lowBitsClear (n : Nat) (cells : Cells) : Prop :=
  ∀ (c : Fin 16) (r : Fin 8) (k : Nat), k < n → cells[c][r].getLsbD k = false

/-- Rows of 5 bits have no hidden bit to carry, so one more low bit is 0 after a shift. -/
theorem lowBitsClear_shiftCells {n : Nat} {cells : Cells} (hc : rowsWithin cells 0x1F#8) (low : lowBitsClear n cells) :
    lowBitsClear (n + 1) (shiftCells .fixedHiddenBit .skip cells) := by
  intro c r k hk
  by_cases masked : maskWidth .skip ≤ k
  · exact bit_of_le_rowMask (rowsWithin_rowMask_shiftCells _ .skip cells c r) masked
  · cases k with
    | zero => exact (shiftCells_bit_zero _ _ _ _ _).trans (bit_of_le_rowMask (p := .skip) (hc _ r) (by decide))
    | succ k => exact (shiftCells_bit_succ _ _ _ _ _ (by omega)).trans (low c r k (by omega))

theorem lowBitsClear_shiftTimes (n : Nat) : ∀ {m : Nat} {cells : Cells}, rowsWithin cells 0x1F#8 →
    lowBitsClear m cells → lowBitsClear (m + n) (shiftTimes .fixedHiddenBit .skip n cells) := by
  induction n with
  | zero => exact fun _ low => low
  | succ n ih =>
    intro m cells hc low
    rw [show m + (n + 1) = m + 1 + n by omega]
    exact ih (rowsWithin_rowMask_shiftCells _ .skip cells) (lowBitsClear_shiftCells hc low)

/-- Settles O24: with the fixed hidden bit each shift clears one more bit of the five; with the width bit no bit is
lost, so `shiftTimes_restores`. -/
theorem skipShiftsLoseOrRotate : Obligations.SkipShiftsLoseOrRotate := by
  intro cells hc
  have within : rowsWithin cells (rowMask .skip) := hc
  refine ⟨?_, shiftTimes_restores (losesNoBit_widthBit .skip) within⟩
  have cleared : lowBitsClear (0 + 5) (shiftTimes .fixedHiddenBit .skip 5 cells) :=
    lowBitsClear_shiftTimes 5 hc fun _ _ k hk => absurd hk k.not_lt_zero
  have blank : rowsWithin (Vector.replicate 16 (Vector.replicate 8 0x00#8)) (rowMask .skip) := by decide
  refine cells_ext_of_rowsWithin (rowsWithin_shiftTimes _ .skip 5 within) blank fun c r k hk => ?_
  rw [cleared c r k hk]
  simp

end Sys2Proof.Machine

namespace Sys2Proof.Machine

/-! ### The glyphs of a pass that want a slot (41_glyph_cache.md R144) -/

theorem firstOccurrences_append (l m : List Glyph) :
    firstOccurrences (l ++ m) = firstOccurrences l ++ (firstOccurrences m).filter (· ∉ l) := by
  induction l with
  | nil => simp [firstOccurrences]
  | cons g rest ih => simp [firstOccurrences, ih, List.filter_filter, bne, beq_eq_decide]

theorem mem_firstOccurrences {l : List Glyph} {g : Glyph} : g ∈ firstOccurrences l ↔ g ∈ l := by
  induction l with
  | nil => simp [firstOccurrences]
  | cons h rest ih => by_cases same : g = h <;> simp [firstOccurrences, ih, same]

theorem mem_wantedGlyphs {rom : RomTable} {gs : List Glyph} {g : Glyph} :
    g ∈ wantedGlyphs rom gs ↔ g ∈ gs ∧ romSearch rom g = none := by
  simp [wantedGlyphs, mem_firstOccurrences]

/-- More glyphs in a pass want their slots after the earlier ones. -/
theorem wantedGlyphs_grows (rom : RomTable) (gs more : List Glyph) :
    wantedGlyphs rom gs <+: wantedGlyphs rom (gs ++ more) := by
  rw [wantedGlyphs, wantedGlyphs, List.filter_append, firstOccurrences_append]
  exact List.prefix_append _ _

theorem wantedGlyphs_append_rom {rom : RomTable} {g : Glyph} {a : Byte} (isRom : romSearch rom g = some a)
    (gs : List Glyph) : wantedGlyphs rom (gs ++ [g]) = wantedGlyphs rom gs := by
  simp [wantedGlyphs, isRom]

theorem wantedGlyphs_append_old {rom : RomTable} {gs : List Glyph} {g : Glyph} (old : g ∈ wantedGlyphs rom gs) :
    wantedGlyphs rom (gs ++ [g]) = wantedGlyphs rom gs := by
  obtain ⟨seen, notRom⟩ := mem_wantedGlyphs.mp old
  simp [wantedGlyphs, firstOccurrences_append, firstOccurrences, seen, notRom]

theorem wantedGlyphs_append_new {rom : RomTable} {gs : List Glyph} {g : Glyph} (notRom : romSearch rom g = none)
    (new : g ∉ wantedGlyphs rom gs) : wantedGlyphs rom (gs ++ [g]) = wantedGlyphs rom gs ++ [g] := by
  have unseen : g ∉ gs := fun seen => new (mem_wantedGlyphs.mpr ⟨seen, notRom⟩)
  simp [wantedGlyphs, firstOccurrences_append, firstOccurrences, unseen, notRom]

/-- The slots of a pass over `gs`: the first 8 of the glyphs that want one (R144, R149). -/
def passSlots (rom : RomTable) (gs : List Glyph) : List Glyph := (wantedGlyphs rom gs).take cacheSlots

theorem passSlots_length_le (rom : RomTable) (gs : List Glyph) : (passSlots rom gs).length ≤ cacheSlots :=
  List.length_take_le _ _

/-- A pass that leaves a slot free gave one to every glyph that wanted it. -/
theorem passSlots_eq_of_free {rom : RomTable} {gs : List Glyph} (free : (passSlots rom gs).length < cacheSlots) :
    passSlots rom gs = wantedGlyphs rom gs := by
  refine List.take_of_length_le ?_
  rw [passSlots, List.length_take] at free
  omega

theorem passSlots_grows (rom : RomTable) (gs more : List Glyph) : passSlots rom gs <+: passSlots rom (gs ++ more) :=
  (wantedGlyphs_grows rom gs more).take _

/-! ### The address of a glyph in a pass (R142, R144) -/

theorem passAddress_of_rom {rom : RomTable} {g : Glyph} {a : Byte} (isRom : romSearch rom g = some a)
    (gs : List Glyph) : passAddress rom gs g = a := by
  simp [passAddress, isRom]

theorem passAddress_of_slot {rom : RomTable} {gs : List Glyph} {g : Glyph} (held : g ∈ passSlots rom gs) :
    passAddress rom gs g = slotCode ((passSlots rom gs).idxOf g) := by
  have first : passSlots rom gs <+: wantedGlyphs rom gs := List.take_prefix _ _
  have wanted := first.subset held
  have place : (wantedGlyphs rom gs).idxOf g < cacheSlots := (List.mem_take_iff_idxOf_lt wanted).mp held
  rw [passAddress, (mem_wantedGlyphs.mp wanted).2, first.idxOf_eq_of_mem held]
  exact if_pos place

theorem passAddress_of_no_slot {rom : RomTable} {gs : List Glyph} {g : Glyph} (notRom : romSearch rom g = none)
    (seen : g ∈ gs) (unheld : g ∉ passSlots rom gs) : passAddress rom gs g = blankAddr rom := by
  have wanted := mem_wantedGlyphs.mpr ⟨seen, notRom⟩
  have place : ¬ (wantedGlyphs rom gs).idxOf g < cacheSlots := fun lt =>
    unheld ((List.mem_take_iff_idxOf_lt wanted).mpr lt)
  rw [passAddress, notRom]
  exact if_neg place

/-- The address of a glyph that the pass has resolved does not depend on what the pass resolves after it (R148). -/
theorem passAddress_append {rom : RomTable} {gs : List Glyph} {g : Glyph} (seen : g ∈ gs) (more : List Glyph) :
    passAddress rom (gs ++ more) g = passAddress rom gs g := by
  cases h : romSearch rom g with
  | some a => rw [passAddress_of_rom h, passAddress_of_rom h]
  | none =>
    have grows := wantedGlyphs_grows rom gs more
    rw [passAddress, passAddress, h, grows.idxOf_eq_of_mem (mem_wantedGlyphs.mpr ⟨seen, h⟩)]

/-! ### A render pass, cell by cell (42_canvas.md R170) -/

/-- One resolution from the slots of the pass so far: the slots and the address of the pass with one glyph more. -/
theorem resolve_passSlots (rom : RomTable) (gs : List Glyph) (g : Glyph) :
    resolve rom (passSlots rom gs) g = (passAddress rom (gs ++ [g]) g, passSlots rom (gs ++ [g])) := by
  rcases resolve_cases rom (passSlots rom gs) g with
    ⟨a, isRom, found⟩ | ⟨-, held, hit⟩ | ⟨notRom, absent, free, new⟩ | ⟨notRom, absent, full, fallback⟩
  · rw [found, passAddress_of_rom isRom, passSlots, passSlots, wantedGlyphs_append_rom isRom]
  · have same : passSlots rom (gs ++ [g]) = passSlots rom gs := by
      rw [passSlots, passSlots, wantedGlyphs_append_old (List.mem_of_mem_take held)]
    rw [hit, passAddress_of_slot (same ▸ held), same]
  · have all := passSlots_eq_of_free free
    have grown : passSlots rom (gs ++ [g]) = passSlots rom gs ++ [g] := by
      rw [passSlots, wantedGlyphs_append_new notRom (all ▸ absent), ← all]
      exact List.take_of_length_le (by simpa using free)
    rw [new, passAddress_of_slot (by simp [grown]), grown, List.idxOf_append_of_notMem absent]
    simp
  · have same : passSlots rom (gs ++ [g]) = passSlots rom gs :=
      ((passSlots_grows rom gs [g]).eq_of_length_le ((passSlots_length_le _ _).trans full)).symm
    rw [fallback, passAddress_of_no_slot notRom (by simp) (same ▸ absent), same]

/-- The rest of a pass, from the slots of the pass so far. -/
theorem resolveAll_passSlots (rom : RomTable) (more : List Glyph) : ∀ gs : List Glyph,
    resolveAll rom (passSlots rom gs) more =
      (more.map (passAddress rom (gs ++ more)), passSlots rom (gs ++ more)) := by
  induction more with
  | nil => intro gs; simp [resolveAll]
  | cons g rest ih =>
    intro gs
    have address : passAddress rom (gs ++ g :: rest) g = passAddress rom (gs ++ [g]) g := by
      rw [List.append_cons, passAddress_append (by simp)]
    rw [resolveAll, resolve_passSlots, ih, ← List.append_cons, List.map_cons, address]

/-- A whole pass starts from no slots. -/
theorem resolveAll_nil_slots (rom : RomTable) (gs : List Glyph) :
    resolveAll rom [] gs = (gs.map (passAddress rom gs), passSlots rom gs) :=
  resolveAll_passSlots rom gs []

theorem renderSlots_eq (rom : RomTable) (cells : Cells) : renderSlots rom cells = passSlots rom cells.toList := by
  rw [renderSlots, resolveAll_nil_slots]

theorem renderImage_getElem (rom : RomTable) (cells : Cells) (i : Fin 16) :
    (renderImage rom cells)[i] = passAddress rom cells.toList cells[i] := by
  simp [renderImage, resolveAll_nil_slots]

/-- Settles O17: a pass is `resolveAll` from an empty cache, and `resolve_passSlots` says what each of its steps
answers. -/
theorem renderPassAddresses : Obligations.RenderPassAddresses := by
  intro s
  refine ⟨renderImage s.cfg.rom s.canvas.cells, flattenSlots (renderSlots s.cfg.rom s.canvas.cells), ?_,
    renderImage_getElem s.cfg.rom s.canvas.cells, ?_⟩
  · rw [exec, execCanvasRender, done, renderSlots_eq]; rfl
  · rw [renderSlots_eq]; rfl

end Sys2Proof.Machine

namespace Sys2Proof.Machine

/-! ### DRV_EXEC and the wire commands where they complete (43_protocol.md R193, R200 to R207) -/

/-- Settles O27: the write cycle with RS low and the command's settle time, closed by `unit`. -/
theorem drvExecCompletes : Obligations.DrvExecCompletes := by
  intro s cmd b hf hp encodes
  obtain ⟨t, run, emits, lines, bus, -⟩ := commandCycle_emits encodes (by rwa [writePins_length_eq_ite])
  obtain ⟨trace, fault, block⟩ := emits.withResult .unit
  refine ⟨_, guarded_completes hf run _, ?_, lines, bus, rfl, fault.trans hf, block⟩
  rw [trace]
  simp [writePins, turnEvents_out]

/-- A 6-bit address stands below the two marking bits of its command byte (R99). -/
theorem commandByte_cgram (a : BitVec 6) : commandByte (.setGlyphRamAddress (a.setWidth 8)) = 0b01#2 ++ a := by
  revert a; decide

/-- A 7-bit address stands below the marking bit of its command byte (R100). -/
theorem commandByte_ddram (a : BitVec 7) : commandByte (.setDisplayRamAddress (a.setWidth 8)) = 0b1#1 ++ a := by
  revert a; decide

/-- Settles O31: each row is DRV_EXEC of a command that has the row's byte and settle time; its address fits, so it
encodes under either address policy. -/
theorem wireCommandsComplete : Obligations.WireCommandsComplete := by
  intro s i b wait hf hp row
  obtain ⟨-, -, entryByte, onOffByte, shiftByte, functionByte, -, -⟩ := commandByteLayouts
  obtain ⟨cmd, hi, fits, rfl, rfl⟩ : ∃ cmd, commandOf i = some cmd ∧ addressFits cmd = true ∧
      commandByte cmd = b ∧ settle s.cfg cmd = wait := by
    rcases row with ⟨rfl, rfl, rfl⟩ | ⟨rfl, rfl, rfl⟩ | ⟨d, v, rfl, rfl, rfl⟩ | ⟨d, c, k, rfl, rfl, rfl⟩ |
      ⟨g, d, rfl, rfl, rfl⟩ | ⟨n, f, rfl, rfl, rfl⟩ | ⟨a, rfl, rfl, rfl⟩ | ⟨a, rfl, rfl, rfl⟩
    · exact ⟨_, rfl, rfl, rfl, rfl⟩
    · exact ⟨_, rfl, rfl, rfl, rfl⟩
    · exact ⟨_, rfl, rfl, entryByte d v, rfl⟩
    · exact ⟨_, rfl, rfl, onOffByte d c k, rfl⟩
    · exact ⟨_, rfl, rfl, shiftByte g d, rfl⟩
    · exact ⟨_, rfl, rfl, functionByte n f, rfl⟩
    · exact ⟨_, rfl, addressFits_cgram a, commandByte_cgram a, rfl⟩
    · exact ⟨_, rfl, addressFits_ddram a, commandByte_ddram a, rfl⟩
  rw [exec_of_commandOf hi]
  exact drvExecCompletes s cmd _ hf hp (encodeCommand_of_fits fits _)

/-! ### An address wider than its field (43_protocol.md R188) -/

/-- Under `Refuse` a wide address ends DRV_EXEC before its first pin operation. -/
theorem drvExec_of_wide {s : State} {cmd : Command} (hf : s.fault = none) (refuse : s.cfg.addrPolicy = .refuse)
    (wide : addressFits cmd = false) :
    exec (.drvExec cmd) s = .next (s.withResult (.error (.addrRange cmd))) := by
  have refused : encodeCommand s.cfg.addrPolicy cmd = none := by simp [encodeCommand, refuse, wide]
  have raised : commandCycle cmd s = .failed (.addrRange cmd) s := by rw [commandCycle, refused]; rfl
  rw [exec_of_commandOf rfl, driverExec, unlessFaulted_of_none hf, raised]
  rfl

theorem diffCompute_operand_le {pd : Option Image} {pc : Option (List Byte)} {nd : Image} {nc : List Byte} {s t : State}
    (h : exec (.diffCompute pd pc nd nc) s = .next t) : nc.length ≤ cgramBytes := by
  by_contra wide
  simp [exec, execDiffCompute, wide] at h

/-- The byte that a phase of DIFF_COMPUTE makes of an address does not exceed the bound of the addresses. -/
theorem ofNat_le_of_le {x : Nat} {bound : Byte} (h : x ≤ bound.toNat) : BitVec.ofNat 8 x ≤ bound := by
  rw [BitVec.le_def, BitVec.toNat_ofNat]
  exact (Nat.mod_le _ _).trans h

/-- Every address item of a list that DIFF_COMPUTE hands over fits its field (45_diff_updater.md R231). -/
theorem itemFits_of_mem_diffOps {pd : Option Image} {pc : Option (List Byte)} {nd : Image} {nc : List Byte}
    (operand : nc.length ≤ cgramBytes) {item : DiffOp} (h : item ∈ diffOps pd pc nd nc) : itemFits item = true := by
  rcases List.mem_append.mp h with cg | dd
  · rcases mem_phaseOps _ _ _ _ cg with ⟨⟨j, b⟩, changed, rfl⟩ | ⟨e, -, rfl⟩
    · have inside : j < nc.length := (List.getElem?_eq_some_iff.mp (mem_cgChanges.mp changed).1).1
      exact decide_eq_true (ofNat_le_of_le (bound := 0x3F#8) (Nat.le_of_lt_succ (inside.trans_le operand)))
    · rfl
  · rcases mem_phaseOps _ _ _ _ dd with ⟨⟨a, b⟩, changed, rfl⟩ | ⟨e, -, rfl⟩
    · obtain ⟨i, rfl, -, -⟩ := mem_ddChanges.mp changed
      have inside : devaddr i ≤ devaddr 15 := devaddr_strictMono.monotone (Nat.le_of_lt_succ i.isLt)
      exact decide_eq_true (ofNat_le_of_le (bound := 0x7F#8) (inside.trans (by decide)))
    · rfl

/-- Settles O32: under `Refuse` a wide address has no byte to place, under `Mask` its byte is the masked one; the
addresses of DIFF_COMPUTE are those of the changed bytes. -/
theorem wideAddressRefusedOrMasked : Obligations.WideAddressRefusedOrMasked := by
  intro s a
  refine ⟨fun hf refuse => ⟨fun wide => ?_, fun wide => ?_⟩, fun mask => ?_, ?_⟩
  · exact drvExec_of_wide hf refuse (decide_eq_false (BitVec.not_le.mpr wide))
  · exact drvExec_of_wide hf refuse (decide_eq_false (BitVec.not_le.mpr wide))
  · rw [mask]
    exact ⟨rfl, rfl⟩
  · intro pd pc nd nc t ops computed list item hitem
    have operand := diffCompute_operand_le computed
    obtain rfl := diffCompute_next computed
    cases list
    have fits := itemFits_of_mem_diffOps operand hitem
    constructor
    · rintro b rfl
      exact of_decide_eq_true fits
    · rintro b rfl
      exact of_decide_eq_true fits

/-! ### A pin operation that fails (43_protocol.md R186, R190, 60_exceptions.md R251, R257) -/

/-- The failing event and those before it are read off the trace. -/
theorem Broken.brokenOff_take {s t : State} {pins : List Event} {n : Nat} (broken : Broken s t)
    (hn : n < pins.length) (trace : t.trace = s.trace ++ pins.take (n + 1)) :
    brokenOff s t (pins.take n) pins[n] := by
  obtain ⟨evs, ev, trace', off⟩ := broken
  have same : pins.take n ++ [pins[n]] = evs ++ [ev] := by
    rw [← List.take_succ_eq_append_getElem hn]
    exact List.append_cancel_left (by rw [← trace, trace', List.append_assoc])
  obtain ⟨before, last⟩ := List.append_inj' same rfl
  cases last
  rwa [before]

/-- A driver or bus operation, from a state with no fault, whose pin operation `n` is its first to fail. -/
theorem FailsAt.guarded {α : Type} {s : State} {r : Ran α} {pins : List Event} (fails : FailsAt s r pins)
    (keeps : r.Keeps s) (f : α → OpResult) {n : Nat} {e : HwErr} (hf : s.fault = none) (hn : n < pins.length)
    (hp : pinFailsAt s n e) : ∃ t, unlessFaulted s (finish r f) = .next t ∧
      t.trace = s.trace ++ pins.take (n + 1) ∧ t.fault = some e ∧ t.host.result = .error (.hwError e) ∧
      keepsBlock s t ∧ ∀ failing, pins[n]? = some failing → brokenOff s t (pins.take n) failing := by
  obtain ⟨u, rfl, trace⟩ := fails n e hn hp
  obtain ⟨cfg, cache, canvas, pending, -⟩ := keeps.close f
  obtain ⟨-, fault, broken⟩ := keeps
  refine ⟨u.withResult (.error (.hwError e)), by rw [unlessFaulted_of_none hf]; rfl, trace, fault, rfl,
    ⟨cfg, cache, canvas, pending⟩, fun failing at_n => ?_⟩
  obtain ⟨-, rfl⟩ := List.getElem?_eq_some_iff.mp at_n
  exact broken.brokenOff_take hn trace

theorem commandCycle_fails {s : State} {cmd : Command} {b : Byte}
    (hb : encodeCommand s.cfg.addrPolicy cmd = some b) :
    FailsAt s (commandCycle cmd s) (writePins false s.bus.dir b) := by
  simp only [commandCycle, hb]
  exact writeCycle_fails false b _ s

/-- Settles O35: `FailsAt.guarded` for the steps of each operation. -/
theorem pinFailureEndsOperation : Obligations.PinFailureEndsOperation := by
  intro s i pins n e hf op hn hp
  rcases op with ⟨b, hi, rfl⟩ | ⟨cmd, b, hi, hb, rfl⟩ | ⟨hi, rfl⟩ | ⟨hi, rfl⟩ | ⟨b, rfl, rfl⟩ | ⟨rfl, rfl⟩
  · have same : exec i s = driverWrite b s := by rcases hi with rfl | rfl <;> rfl
    rw [same]
    exact FailsAt.guarded (writeCycle_fails _ _ _ s) (dataCycle_keeps b s) _ hf hn hp
  · rw [exec_of_commandOf hi]
    exact (commandCycle_fails hb).guarded (commandCycle_keeps cmd s) _ hf hn hp
  · have same : exec i s = driverRead s := by rcases hi with rfl | rfl <;> rfl
    rw [same]
    exact (readCycle_fails s).guarded (readCycle_keeps s) _ hf hn hp
  · have same : exec i s = driverReadAc s := by rcases hi with rfl | rfl <;> rfl
    rw [same]
    exact (readAcCycle_fails s).guarded (readAcCycle_keeps s) _ hf hn hp
  · exact (busPut_fails b s).guarded (busPut_keeps b s) _ hf hn hp
  · exact (busGet_fails s).guarded (busGet_keeps s) _ hf hn hp

/-- Steps that end with an `HwError` as their result broke off at their last event. -/
theorem Ran.Keeps.close_broken {α : Type} {s : State} {r : Ran α} (keeps : r.Keeps s) {f : α → OpResult}
    (hf : ∀ v e, f v ≠ .error e) {e : HwErr} (result : (r.close f).host.result = .error (.hwError e)) :
    Broken s (r.close f) := by
  match r, keeps with
  | .ok v t, _ => exact absurd result (hf v _)
  | .failed (.hwError e') t, ⟨_, _, broken⟩ => exact broken
  | .failed (.addrRange cmd) t, _ => cases result

/-- Settles O36: SetLine on both answers of the pin oracle; an operation that ends in an `HwError` is a sequence of pin
steps that broke off. -/
theorem failedLineLevelIsUnknown : Obligations.FailedLineLevelIsUnknown := by
  refine ⟨fun l v s => ⟨fun ok => ?_, fun e err => ?_⟩, fun i s t e h result => ?_⟩
  · exact ⟨_, setLine_ok l v ok, rfl, rfl⟩
  · exact ⟨_, setLine_err l v err, rfl, rfl, rfl, rfl⟩
  · rcases exec_next h with ⟨α, r, f, keeps, hf, -, rfl⟩ | untouched
    · exact keeps.close_broken hf result
    · exact absurd result (untouched.result _)

/-! ### The frame of the pin-touching operations (43_protocol.md R193 to R199, 44_bus.md R212, R213) -/

/-- No instruction takes a request off the host port: a step has done so before it runs one. -/
theorem exec_keeps_pending {i : Instr} {s t : State} (h : exec i s = .next t) :
    t.host.pending = s.host.pending := by
  rcases exec_next h with ⟨α, r, f, keeps, -, -, rfl⟩ | untouched
  · obtain ⟨-, -, -, pending, -⟩ := keeps.close f
    exact pending
  · exact untouched.pending

/-- Settles O42: none of these instructions is among the writers of the cache and the canvas that `slotsAfter` and
`canvasAfter` list. -/
theorem pinOperationsFrame : Obligations.PinOperationsFrame := by
  intro i s t touches h
  have writesNeither : slotsAfter i s = s.cache.slots ∧ canvasAfter i s = s.canvas := by
    rcases touches with ⟨_, rfl⟩ | ⟨_, rfl⟩ | rfl | rfl | ⟨_, rfl⟩ | rfl | ⟨_, rfl⟩ | rfl | rfl | ⟨_, _, rfl⟩ |
      ⟨_, _, _, rfl⟩ | ⟨_, _, rfl⟩ | ⟨_, _, rfl⟩ | ⟨_, rfl⟩ | ⟨_, rfl⟩ | rfl | ⟨_, rfl⟩ | rfl <;> exact ⟨rfl, rfl⟩
  obtain ⟨slots, canvas⟩ := exec_slots_canvas h
  obtain ⟨trace, cfg⟩ := exec_appends_trace_keeps_cfg h
  exact ⟨⟨cfg, congrArg Cache.mk (slots.trans writesNeither.1), canvas.trans writesNeither.2, exec_keeps_pending h⟩,
    trace⟩

end Sys2Proof.Machine

namespace Sys2Proof.Machine

/-! ### The bus operations where they complete (44_bus.md R210, R212, R213) -/

/-- Settles O25: the steps of BUS_WRITE, closed by `unit`. -/
theorem busWriteCompletes : Obligations.BusWriteCompletes := by
  intro s b hf hp
  obtain ⟨t, run, emits, lines, bus, dev, -⟩ := busPut_emits b (by rwa [turnEvents_out_length_add])
  obtain ⟨trace, fault, block⟩ := emits.withResult .unit
  refine ⟨_, guarded_completes hf run _, ?_, bus, rfl, fault.trans hf, lines, dev, block⟩
  rw [trace, turnEvents_out, List.append_assoc]

/-- Settles O26: the steps of BUS_READ, closed by the sampled byte. -/
theorem busReadCompletes : Obligations.BusReadCompletes := by
  intro s hf hp
  obtain ⟨t, run, emits, lines, bus, dev⟩ := busGet_emits (by rwa [turnEvents_sense_length_add])
  obtain ⟨trace, fault, block⟩ := emits.withResult (.byte (sampleAt s 0))
  refine ⟨_, guarded_completes hf run _, ?_, bus, rfl, fault.trans hf, lines, dev, block⟩
  rw [trace, turnEvents_sense, List.append_assoc]

/-! ### The uninitialized bus (44_bus.md R210, 70_reset_and_hazards.md R282) -/

/-- If `t` has no fault and an uninitialized bus, then the bus was uninitialized in `s` and the trace has not grown
since. -/
def UntouchedIfUninitialized (s t : State) : Prop :=
  t.fault = none → t.bus.dir = .uninitialized → s.bus.dir = .uninitialized ∧ t.trace = s.trace

theorem UntouchedIfUninitialized.of_eq {s t : State} (bus : t.bus = s.bus) (trace : t.trace = s.trace) :
    UntouchedIfUninitialized s t :=
  fun _ uninit => ⟨bus ▸ uninit, trace⟩

/-- Either every pin operation of a sequence is answered `Ok`, or the sequence ends in an `HwError`. -/
theorem FailsAt.pinsOk_or_failed {α : Type} {s : State} {r : Ran α} {pins : List Event} (fails : FailsAt s r pins) :
    pinsOk s pins.length ∨ ∃ e t, r = .failed (.hwError e) t := by
  refine or_iff_not_imp_right.mpr fun never k => ?_
  induction k using Nat.strong_induction_on with
  | _ k before =>
    intro hk
    cases answer : pinAnswerAt s k with
    | ok => rfl
    | err e =>
      obtain ⟨t, failed, -⟩ := fails k e hk ⟨fun j hj => before j hj (hj.trans hk), answer⟩
      exact absurd ⟨e, t, failed⟩ never

/-- Steps that leave the bus with a direction where their pin operations succeed, and record a fault where one fails. -/
theorem FailsAt.untouchedIfUninitialized {α : Type} {s : State} {r : Ran α} {pins : List Event}
    (fails : FailsAt s r pins) (keeps : r.Keeps s)
    (turns : pinsOk s pins.length → ∃ v t, r = .ok v t ∧ t.bus.dir ≠ .uninitialized) (f : α → OpResult) :
    UntouchedIfUninitialized s (r.close f) := by
  intro noFault uninit
  rcases fails.pinsOk_or_failed with ok | ⟨e, t, rfl⟩
  · obtain ⟨v, t, rfl, turned⟩ := turns ok
    exact absurd uninit turned
  · obtain ⟨-, recorded, -⟩ := keeps
    cases recorded.symm.trans noFault

theorem busPut_untouchedIfUninitialized (b : Byte) (s : State) (f : Unit → OpResult) :
    UntouchedIfUninitialized s ((busPut b s).close f) :=
  (busPut_fails b s).untouchedIfUninitialized (busPut_keeps b s) (fun ok => by
    obtain ⟨t, run, -, -, bus, -⟩ := busPut_emits b (by simpa using ok)
    exact ⟨_, t, run, by simp [bus]⟩) f

theorem busGet_untouchedIfUninitialized (s : State) (f : Byte → OpResult) :
    UntouchedIfUninitialized s ((busGet s).close f) :=
  (busGet_fails s).untouchedIfUninitialized (busGet_keeps s) (fun ok => by
    obtain ⟨t, run, -, -, bus, -⟩ := busGet_emits (by simpa using ok)
    exact ⟨_, t, run, by simp [bus]⟩) f

theorem writeCycle_untouchedIfUninitialized (rs : Bool) (b : Byte) (wait : Nat) (s : State) (f : Unit → OpResult) :
    UntouchedIfUninitialized s ((writeCycle rs b wait s).close f) :=
  (writeCycle_fails rs b wait s).untouchedIfUninitialized (writeCycle_keeps rs b wait s) (fun ok => by
    obtain ⟨t, run, -, -, bus, -⟩ := writeCycle_emits rs b wait ok
    exact ⟨_, t, run, by simp [bus]⟩) f

theorem readCycle_untouchedIfUninitialized (s : State) (f : Byte → OpResult) :
    UntouchedIfUninitialized s ((readCycle s).close f) :=
  (readCycle_fails s).untouchedIfUninitialized (readCycle_keeps s) (fun ok => by
    obtain ⟨t, run, -, -, bus, -⟩ := readCycle_emits ok
    exact ⟨_, t, run, by simp [bus]⟩) f

theorem readAcCycle_untouchedIfUninitialized (s : State) (f : Byte → OpResult) :
    UntouchedIfUninitialized s ((readAcCycle s).close f) :=
  (readAcCycle_fails s).untouchedIfUninitialized (readAcCycle_keeps s) (fun ok => by
    obtain ⟨t, run, -, -, bus, -⟩ := readAcCycle_emits ok
    exact ⟨_, t, run, by simp [bus]⟩) f

/-- A command with no byte ends before its first pin operation (43_protocol.md R188). -/
theorem commandCycle_untouchedIfUninitialized (cmd : Command) (s : State) (f : Unit → OpResult) :
    UntouchedIfUninitialized s ((commandCycle cmd s).close f) := by
  unfold commandCycle
  split
  · exact .of_eq rfl rfl
  · exact writeCycle_untouchedIfUninitialized _ _ _ _ f

theorem applyItem_untouchedIfUninitialized (item : DiffOp) (s : State) (f : Unit → OpResult) :
    UntouchedIfUninitialized s ((applyItem item s).close f) := by
  cases item with
  | setCG a | setDD a => exact commandCycle_untouchedIfUninitialized _ s f
  | write b => exact writeCycle_untouchedIfUninitialized _ _ _ s f

/-- An item that completes leaves the bus driving, so the rest of the list does not find it uninitialized. -/
theorem applyOps_untouchedIfUninitialized (f : Unit → OpResult) (ops : List DiffOp) :
    ∀ s : State, UntouchedIfUninitialized s ((applyOps ops s).close f) := by
  induction ops with
  | nil => exact fun s => .of_eq rfl rfl
  | cons item rest ih =>
    intro s
    rw [applyOps]
    cases run : applyItem item s with
    | failed e t =>
      have first := applyItem_untouchedIfUninitialized item s f
      rwa [run] at first
    | ok v t =>
      obtain ⟨-, -, bus, -⟩ := applyItem_ok run
      intro noFault uninit
      obtain ⟨uninitAfterItem, -⟩ := ih t noFault uninit
      rw [bus] at uninitAfterItem
      cases uninitAfterItem

/-- Every next state of `exec`: an operation that moves the bus ends with a direction or with a fault, and one that
touches no pin changes neither the bus nor the trace. -/
theorem exec_untouchedIfUninitialized {i : Instr} {s t : State} (h : exec i s = .next t) :
    UntouchedIfUninitialized s t := by
  cases i
  case drvExec | clear | returnHome | entryMode | onOff | shift | functionSet | setCgramAddr | setDdramAddr =>
    obtain ⟨-, rfl⟩ := guarded_next h
    exact commandCycle_untouchedIfUninitialized _ s _
  case drvWrite | writeData =>
    obtain ⟨-, rfl⟩ := guarded_next h
    exact writeCycle_untouchedIfUninitialized _ _ _ s _
  case drvRead | readData =>
    obtain ⟨-, rfl⟩ := guarded_next h
    exact readCycle_untouchedIfUninitialized s _
  case drvReadAc | readBfAc =>
    obtain ⟨-, rfl⟩ := guarded_next h
    exact readAcCycle_untouchedIfUninitialized s _
  case busWrite b =>
    obtain ⟨-, rfl⟩ := guarded_next h
    exact busPut_untouchedIfUninitialized b s _
  case busRead =>
    obtain ⟨-, rfl⟩ := guarded_next h
    exact busGet_untouchedIfUninitialized s _
  case diffApply ops =>
    obtain rfl := diffApply_next h
    exact applyOps_untouchedIfUninitialized _ ops s
  case cacheResolve | cacheImage =>
    obtain ⟨-, run⟩ := ifCountLegal_next h
    cases run; exact .of_eq rfl rfl
  case diffCompute =>
    obtain rfl := diffCompute_next h
    exact .of_eq rfl rfl
  case glyphRender | glyphEq | glyphDistance | romSearch | cacheFlush | canvasInit | canvasWrite | canvasShiftLeft
      | canvasRender =>
    cases h; exact .of_eq (by simp) (by simp)

/-- Settles O40: a step waits, or runs `exec` once the request is off the port; taking it off touches neither the bus
nor the trace. -/
theorem busNeverReturnsToUninitialized : Obligations.BusNeverReturnsToUninitialized := by
  intro s t h
  rcases step_next h with ⟨-, rfl⟩ | ⟨r, rest, i, -, -, run⟩
  · exact fun _ uninit => ⟨uninit, rfl⟩
  · have untouched : UntouchedIfUninitialized (s.withPending rest) t := exec_untouchedIfUninitialized run
    exact untouched

end Sys2Proof.Machine

namespace Sys2Proof.Machine

/-! ### DIFF_COMPUTE's list where nothing or one byte has changed (45_diff_updater.md R231, R237, R238) -/

theorem exec_diffCompute_of_le {nc : List Byte} (operand : nc.length ≤ 64) (pd : Option Image)
    (pc : Option (List Byte)) (nd : Image) (s : State) :
    exec (.diffCompute pd pc nd nc) s = .next (s.withResult (.opList (diffOps pd pc nd nc))) :=
  if_pos operand

@[simp] theorem cgChanges_self (c : List Byte) : cgChanges (some c) c = [] := by
  refine List.eq_nil_iff_forall_not_mem.mpr fun ⟨j, b⟩ changed => ?_
  obtain ⟨value, differs⟩ := mem_cgChanges.mp changed
  exact (changedCG_iff _ _ _).mp differs c rfl value

@[simp] theorem ddChanges_self (d : Image) : ddChanges (some d) d = [] := by
  refine List.eq_nil_iff_forall_not_mem.mpr fun ⟨a, b⟩ changed => ?_
  obtain ⟨i, -, rfl, differs⟩ := mem_ddChanges.mp changed
  exact (changedDD_iff _ _ _).mp differs d rfl rfl

/-- Settles O43: neither region has a changed byte. -/
theorem identicalImagesGiveNoOperations : Obligations.IdenticalImagesGiveNoOperations := by
  intro s d c operand
  rw [exec_diffCompute_of_le operand, diffOps, cgChanges_self, ddChanges_self]
  rfl

/-- A list of changes by rising address is determined by its members. -/
theorem eq_singleton_of_rising {l : List (Nat × Byte)} (rising : (l.map Prod.fst).Pairwise (· < ·))
    {a : Nat} {b : Byte} (members : ∀ x c, (x, c) ∈ l ↔ x = a ∧ c = b) : l = [(a, b)] := by
  have distinct : l.Nodup := .of_map Prod.fst (rising.imp Nat.ne_of_lt)
  refine List.perm_singleton.mp ((List.perm_ext_iff_of_nodup distinct (List.nodup_singleton _)).mpr ?_)
  rintro ⟨x, c⟩
  rw [members, List.mem_singleton, Prod.mk.injEq]

theorem cgChanges_set {q : List Byte} {j : Nat} {b : Byte} (inside : j < q.length) (differs : q[j]? ≠ some b) :
    cgChanges (some q) (q.set j b) = [(j, b)] := by
  refine eq_singleton_of_rising (cgChanges_pairwise _ _) fun x c => ?_
  simp only [mem_cgChanges, changedCG_iff, Option.some.injEq, forall_eq', List.getElem?_set]
  by_cases same : j = x
  · subst same
    simp only [if_true, inside, Option.some.injEq, true_and]
    constructor
    · rintro ⟨rfl, -⟩; rfl
    · rintro rfl; exact ⟨rfl, differs⟩
  · simp [same, Ne.symm same]

theorem ddChanges_set {d : Image} {i : Fin 16} {b : Byte} (differs : b ≠ d[i]) :
    ddChanges (some d) (d.set i b) = [(devaddr i, b)] := by
  refine eq_singleton_of_rising (ddChanges_pairwise _ _) fun x c => ?_
  simp only [mem_ddChanges, changedDD_iff, Option.some.injEq, forall_eq']
  constructor
  · rintro ⟨k, rfl, rfl, changed⟩
    by_cases same : i = k
    · subst same; simp
    · have same' : (i : Nat) ≠ k := fun h => same (Fin.ext h)
      simp [Vector.getElem_set_ne, same'] at changed
  · rintro ⟨rfl, rfl⟩
    exact ⟨i, rfl, by simp, by simpa using differs.symm⟩

/-- Settles O44: the other region has no changed byte, and the one write is the first of its phase. -/
theorem oneChangedByteGivesTwoItems : Obligations.OneChangedByteGivesTwoItems := by
  intro s d q operand
  constructor
  · intro i b differs
    rw [exec_diffCompute_of_le operand, diffOps, cgChanges_self, ddChanges_set differs]
    rfl
  · intro j b inside differs
    rw [exec_diffCompute_of_le (by rwa [List.length_set]), diffOps, cgChanges_set inside differs, ddChanges_self]
    rfl

end Sys2Proof.Machine

namespace Sys2Proof.Machine

/-! ### The items of one phase of DIFF_COMPUTE (45_diff_updater.md R231, R233, R235) -/

/-- A changed byte's write follows an address-set unless the write before it landed just below. -/
theorem phaseOps_cons (setAddress : Byte → DiffOp) (last : Option Nat) (e : Nat × Byte) (rest : List (Nat × Byte)) :
    phaseOps setAddress last (e :: rest) =
      (if last.map (· + 1) = some e.1 then [] else [setAddress (BitVec.ofNat 8 e.1)]) ++
        .write e.2 :: phaseOps setAddress (some e.1) rest := by
  rw [phaseOps]
  split <;> rfl

/-- The first write of a phase follows an address-set. -/
theorem phaseOps_none_cons (setAddress : Byte → DiffOp) (e : Nat × Byte) (rest : List (Nat × Byte)) :
    phaseOps setAddress none (e :: rest) =
      setAddress (BitVec.ofNat 8 e.1) :: .write e.2 :: phaseOps setAddress (some e.1) rest := rfl

@[simp] theorem isWriteItem_write (b : Byte) : isWriteItem (.write b) = true := rfl

/-- The writes of a phase are those of the changed bytes, in their order. -/
theorem filter_isWriteItem_phaseOps {setAddress : Byte → DiffOp} (noWrite : ∀ a, isWriteItem (setAddress a) = false)
    (l : List (Nat × Byte)) :
    ∀ last, (phaseOps setAddress last l).filter isWriteItem = l.map fun e => .write e.2 := by
  induction l with
  | nil => exact fun _ => rfl
  | cons e rest ih =>
    intro last
    rw [phaseOps_cons]
    split <;> simp [List.filter_cons, noWrite, ih]

/-- With a write behind it at `x`, a phase costs its writes and the runs that begin after the one `x` is in. -/
theorem length_phaseOps_some (setAddress : Byte → DiffOp) (l : List (Nat × Byte)) :
    ∀ x, (phaseOps setAddress (some x) l).length + 1 = l.length + runCount (x :: l.map Prod.fst) := by
  induction l with
  | nil => exact fun _ => rfl
  | cons e rest ih =>
    intro x
    have later := ih e.1
    simp only [phaseOps_cons, List.map_cons, runCount, Option.map_some, Option.some.injEq]
    split <;> simp only [List.length_append, List.length_cons, List.length_nil] <;> omega

/-- A phase costs one address-set for each maximal run and one write for each changed byte. -/
theorem length_phaseOps (setAddress : Byte → DiffOp) (l : List (Nat × Byte)) :
    (phaseOps setAddress none l).length = l.length + runCount (l.map Prod.fst) := by
  cases l with
  | nil => rfl
  | cons e rest =>
    have later := length_phaseOps_some setAddress rest e.1
    rw [phaseOps_none_cons]
    simp only [List.length_cons, List.map_cons]
    omega

/-- Settles O45: each phase holds its changed bytes' writes and one address-set for each maximal run of them. -/
theorem diffComputeCostsRuns : Obligations.DiffComputeCostsRuns := by
  intro s pd pc nd nc operand
  refine ⟨_, exec_diffCompute_of_le operand pd pc nd s, ?_, cgChanges_pairwise pc nc, ddChanges_pairwise pd nd, ?_⟩
  · rw [diffOps, List.filter_append, filter_isWriteItem_phaseOps (fun _ => rfl),
      filter_isWriteItem_phaseOps (fun _ => rfl), List.map_append]
  · rw [diffOps, List.length_append, length_phaseOps, length_phaseOps]

/-- A phase does not begin with a write. -/
theorem phaseOps_none_ne_write {setAddress : Byte → DiffOp} (noWrite : ∀ a, isWriteItem (setAddress a) = false)
    (l : List (Nat × Byte)) (b : Byte) (rest : List DiffOp) : phaseOps setAddress none l ≠ .write b :: rest := by
  cases l with
  | nil => exact (List.cons_ne_nil _ _).symm
  | cons e later =>
    intro h
    obtain ⟨first, -⟩ := List.cons.inj h
    have isWrite := noWrite (BitVec.ofNat 8 e.1)
    rw [first] at isWrite
    cases isWrite

/-- The first DDRAM cells stand at 0x00 to 0x07, the others at 0x40 to 0x47. -/
theorem ofNat_devaddr_range (i : Fin 16) :
    BitVec.ofNat 8 (devaddr i) ≤ 0x07#8 ∨
      0x40#8 ≤ BitVec.ofNat 8 (devaddr i) ∧ BitVec.ofNat 8 (devaddr i) ≤ 0x47#8 := by
  revert i; decide

/-- Settles O47: the two parts are the two phases, whose address-sets are to changed bytes' addresses. -/
theorem glyphRamBeforeDisplayRam : Obligations.GlyphRamBeforeDisplayRam := by
  intro s pd pc nd nc operand
  refine ⟨_, _, exec_diffCompute_of_le operand pd pc nd s, fun item cg => ?_, fun item dd => ?_,
    phaseOps_none_ne_write (fun _ => rfl) _, phaseOps_none_ne_write (fun _ => rfl) _⟩
  · rcases mem_phaseOps _ _ _ _ cg with ⟨⟨j, b⟩, changed, rfl⟩ | ⟨e, -, rfl⟩
    · have fits := itemFits_of_mem_diffOps (pd := pd) (nd := nd) operand (List.mem_append_left _ cg)
      exact .inl ⟨_, rfl, of_decide_eq_true fits⟩
    · exact .inr ⟨_, rfl⟩
  · rcases mem_phaseOps _ _ _ _ dd with ⟨⟨a, b⟩, changed, rfl⟩ | ⟨e, -, rfl⟩
    · obtain ⟨i, rfl, -, -⟩ := mem_ddChanges.mp changed
      exact .inl ⟨_, rfl, ofNat_devaddr_range i⟩
    · exact .inr ⟨_, rfl⟩

end Sys2Proof.Machine

namespace Sys2Proof.Machine

/-! ### DIFF_APPLY where it completes, and where it does not (45_diff_updater.md R234, R239) -/

/-- An item that fits its field, or is masked to it, runs its write cycle. -/
theorem applyItem_of_fits {item : DiffOp} {s : State} (fits : s.cfg.addrPolicy = .mask ∨ itemFits item = true) :
    applyItem item s = writeCycle (itemBits item).1 (itemBits item).2 (itemWait s.cfg item) s := by
  have encodes {cmd : Command} (h : s.cfg.addrPolicy = .mask ∨ addressFits cmd = true) :
      encodeCommand s.cfg.addrPolicy cmd = some (commandByte cmd) := by
    rcases h with mask | fits
    · rw [mask]; rfl
    · exact encodeCommand_of_fits fits _
  cases item with
  | write b => rfl
  | setCG a => rw [applyItem, commandCycle, encodes (cmd := .setGlyphRamAddress a) fits]; rfl
  | setDD a => rw [applyItem, commandCycle, encodes (cmd := .setDisplayRamAddress a) fits]; rfl

/-- The pin operations of a list: five for each item, and one more if its first item turns the bus. -/
def listPins (now : BusDir) : List DiffOp → Nat
  | [] => 0
  | item :: rest => (writePins (itemBits item).1 now (itemBits item).2).length + listPins .drivingOutput rest

theorem listPins_eq (ops : List DiffOp) : ∀ now,
    listPins now ops = 5 * ops.length + (if now = .drivingOutput ∨ ops = [] then 0 else 1) := by
  induction ops with
  | nil => intro now; simp [listPins]
  | cons item rest ih =>
    intro now
    rw [listPins, ih, writePins_length_eq_ite]
    by_cases driving : now = .drivingOutput <;> simp [driving] <;> omega

/-- A list whose items fit emits every item's sequence, and leaves the bus driving and E low behind its last. -/
theorem applyOps_emits (ops : List DiffOp) : ∀ {s : State}, itemsFit s.cfg ops → pinsOk s (listPins s.bus.dir ops) →
    ∃ t, applyOps ops s = .ok () t ∧ Emitted s t (listEvents s.cfg s.bus.dir ops) (listPins s.bus.dir ops) ∧
      (ops ≠ [] → t.bus.dir = .drivingOutput ∧ t.lines.rw = some false ∧ t.lines.e = some false) := by
  induction ops with
  | nil => exact fun {s} _ _ => ⟨s, rfl, .refl s, fun h => absurd rfl h⟩
  | cons item rest ih =>
    intro s fits pins
    have firstFits : s.cfg.addrPolicy = .mask ∨ itemFits item = true := fits.imp_right (· item (by simp))
    obtain ⟨t, run, emits, lines, bus, -⟩ := writeCycle_emits (itemBits item).1 (itemBits item).2
      (itemWait s.cfg item) (pinsOk_mono pins (by rw [listPins]; omega))
    rw [← itemEvents_eq] at emits
    have driving : t.bus.dir = .drivingOutput := by rw [bus]
    have restFits : itemsFit t.cfg rest := by
      rw [emits.cfg]; exact fits.imp_right fun all x hx => all x (by simp [hx])
    obtain ⟨u, run', emits', ends⟩ := ih restFits (by rw [driving]; exact emits.pinsOk pins)
    rw [emits.cfg, driving] at emits'
    refine ⟨u, ?_, emits.trans emits', fun _ => ?_⟩
    · rw [applyOps, applyItem_of_fits firstFits, run, Ran.andThen_ok, run']
    · cases rest with
      | nil => cases run'; exact ⟨driving, by rw [lines], by rw [lines]⟩
      | cons next later => exact ends (List.cons_ne_nil _ _)

/-- DIFF_APPLY of items that complete, from a state with no fault, hands over `unit`. -/
theorem diffApply_completes {ops : List DiffOp} {s t : State} (hf : s.fault = none) (run : applyOps ops s = .ok () t) :
    exec (.diffApply ops) s = .next (t.withResult .unit) := by
  cases ops with
  | nil => cases run; rfl
  | cons item rest => exact guarded_completes hf run _

/-- Settles O48: the events of the list's items, closed by `unit`. -/
theorem diffApplyCompletes : Obligations.DiffApplyCompletes := by
  intro s ops hf fits pins
  obtain ⟨t, run, emits, ends⟩ := applyOps_emits ops fits (by rwa [listPins_eq])
  obtain ⟨trace, fault, block⟩ := emits.withResult .unit
  exact ⟨_, diffApply_completes hf run, trace, rfl, fault.trans hf, block, ends⟩

/-- Items that end in an error completed up to one of them, and the error is that one's. -/
theorem applyOps_failed {ops : List DiffOp} {e : OpError} {v : State} : ∀ {s : State}, applyOps ops s = .failed e v →
    ∃ before item after u, ops = before ++ item :: after ∧ applyOps before s = .ok () u ∧
      applyItem item u = .failed e v := by
  induction ops with
  | nil => exact fun h => by cases h
  | cons first rest ih =>
    intro s h
    rw [applyOps] at h
    cases run : applyItem first s with
    | failed e' v' =>
      rw [run] at h
      cases h
      exact ⟨[], first, rest, s, rfl, rfl, run⟩
    | ok _ t =>
      rw [run, Ran.andThen_ok] at h
      obtain ⟨before, item, after, u, rfl, completed, failed⟩ := ih h
      refine ⟨first :: before, item, after, u, rfl, ?_, failed⟩
      rw [applyOps, run, Ran.andThen_ok, completed]

/-- Settles O50: an update ends as its items do, and only failed items leave an error. -/
theorem updateStopsAtFirstError : Obligations.UpdateStopsAtFirstError := by
  intro s t ops e h result
  obtain rfl := diffApply_next h
  cases run : applyOps ops s with
  | ok _ u => rw [run] at result; cases result
  | failed e' v =>
    rw [run] at result
    cases result
    obtain ⟨before, item, after, u, list, completed, failed⟩ := applyOps_failed run
    exact ⟨before, item, after, u, v, list, completed, failed, rfl⟩

end Sys2Proof.Machine

namespace Sys2Proof.Machine

/-! ### What a phase of DIFF_COMPUTE stores at the device (20_memory.md R74, R75, 45_diff_updater.md R236) -/

/-- The number of addresses of a region's memory (R72). -/
def regionSize : Region → Nat
  | .cg => 64
  | .dd => 128

/-- The memory that data writes store to while a region is addressed (R75). -/
def memoryOf (d : RefDevice) : Region → Memory
  | .cg => d.cgram
  | .dd => d.ddram

/-- The address-set into a region (R230). -/
def addressItem : Region → Byte → DiffOp
  | .cg => .setCG
  | .dd => .setDD

theorem StoresOnlyAt.read_memoryOf {places : List (Region × Nat)} {d d' : RefDevice} (h : StoresOnlyAt places d d')
    {r : Region} {a : Nat} (other : (r, a) ∉ places) : (memoryOf d' r).read a = (memoryOf d r).read a := by
  obtain ⟨dd, cg⟩ := h
  cases r with
  | cg => exact cg a other
  | dd => exact dd a other

theorem storesAt_eq_cg {d : RefDevice} {a : Nat} : storesAt d = (.cg, a) ↔ d.region = .cg ∧ d.cgAddress = a := by
  cases hr : d.region <;> simp [storesAt, hr]

theorem storesAt_eq_dd {d : RefDevice} {a : Nat} : storesAt d = (.dd, a) ↔ d.region = .dd ∧ d.ac.toNat = a := by
  cases hr : d.region <;> simp [storesAt, hr]

theorem read_writeData_same {d : RefDevice} {r : Region} {a : Nat} (stands : storesAt d = (r, a)) (b : Byte) :
    (memoryOf (d.writeData b) r).read a = some b := by
  cases r with
  | cg =>
    obtain ⟨region, rfl⟩ := storesAt_eq_cg.mp stands
    rw [RefDevice.writeData_of_cg region]
    exact Memory.read_write_same _ _ _
  | dd =>
    obtain ⟨region, rfl⟩ := storesAt_eq_dd.mp stands
    rw [RefDevice.writeData_of_dd region]
    exact Memory.read_write_same _ _ _

/-- An address-set puts the counter at its address. -/
theorem storesAt_addressItem (d : RefDevice) {r : Region} {a : Nat} (inside : a < regionSize r) :
    storesAt (itemEffect d (addressItem r (BitVec.ofNat 8 a))) = (r, a) := by
  cases r with
  | cg =>
    have field : ((BitVec.ofNat 8 a).setWidth 7 &&& 0x3F#7).toNat = (a % 2 ^ 8 % 2 ^ 7) % 2 ^ 6 := by
      rw [BitVec.toNat_and, BitVec.toNat_setWidth, BitVec.toNat_ofNat]
      exact Nat.and_two_pow_sub_one_eq_mod _ 6
    refine storesAt_eq_cg.mpr ⟨rfl, ?_⟩
    rw [regionSize] at inside
    simp only [addressItem, itemEffect, RefDevice.cgAddress, field]
    omega
  | dd =>
    refine storesAt_eq_dd.mpr ⟨rfl, ?_⟩
    rw [regionSize] at inside
    simp only [addressItem, itemEffect, BitVec.toNat_setWidth, BitVec.toNat_ofNat]
    omega

/-- A data write of a device that counts up moves it to the address above, where the region has one. -/
theorem storesAt_writeData {d : RefDevice} {r : Region} {a : Nat} (up : d.inc = true) (stands : storesAt d = (r, a))
    (inside : a + 1 < regionSize r) (b : Byte) : storesAt (d.writeData b) = (r, a + 1) := by
  cases r with
  | cg =>
    obtain ⟨region, rfl⟩ := storesAt_eq_cg.mp stands
    refine storesAt_eq_cg.mpr ⟨(RefDevice.writeData_region d b).trans region, ?_⟩
    rw [regionSize, RefDevice.cgAddress] at inside
    rw [RefDevice.cgAddress, RefDevice.writeData_ac, RefDevice.nextAc_toNat_of_cg region, if_pos up,
      RefDevice.cgAddress]
    omega
  | dd =>
    obtain ⟨region, rfl⟩ := storesAt_eq_dd.mp stands
    refine storesAt_eq_dd.mpr ⟨(RefDevice.writeData_region d b).trans region, ?_⟩
    rw [RefDevice.writeData_ac, RefDevice.nextAc_toNat_of_dd region, if_pos up]
    exact Nat.mod_eq_of_lt inside

@[simp] theorem itemEffect_inc (d : RefDevice) (item : DiffOp) : (itemEffect d item).inc = d.inc := by
  cases item with
  | write b => exact RefDevice.writeData_inc d b
  | setCG a | setDD a => rfl

theorem foldl_itemEffect_inc (ops : List DiffOp) : ∀ d : RefDevice, (ops.foldl itemEffect d).inc = d.inc := by
  induction ops with
  | nil => exact fun _ => rfl
  | cons item rest ih => exact fun d => (ih _).trans (itemEffect_inc d item)

/-- The device counts up and, behind a write at `last`, stands at the address above it, where the region has one. -/
def StandsBehind (r : Region) (last : Option Nat) (d : RefDevice) : Prop :=
  d.inc = true ∧ ∀ a, last.map (· + 1) = some a → a < regionSize r → storesAt d = (r, a)

theorem standsBehind_none (r : Region) {d : RefDevice} (up : d.inc = true) : StandsBehind r none d :=
  ⟨up, fun _ h => by cases h⟩

theorem standsBehind_writeData {d : RefDevice} {r : Region} {a : Nat} (up : d.inc = true)
    (stands : storesAt d = (r, a)) (b : Byte) : StandsBehind r (some a) (d.writeData b) := by
  refine ⟨(RefDevice.writeData_inc d b).trans up, fun x next inside => ?_⟩
  cases next
  exact storesAt_writeData up stands inside b

/-- The first changed byte of a phase, at the device: whether an address-set comes first or not, its write finds the
counter at its address. -/
theorem phaseOps_cons_at_device {r : Region} {last : Option Nat} {d : RefDevice} (behind : StandsBehind r last d)
    {e : Nat × Byte} (inside : e.1 < regionSize r) (rest : List (Nat × Byte)) :
    ∃ u : RefDevice, u.inc = true ∧ storesAt u = (r, e.1) ∧
      listStoresAt d (phaseOps (addressItem r) last (e :: rest)) =
        (r, e.1) :: listStoresAt (u.writeData e.2) (phaseOps (addressItem r) (some e.1) rest) ∧
      (phaseOps (addressItem r) last (e :: rest)).foldl itemEffect d =
        (phaseOps (addressItem r) (some e.1) rest).foldl itemEffect (u.writeData e.2) := by
  obtain ⟨up, stands⟩ := behind
  rw [phaseOps_cons]
  split
  next follows =>
    have here := stands _ follows inside
    exact ⟨d, up, here, congrArg (· :: _) here, rfl⟩
  next =>
    have here := storesAt_addressItem d inside
    refine ⟨_, (itemEffect_inc d _).trans up, here, ?_, rfl⟩
    rw [← here, listStoresAt_append]
    cases r <;> rfl

/-- A phase stores at its changed bytes' addresses, in their order. -/
theorem listStoresAt_phaseOps (r : Region) (l : List (Nat × Byte)) : ∀ {last : Option Nat} {d : RefDevice},
    StandsBehind r last d → (∀ e ∈ l, e.1 < regionSize r) →
    listStoresAt d (phaseOps (addressItem r) last l) = l.map fun e => (r, e.1) := by
  induction l with
  | nil => exact fun _ _ => rfl
  | cons e rest ih =>
    intro last d behind inside
    obtain ⟨u, up, stands, stores, -⟩ := phaseOps_cons_at_device behind (inside e (by simp)) rest
    rw [stores, ih (standsBehind_writeData up stands e.2) fun x hx => inside x (by simp [hx]), List.map_cons]

/-- After a phase over changed bytes at different addresses the device holds each of them. -/
theorem read_after_phaseOps (r : Region) (l : List (Nat × Byte)) : ∀ {last : Option Nat} {d : RefDevice},
    StandsBehind r last d → (∀ e ∈ l, e.1 < regionSize r) → (l.map Prod.fst).Nodup →
    ∀ a b, (a, b) ∈ l →
      (memoryOf ((phaseOps (addressItem r) last l).foldl itemEffect d) r).read a = some b := by
  induction l with
  | nil => exact fun _ _ _ _ _ h => absurd h List.not_mem_nil
  | cons e rest ih =>
    intro last d behind inside distinct a b changed
    obtain ⟨u, up, stands, -, after⟩ := phaseOps_cons_at_device behind (inside e (by simp)) rest
    obtain ⟨firstOnce, restDistinct⟩ := List.nodup_cons.mp distinct
    have behind' := standsBehind_writeData up stands e.2
    have inside' : ∀ x ∈ rest, x.1 < regionSize r := fun x hx => inside x (by simp [hx])
    rw [after]
    rcases List.mem_cons.mp changed with rfl | later
    · rw [(foldl_itemEffect_storesOnlyAt _ _).read_memoryOf, read_writeData_same stands]
      rw [listStoresAt_phaseOps r rest behind' inside']
      simpa using firstOnce
    · exact ih behind' inside' restDistinct a b later

/-! ### What an update stores at the device (45_diff_updater.md R236) -/

/-- An unchanged byte of glyph RAM stands in the previous image that is given (R232). -/
theorem exists_of_not_changedCG {prev : Option (List Byte)} {j : Nat} {b : Byte} (h : ¬ changedCG prev j b = true) :
    ∃ p, prev = some p ∧ p[j]? = some b := by
  simpa [changedCG_iff] using h

/-- An unchanged byte of display RAM stands in the previous image that is given (R232). -/
theorem exists_of_not_changedDD {prev : Option Image} {i : Fin 16} {b : Byte} (h : ¬ changedDD prev i b = true) :
    ∃ p, prev = some p ∧ p[i] = b := by
  simpa only [changedDD_iff, not_forall, not_not, exists_prop] using h

theorem cgChanges_inside {nc : List Byte} (operand : nc.length ≤ 64) (pc : Option (List Byte)) :
    ∀ e ∈ cgChanges pc nc, e.1 < regionSize .cg := by
  rintro ⟨j, b⟩ changed
  exact (List.getElem?_eq_some_iff.mp (mem_cgChanges.mp changed).1).1.trans_le operand

theorem ddChanges_inside (pd : Option Image) (nd : Image) : ∀ e ∈ ddChanges pd nd, e.1 < regionSize .dd := by
  rintro ⟨a, b⟩ changed
  obtain ⟨i, rfl, -, -⟩ := mem_ddChanges.mp changed
  exact (devaddr_strictMono.monotone (Nat.le_of_lt_succ i.isLt)).trans_lt (by decide : devaddr 15 < 128)

section
variable {pd : Option Image} {pc : Option (List Byte)} {nd : Image} {nc : List Byte} {d : RefDevice}

/-- An update of a device that counts up stores at the changed bytes' addresses. -/
theorem listStoresAt_diffOps (operand : nc.length ≤ 64) (up : d.inc = true) :
    listStoresAt d (diffOps pd pc nd nc) =
      (cgChanges pc nc).map (fun e => (.cg, e.1)) ++ (ddChanges pd nd).map (fun e => (.dd, e.1)) := by
  rw [diffOps, listStoresAt_append]
  exact congrArg₂ (· ++ ·)
    (listStoresAt_phaseOps .cg _ (standsBehind_none _ up) (cgChanges_inside operand pc))
    (listStoresAt_phaseOps .dd _ (standsBehind_none _ ((foldl_itemEffect_inc _ d).trans up)) (ddChanges_inside pd nd))

theorem not_mem_listStoresAt_cg (operand : nc.length ≤ 64) (up : d.inc = true) {a : Nat}
    (unchanged : ∀ b, (a, b) ∉ cgChanges pc nc) : (Region.cg, a) ∉ listStoresAt d (diffOps pd pc nd nc) := by
  rw [listStoresAt_diffOps operand up]
  simpa using unchanged

theorem not_mem_listStoresAt_dd (operand : nc.length ≤ 64) (up : d.inc = true) {a : Nat}
    (unchanged : ∀ b, (a, b) ∉ ddChanges pd nd) : (Region.dd, a) ∉ listStoresAt d (diffOps pd pc nd nc) := by
  rw [listStoresAt_diffOps operand up]
  simpa using unchanged

/-- After an update the device holds the changed bytes of glyph RAM: the display RAM's phase leaves them alone. -/
theorem cgram_read_after_diffOps (operand : nc.length ≤ 64) (up : d.inc = true) {a : Nat} {b : Byte}
    (changed : (a, b) ∈ cgChanges pc nc) :
    ((diffOps pd pc nd nc).foldl itemEffect d).cgram.read a = some b := by
  have otherRegion {u : RefDevice} (up : u.inc = true) :
      (Region.cg, a) ∉ listStoresAt u (phaseOps .setDD none (ddChanges pd nd)) := by
    have stores := listStoresAt_phaseOps .dd _ (standsBehind_none _ up) (ddChanges_inside pd nd)
    rw [addressItem] at stores
    simp [stores]
  rw [diffOps, List.foldl_append]
  exact ((foldl_itemEffect_storesOnlyAt _ _).read_memoryOf
    (otherRegion ((foldl_itemEffect_inc _ d).trans up))).trans
    (read_after_phaseOps .cg _ (standsBehind_none _ up) (cgChanges_inside operand pc)
      ((cgChanges_pairwise pc nc).imp Nat.ne_of_lt) a b changed)

/-- After an update the device holds the changed bytes of display RAM. -/
theorem ddram_read_after_diffOps (up : d.inc = true) {a : Nat} {b : Byte} (changed : (a, b) ∈ ddChanges pd nd) :
    ((diffOps pd pc nd nc).foldl itemEffect d).ddram.read a = some b := by
  rw [diffOps, List.foldl_append]
  exact read_after_phaseOps .dd _ (standsBehind_none _ ((foldl_itemEffect_inc _ d).trans up)) (ddChanges_inside pd nd)
    ((ddChanges_pairwise pd nd).imp Nat.ne_of_lt) a b changed

/-- An unchanged byte of display RAM is one the device held already, and nothing is stored there. -/
theorem showsDD_after_diffOps (operand : nc.length ≤ 64) (up : d.inc = true) (agrees : agreesDD d pd) :
    showsDD ((diffOps pd pc nd nc).foldl itemEffect d) nd := by
  intro i
  by_cases changed : changedDD pd i nd[i] = true
  · exact ddram_read_after_diffOps up (mem_ddChanges.mpr ⟨i, rfl, rfl, changed⟩)
  · have unchanged : ∀ b, (devaddr i, b) ∉ ddChanges pd nd := by
      intro b h
      obtain ⟨k, same, rfl, changed'⟩ := mem_ddChanges.mp h
      obtain rfl : i = k := Fin.ext (devaddr_strictMono.injective same)
      exact changed changed'
    obtain ⟨dd, -⟩ := foldl_itemEffect_storesOnlyAt (diffOps pd pc nd nc) d
    obtain ⟨p, rfl, same⟩ := exists_of_not_changedDD changed
    rw [dd _ (not_mem_listStoresAt_dd operand up unchanged), ← same]
    exact agrees i

/-- An unchanged byte of glyph RAM is one the device held already, and nothing is stored there. -/
theorem showsCG_after_diffOps (operand : nc.length ≤ 64) (up : d.inc = true) (agrees : agreesCG d pc) :
    showsCG ((diffOps pd pc nd nc).foldl itemEffect d) nc := by
  intro j hj
  have here : nc[j]? = some nc[j] := List.getElem?_eq_getElem hj
  rw [here]
  by_cases changed : changedCG pc j nc[j] = true
  · exact cgram_read_after_diffOps operand up (mem_cgChanges.mpr ⟨here, changed⟩)
  · have unchanged : ∀ b, (j, b) ∉ cgChanges pc nc := by
      intro b h
      obtain ⟨value, changed'⟩ := mem_cgChanges.mp h
      cases here.symm.trans value
      exact changed changed'
    obtain ⟨-, cg⟩ := foldl_itemEffect_storesOnlyAt (diffOps pd pc nd nc) d
    obtain ⟨p, rfl, same⟩ := exists_of_not_changedCG changed
    rw [cg _ (not_mem_listStoresAt_cg operand up unchanged), ← same]
    exact agrees j (List.getElem?_eq_some_iff.mp same).1

end

/-- Settles O56: an update that ends `Ok` leaves the device with every item taken; a byte is written or was there. -/
theorem deviceConvergesToImages : Obligations.DeviceConvergesToImages := by
  intro s t pd pc dd cg d operand hd up agreesdd agreescg h unit
  obtain ⟨u, run, rfl⟩ := applyOps_of_unit h unit
  have took := applyOps_tookItems (diffOps pd pc dd cg) hd
  rw [run] at took
  exact ⟨_, took, showsDD_after_diffOps operand up agreesdd, showsCG_after_diffOps operand up agreescg⟩

/-- Settles O59: an update stores where its items lead, and DIFF_COMPUTE's lead to the changed bytes' addresses. -/
theorem updateLeavesOtherBytesAlone : Obligations.UpdateLeavesOtherBytesAlone := by
  intro s t pd pc dd cg d d' operand hd up h hd'
  obtain ⟨-, updates⟩ := writesStoreAtTheirAddressesOnly s t d d' hd hd'
  obtain ⟨ddOther, cgOther, -⟩ := updates _ h
  exact ⟨fun a unchanged => ddOther a (not_mem_listStoresAt_dd operand up unchanged),
    fun a unchanged => cgOther a (not_mem_listStoresAt_cg operand up unchanged)⟩

end Sys2Proof.Machine

namespace Sys2Proof.Machine

/-! ### While a fault is recorded (60_exceptions.md R253) -/

theorem command_refused_of_fault {s : State} {e : HwErr} (hs : s.fault = some e) {i : Instr} {cmd : Command}
    (hi : commandOf i = some cmd) : exec i s = .refused .stickyFault := by
  rw [exec_of_commandOf hi, driverExec, unlessFaulted_of_some hs]

/-- Settles O33: every form but the empty DIFF_APPLY stands behind the check of `fault`, and what completes while
one is recorded is a `PureStep`. -/
theorem stickyFaultRefusesPinOperations : Obligations.StickyFaultRefusesPinOperations := by
  intro s e hs
  have command {i : Instr} {cmd : Command} (hi : commandOf i = some cmd) := command_refused_of_fault hs hi
  have guarded := unlessFaulted_of_some hs
  have faultStays (i : Instr) (t : State) (h : exec i s = .next t) : t.fault = some e :=
    (exec_next_of_fault hs h).fault.trans hs
  exact ⟨fun _ => command rfl, fun _ => ⟨guarded _, guarded _, guarded _⟩, guarded _, guarded _, guarded _, guarded _,
    guarded _, fun _ _ => guarded _, rfl, command rfl, command rfl, fun _ _ => command rfl, fun _ _ _ => command rfl,
    fun _ _ => command rfl, fun _ _ => command rfl, fun _ => command rfl, fun _ => command rfl, faultStays, rfl⟩

/-! ### The operations that touch no pin (60_exceptions.md R252) -/

/-- Ending an operation that cannot fail, whatever it made of the cache and the canvas, is a `PureStep`. -/
theorem done_pureStep {s : State} {cache : Cache} {canvas : Canvas} {r : OpResult} (noError : ∀ e, r ≠ .error e) :
    ∃ t, done { s with cache := cache, canvas := canvas } r = .next t ∧ PureStep s t :=
  ⟨_, rfl, rfl, rfl, rfl, rfl, rfl, rfl, rfl, rfl, noError⟩

/-- Settles O34: each operation is `done` with the cache and the canvas at most replaced, once its fill count or its
operand is legal. -/
theorem pureOperationsCannotFail : Obligations.PureOperationsCannotFail := by
  intro s i touchesNoPin
  have completes : ∃ t, exec i s = .next t ∧ PureStep s t := by
    rcases touchesNoPin with ⟨c, rfl⟩ | ⟨g, h, rfl⟩ | ⟨g, h, rfl⟩ | ⟨g, rfl⟩ | rfl | ⟨g, rfl, legal⟩ | ⟨rfl, legal⟩ |
      ⟨p, rfl⟩ | ⟨text, ovr, rfl⟩ | ⟨ovr, rfl⟩ | rfl | ⟨pd, pc, nd, nc, rfl, operand⟩
    · exact done_pureStep nofun
    · exact done_pureStep nofun
    · exact done_pureStep nofun
    · exact done_pureStep nofun
    · exact done_pureStep nofun
    · rw [exec_cacheResolve legal rfl]; exact done_pureStep nofun
    · rw [exec_cacheImage legal]; exact done_pureStep nofun
    · exact done_pureStep nofun
    · exact done_pureStep nofun
    · exact done_pureStep nofun
    · exact done_pureStep nofun
    · rw [exec_diffCompute_of_le operand]; exact done_pureStep nofun
  obtain ⟨t, run, untouched⟩ := completes
  exact ⟨t, run, untouched.result, untouched.cfg, untouched.bus, untouched.lines, untouched.fault, untouched.trace,
    untouched.env, untouched.dev, untouched.pending⟩

end Sys2Proof.Machine

namespace Sys2Proof.Machine

/-! ### What reset leaves (10_state.md R49 to R54, 70_reset_and_hazards.md R281) -/

/-- Settles O7: `resetWith` writes the reset value of every register out, and the settle times of the open
configuration are the spec's defaults (R16). -/
theorem resetValues : Obligations.ResetValues :=
  ⟨fun _ => ⟨rfl, rfl, rfl, rfl, rfl, rfl⟩, rfl, rfl, rfl, rfl, rfl⟩

/-! ### The delay of an update (70_reset_and_hazards.md R297, R298) -/

@[simp] theorem delayTotal_append (a b : List Event) : delayTotal (a ++ b) = delayTotal a + delayTotal b := by
  simp [delayTotal]

/-- No event of a write cycle but its last is a delay (R193, R195). -/
theorem delayTotal_writePins (rs : Bool) (now : BusDir) (b : Byte) : delayTotal (writePins rs now b) = 0 := by
  by_cases driving : now = .drivingOutput <;> simp [writePins, turnEvents, driving, delayTotal]

theorem delayTotal_itemEvents (cfg : Config) (now : BusDir) (item : DiffOp) :
    delayTotal (itemEvents cfg now item) = itemWait cfg item := by
  rw [itemEvents_eq, delayTotal_append, delayTotal_writePins, Nat.zero_add]
  rfl

/-- A list waits one command time for each address-set item and one data time for each write item. -/
theorem delayTotal_listEvents (cfg : Config) (ops : List DiffOp) : ∀ now, delayTotal (listEvents cfg now ops) =
    cfg.tCmd * ops.countP (fun item => !isWriteItem item) + cfg.tData * ops.countP isWriteItem := by
  induction ops with
  | nil => exact fun _ => rfl
  | cons item rest ih =>
    intro now
    rw [listEvents, delayTotal_append, delayTotal_itemEvents, ih]
    cases item <;> simp [itemWait, isWriteItem, List.countP_cons] <;> ring

/-- A list that completes has emitted every item's sequence, whatever its addresses and the oracles' answers. -/
theorem applyOps_ok_trace {ops : List DiffOp} {t : State} : ∀ {s : State}, applyOps ops s = .ok () t →
    t.trace = s.trace ++ listEvents s.cfg s.bus.dir ops := by
  induction ops with
  | nil => intro s run; cases run; exact (List.append_nil _).symm
  | cons item rest ih =>
    intro s run
    rw [applyOps] at run
    cases first : applyItem item s with
    | failed e u => rw [first] at run; cases run
    | ok _ u =>
      rw [first, Ran.andThen_ok] at run
      obtain ⟨emits, -, bus, -⟩ := applyItem_ok first
      rw [ih run, emits.trace, emits.cfg, bus, List.append_assoc, listEvents]

/-- Settles O49: an update that ends `Ok` has emitted the events of all its items, whose delays add up. -/
theorem updateDelayIsSumOfItems : Obligations.UpdateDelayIsSumOfItems := by
  intro s t ops h unit
  obtain ⟨u, run, rfl⟩ := applyOps_of_unit h unit
  rw [State.withResult_trace, applyOps_ok_trace run, delayTotal_append, delayTotal_listEvents, Nat.add_assoc]

end Sys2Proof.Machine
